-- ==== Sys2Proof/Word.lean ====
section
/-! DEFINITION. Word.lean: the widths of the GF(2^8) field engine's values (spec/00_scope.md R7, R8, R11). Bit 0 is the
least significant bit of every value. -/

namespace Sys2Proof

/-- A field element, a table entry, RESULT, FIELD_GEN: 8 bits (R7). -/
abbrev Byte := BitVec 8

/-- A polynomial in range, FIELD_POLY: 16 bits (R7). -/
abbrev Half := BitVec 16

/-- A bus word, an operand register, a sample cell, a command word: 32 bits (R8, BUS_DATA_WIDTH). -/
abbrev Word := BitVec 32

/-- A byte offset of the block's window: 13 bits, 0x0000 to 0x1FFF (R8, ADDR_WIDTH; spec/20_memory.md R53). -/
abbrev Offset := BitVec 13

end Sys2Proof
end

