-- ==== Sys2Proof/Config.lean ====
section
/-! DEFINITION. Config.lean: what is fixed for the machine (spec/00_scope.md R7, R8, R10) and the parameters the spec
leaves open (R9, spec/93_implementation_defined.md I20 to I22), the latter as constants without a body. -/

namespace Sys2Proof
namespace Config

/-- SAMPLE_DEPTH: how many sample points the block holds (R8). -/
def sampleDepth : Nat := 256

/-- The entries of the EXP table (R7). -/
def expDepth : Nat := 512

/-- The entries of the LOG table (R7). -/
def logDepth : Nat := 256

/-- The order of the field's multiplicative group (R7). -/
def groupOrder : Nat := 255

/-- RESET_POLY, the software constructor's default polynomial (R8). -/
def resetPoly : Word := 0x11B#32

/-- RESET_GEN, the software constructor's default generator (R8). -/
def resetGen : Word := 0x03#32

/-- Host-side named constants (R10): the polynomials AES and REED_SOLOMON. -/
def polyAes : Half := 0x11B#16
def polyReedSolomon : Half := 0x11D#16

/-- Host-side named constants (R10): the generators AES, REED_SOLOMON and FAST. They are paired with no polynomial. -/
def genAes : Byte := 0x03#8
def genReedSolomon : Byte := 0xE5#8
def genFast : Byte := 0x02#8

/-- `draw` of R9: the source of every unspecified value. `draw w tick position` is the w-bit value that the read
numbered `position` of the step numbered `tick` draws. It has no body, so nothing in Lean can know a value of it
(log entry 3). -/
opaque draw (w tick position : Nat) : BitVec w

/-- BLOCK_BASE: the host address of the block's offset 0, a platform parameter left open (spec/20_memory.md R53,
spec/93_implementation_defined.md I21; log entry 9). -/
opaque blockBase : Nat

/-- The random byte source of spec/46_random_polynomial_host.md R152: byte k of the answer to call `call`. Only a host
procedure consults it; the block never does (R153; log entry 10). -/
opaque randomByte (call k : Nat) : Byte

end Config
end Sys2Proof
end

