-- ==== Sys2Proof/Syntax.lean ====
section
/-! DEFINITION. Syntax.lean: the nine commands of spec/30_encoding.md R78, one constructor per row of
spec/opcode_table.json. A command word carries no operand (R76), so no constructor has a field. -/

namespace Sys2Proof

/-- The commands of the block (R78). Their operands are registers and cells of the block, read at completion (R77). -/
inductive Instr where
  /-- CLMUL: carry-less byte multiply and reduce (spec/40_multiplier.md R91). -/
  | clmul
  /-- ISGEN: generator test (spec/41_generator_validator.md R97). -/
  | isgen
  /-- BUILD: build the field's tables (spec/42_table_builder.md R105). -/
  | build
  /-- ADD: field addition (spec/43_field_arithmetic.md R116). -/
  | add
  /-- SUB: field subtraction (R118). -/
  | sub
  /-- MUL: field multiplication by table lookup (R121). -/
  | mul
  /-- DIV: field division (R124). -/
  | div
  /-- INV: multiplicative inverse (R127). -/
  | inv
  /-- INTERP: Lagrange interpolation (spec/45_interpolator.md R142). -/
  | interp
  deriving DecidableEq, Repr

end Sys2Proof
end

