-- ==== Sys2Proof/WellFormed.lean ====
section
/-! DEFINITION. WellFormed.lean: which instructions and which command words are well formed (spec/30_encoding.md R76,
R79). An instruction has no operand, so every Instr is well formed; a command word, read as its two fields, is well
formed when RSV is 0 and OP is not reserved. -/

namespace Sys2Proof

/-- An instruction is well formed when its operands are in range; the nine commands have none (R76). -/
def Instr.wf : Instr → Bool
  | .clmul => true
  | .isgen => true
  | .build => true
  | .add => true
  | .sub => true
  | .mul => true
  | .div => true
  | .inv => true
  | .interp => true

/-- The two fields of the one format CMDW (R76): RSV is bits 31:4, OP is bits 3:0. -/
structure CommandFields where
  rsv : BitVec 28
  op  : BitVec 4
  deriving DecidableEq, Repr

/-- RSV must be 0 (R76). -/
def CommandFields.rsvOk (f : CommandFields) : Bool := f.rsv == 0#28

/-- OP = 0x0 and OP in 0xA to 0xF are reserved (R79). -/
def CommandFields.opOk (f : CommandFields) : Bool := decide (1 ≤ f.op.toNat) && decide (f.op.toNat ≤ 9)

/-- A command word's fields are well formed when neither is reserved. -/
def CommandFields.wf (f : CommandFields) : Bool := f.rsvOk && f.opOk

end Sys2Proof
end

