-- ==== Sys2Proof/Decode.lean ====
section
/-! DEFINITION. Decode.lean: the decoder of spec/30_encoding.md R81, total on the 32-bit words and rejecting by name, and
after it the encoder, both written from the map of R78. -/

namespace Sys2Proof

/-- Why a command word is reserved (R79): a bit of RSV is set, or OP is one of 0x0, 0xA to 0xF. -/
inductive IllegalWord where
  | reservedField
  | reservedOp
  deriving DecidableEq, Repr

/-- What R81's decode returns: a command, or Illegal. -/
inductive Decoded where
  | command (i : Instr)
  | illegal (why : IllegalWord)
  deriving DecidableEq, Repr

/-- The fields of a command word (R76): RSV is w[31:4], OP is w[3:0]. -/
def fieldsOf (w : Word) : CommandFields where
  rsv := w.extractLsb' 4 28
  op := w.extractLsb' 0 4

/-- The OP map of R78, read from OP to command. -/
def decodeOp (op : BitVec 4) : Decoded :=
  match op.toNat with
  | 0x1 => .command .clmul
  | 0x2 => .command .isgen
  | 0x3 => .command .build
  | 0x4 => .command .add
  | 0x5 => .command .sub
  | 0x6 => .command .mul
  | 0x7 => .command .div
  | 0x8 => .command .inv
  | 0x9 => .command .interp
  | _ => .illegal .reservedOp

/-- R81: all 32 bits are read (R80); a word with RSV ≠ 0 is reserved whatever its OP (R79). -/
def decode (w : Word) : Decoded :=
  if (fieldsOf w).rsv = 0#28 then decodeOp (fieldsOf w).op else .illegal .reservedField

/-- The OP map of R78, read from command to OP. -/
def Instr.opcode : Instr → BitVec 4
  | .clmul => 0x1#4
  | .isgen => 0x2#4
  | .build => 0x3#4
  | .add => 0x4#4
  | .sub => 0x5#4
  | .mul => 0x6#4
  | .div => 0x7#4
  | .inv => 0x8#4
  | .interp => 0x9#4

/-- The command word of a command: RSV = 0 above OP (R76). -/
def encode (i : Instr) : Word := 0#28 ++ i.opcode

/-- The command word that spec/opcode_table.json's numbering gives: `nbits` low bits of `w`, zeros above. -/
def tableWord (nbits w : Nat) : Word := BitVec.ofNat 32 (w % 2 ^ nbits)

/-- The instruction the decoder reads from a table row's word (none where the word is reserved). -/
def decodeTableWord (nbits w : Nat) : Option Instr :=
  match decode (tableWord nbits w) with
  | .command i => some i
  | .illegal _ => none

end Sys2Proof
end

