-- ==== Sys2Proof/Machine/State.lean ====
section
/-! DEFINITION. State.lean: the block's state as plain data (spec/10_state.md R46), the bus port's queue and last response
(spec/20_memory.md R54, R69), the outcomes' reasons, and the state after reset (R47). -/

namespace Sys2Proof
namespace Machine

/-- Cells by index, in one canonical form: indices strictly rising, each index at most once. A cell that is not listed is
unspecified (`none` of R46). `Cells Byte` is `List Host.Cell`. -/
abbrev Cells (α : Type) := List (Nat × α)

/-- The block's arrays (R41, R42, R43). What an unlisted cell reads as is a draw (spec/93_implementation_defined.md I1, I2,
I4, I7). -/
structure Memory where
  /-- EXP[0..511] (R41). -/
  exp : Cells Byte
  /-- LOG[0..255] (R42). -/
  log : Cells Byte
  /-- SX[0..255] (R43). -/
  sx : Cells Word
  /-- SY[0..255] (R43). -/
  sy : Cells Word
  deriving DecidableEq, Repr

/-- One host access (spec/00_scope.md R13): n is the width in bytes; only n = 4 is legal (spec/20_memory.md R58). -/
inductive BusOp where
  | read (off : Offset) (n : Nat)
  | write (off : Offset) (n : Nat) (v : Word)
  deriving DecidableEq, Repr

/-- What arrives at the block from outside: a host access (R54) or the reset input (spec/70_reset_and_hazards.md R177). -/
inductive PortEvent where
  | access (op : BusOp)
  | reset
  deriving DecidableEq, Repr

/-- An event and its place in the one total order of accesses and completions (spec/20_memory.md R69): `engineFirst` says
that, if a command is pending when the event is next, its completion comes before the event. This is the model's LAT(op)
(spec/93_implementation_defined.md I20; log entry 4). -/
structure PortEntry where
  event       : PortEvent
  engineFirst : Bool
  deriving DecidableEq, Repr

/-- The response of an access (spec/20_memory.md R54): OKAY with 32 bits of data for a read, OKAY for a write, ERROR. -/
inductive Response where
  | data (v : Word)
  | okay
  | error
  deriving DecidableEq, Repr

/-- The machine's state. -/
structure State where
  /-- STATUS.BUSY (R28). -/
  busy   : Bool
  /-- STATUS.FV (R29). -/
  fv     : Bool
  /-- STATUS.COLL (R30). -/
  coll   : Bool
  /-- STATUS.ERR (R31). -/
  err    : BitVec 4
  /-- OPA (R33). -/
  opa    : Word
  /-- OPB (R34). -/
  opb    : Word
  /-- RESULT (R35). -/
  result : Byte
  /-- POLY (R36). -/
  poly   : Word
  /-- GEN (R37). -/
  gen    : Word
  /-- NSAMP (R38). -/
  nsamp  : Word
  /-- FIELD_POLY (R39). -/
  fpoly  : Half
  /-- FIELD_GEN (R40). -/
  fgen   : Byte
  /-- EXP, LOG, SX, SY (R41 to R43). -/
  mem    : Memory
  /-- PEND (R44), meaningful only while `busy`. -/
  pend   : Word
  /-- The events on their way to the block, the next one first (spec/20_memory.md R69; log entry 2). -/
  port   : List PortEntry
  /-- The response of the last access (spec/20_memory.md R54; log entry 2). -/
  resp   : Option Response
  /-- The model's own counter, which every step but the idle one advances; the draws are `Config.draw` at it (log
  entry 3). -/
  tick   : Nat
  deriving DecidableEq, Repr

/-- What stops the machine. Nothing does: the block has no trap (spec/60_exceptions.md R160), a command error is a value of
STATUS.ERR (R158), a bus ERROR is a response (R162), and no item of spec/93_implementation_defined.md is `stuck`. So no
constructor stands here; that is safe, since every behaviour of the spec is a next state. -/
inductive Fault where
  deriving DecidableEq, Repr

/-- Why the model gives no meaning. -/
inductive Refusal where
  /-- Raised by `exec`'s arm of an instruction that has no meaning yet, and by nothing else; safe. No arm raises it now. -/
  | notModelled (mnemonic : String)
  deriving DecidableEq, Repr

/-- The state right after reset (R47, spec/70_reset_and_hazards.md R177): every value is R47's, but for `pend`, which R47
leaves unspecified (DESIGN CHOICE 0, log entry 1), and the port's own fields (log entries 2 and 3). -/
def State.reset : State where
  busy := false
  fv := false
  coll := false
  err := 0#4
  opa := 0#32
  opb := 0#32
  result := 0#8
  poly := Config.resetPoly
  gen := Config.resetGen
  nsamp := 0#32
  fpoly := 0#16
  fgen := 0#8
  mem := { exp := [], log := [], sx := [], sy := [] }
  pend := 0#32
  port := []
  resp := none
  tick := 0

end Machine
end Sys2Proof
end

