-- ==== Sys2Proof/Machine/Flags.lean ====
section
/-! DEFINITION. Flags.lean: the block's only flags, STATUS.BUSY, FV, COLL and ERR (spec/10_state.md R28 to R32, R48): the
error codes (spec/60_exceptions.md R155) and the STATUS word. -/

namespace Sys2Proof
namespace Machine

/-- The errors a command can raise (spec/60_exceptions.md R155). -/
inductive CmdError where
  | outOfRange
  | invalidGenerator
  | divisionByZero
  | noInverseForZero
  | emptyInput
  | noField
  | illegalCommand
  deriving DecidableEq, Repr

/-- STATUS.ERR's codes (R155); 0 is NONE and 8 to 15 are never written. -/
def CmdError.code : CmdError → BitVec 4
  | .outOfRange => 1#4
  | .invalidGenerator => 2#4
  | .divisionByZero => 3#4
  | .noInverseForZero => 4#4
  | .emptyInput => 5#4
  | .noField => 6#4
  | .illegalCommand => 7#4

/-- ERR of a command that succeeded (R155). -/
def noError : BitVec 4 := 0#4

/-- A flag as one bit. -/
def flagBit (b : Bool) : BitVec 1 := if b then 1#1 else 0#1

/-- The STATUS word (R28 to R32): bits 31:12 zero, 11:8 ERR, 7:3 zero, 2 COLL, 1 FV, 0 BUSY. -/
def packStatus (err : BitVec 4) (coll fv busy : BitVec 1) : Word :=
  0#20 ++ err ++ 0#5 ++ coll ++ fv ++ busy

/-- Whether a BUILD is pending (R45). -/
def pendingBuild (s : State) : Bool := s.busy && decide (decode s.pend = .command .build)

/-- ERR as a read sees it: stored, or a draw while BUSY (R31, R45). -/
def errRead (s : State) : BitVec 4 := if s.busy then Config.draw 4 s.tick 0 else s.err

/-- FV as a read sees it: stored, or a draw while a BUILD is pending (R29, R45). -/
def fvRead (s : State) : BitVec 1 := if pendingBuild s then Config.draw 1 s.tick 0 else flagBit s.fv

/-- What a read of STATUS returns (R28 to R32, R45). -/
def statusRead (s : State) : Word := packStatus (errRead s) (flagBit s.coll) (fvRead s) (flagBit s.busy)

/-- A write of STATUS: bit 2 set clears COLL, every other bit is ignored, BUSY or not (R30, spec/20_memory.md R61). -/
def writeStatus (v : Word) (s : State) : State := { s with coll := s.coll && !v.getLsbD 2 }

/-- A write that BUSY discards sets COLL and does nothing else (R30, spec/20_memory.md R63). -/
def discardWrite (s : State) : State := { s with coll := true }

end Machine
end Sys2Proof
end

