-- ==== Sys2Proof/Machine/Ops.lean ====
section
/-! DEFINITION. Ops.lean: the operations the commands and the bus share: cells (spec/10_state.md R41 to R43), accepting a
command (R27), completing one (spec/60_exceptions.md R158), which is where an error is taken (R159, R161), and reset
(spec/70_reset_and_hazards.md R177). -/

namespace Sys2Proof
namespace Machine

/-- A value of fewer bits at the bus: zeros above it (spec/00_scope.md R11, spec/20_memory.md R62). -/
def zext32 {n : Nat} (v : BitVec n) : Word := v.setWidth 32

/-! ### Cells -/

/-- The content of cell i, none where it is unspecified. -/
def Cells.get {α : Type} (i : Nat) : Cells α → Option α
  | [] => none
  | (j, w) :: cs => if i = j then some w else Cells.get i cs

/-- Writing cell i, in the canonical form. -/
def Cells.set {α : Type} (i : Nat) (v : α) : Cells α → Cells α
  | [] => [(i, v)]
  | (j, w) :: cs =>
    if i < j then (i, v) :: (j, w) :: cs
    else if i = j then (i, v) :: cs
    else (j, w) :: Cells.set i v cs

/-- The cells i, i+1, … holding the values of a list. -/
def Cells.run {α : Type} (i : Nat) : List α → Cells α
  | [] => []
  | v :: vs => (i, v) :: Cells.run (i + 1) vs

/-- Writing the cells i, i+1, … with the values of a list, in order: what the single writes, one after the other, give
(Laws.Cells.setRun_eq_setEach). -/
def Cells.setRun {α : Type} (i : Nat) (vs : List α) (cs : Cells α) : Cells α :=
  cs.filter (fun c => decide (c.1 < i)) ++ Cells.run i vs ++ cs.filter (fun c => decide (i + vs.length ≤ c.1))

/-- The canonical form: indices strictly rising. -/
def Cells.rising {α : Type} : Cells α → Bool
  | [] => true
  | [_] => true
  | (i, _) :: (j, w) :: cs => decide (i < j) && Cells.rising ((j, w) :: cs)

/-- The canonical form, with every index below the array's depth. -/
def Cells.wf {α : Type} (depth : Nat) (cs : Cells α) : Bool :=
  Cells.rising cs && cs.all (fun c => decide (c.1 < depth))

/-- The memory's form: every array is in canonical form, within its depth. -/
def Memory.wf (m : Memory) : Bool :=
  Cells.wf Config.expDepth m.exp && Cells.wf Config.logDepth m.log && Cells.wf Config.sampleDepth m.sx &&
    Cells.wf Config.sampleDepth m.sy

/-- Entry i of EXP, a draw where it is unspecified (R41). Draws of one step are told apart by the cell. -/
def readExp (s : State) (i : Nat) : Byte := (Cells.get i s.mem.exp).getD (Config.draw 8 s.tick i)

/-- Entry i of LOG, a draw where it is unspecified (R42). -/
def readLog (s : State) (i : Nat) : Byte := (Cells.get i s.mem.log).getD (Config.draw 8 s.tick (Config.expDepth + i))

/-- SX[i], a draw where nothing has written it (R43); `position` numbers the reads of one step (log entry 5). -/
def readSx (s : State) (i position : Nat) : Word := (Cells.get i s.mem.sx).getD (Config.draw 32 s.tick position)

/-- SY[i], a draw where nothing has written it (R43). -/
def readSy (s : State) (i position : Nat) : Word := (Cells.get i s.mem.sy).getD (Config.draw 32 s.tick position)

/-- A host write of SX[i] (spec/20_memory.md R60). -/
def writeSx (i : Nat) (v : Word) (s : State) : State := { s with mem := { s.mem with sx := Cells.set i v s.mem.sx } }

/-- A host write of SY[i] (spec/20_memory.md R60). -/
def writeSy (i : Nat) (v : Word) (s : State) : State := { s with mem := { s.mem with sy := Cells.set i v s.mem.sy } }

/-! ### Accepting and completing a command -/

/-- Acceptance: the word goes into PEND and BUSY is set; nothing else (R27). It is also what the block has for a return
from an error (spec/60_exceptions.md R161). -/
def acceptCommand (w : Word) (s : State) : State := { s with pend := w, busy := true }

/-- What a command that succeeds writes (spec/60_exceptions.md R158): RESULT, or the field context. -/
inductive Writes where
  | result (v : Byte)
  | field (p : Half) (g : Byte) (exp log : Cells Byte)
  deriving DecidableEq, Repr

/-- The writes of R158; BUILD's are those of spec/42_table_builder.md R106. -/
def applyWrites (w : Writes) (s : State) : State :=
  match w with
  | .result v => { s with result := v }
  | .field p g exp log =>
    { s with mem := { s.mem with exp := exp, log := log }, fpoly := p, fgen := g, fv := true }

/-- The end of every command: ERR is written and BUSY cleared (R158). The model's counter moves on. -/
def endCommand (code : BitVec 4) (s : State) : State := { s with err := code, busy := false, tick := s.tick + 1 }

/-- Taking an error: the completion writes its code to ERR, clears BUSY and writes nothing else (spec/60_exceptions.md R158,
R159). -/
def raiseError (e : CmdError) (s : State) : State := endCommand e.code s

/-- R158's `complete`, given what the command's pseudocode answered. -/
def complete (out : Except CmdError Writes) (s : State) : State :=
  match out with
  | .ok w => endCommand noError (applyWrites w s)
  | .error e => raiseError e s

/-- The completion of a reserved word: IllegalCommand, nothing else (spec/30_encoding.md R79, spec/60_exceptions.md R156). -/
def completeIllegal (s : State) : State := raiseError .illegalCommand s

/-! ### Reset -/

/-- The reset input: one transition to the values of `State.reset`, whatever the state was, abandoning a pending command
(spec/70_reset_and_hazards.md R177, R178). The queue of events, the last response and the counter are outside the block and
stay. -/
def resetBlock (s : State) : State :=
  { State.reset with port := s.port, resp := s.resp, tick := s.tick + 1 }

end Machine
end Sys2Proof
end

