-- ==== Sys2Proof/Machine/Bus.lean ====
section
/-! DEFINITION. Bus.lean: the bus slave port: the address map (spec/20_memory.md R55), what a read returns and a write does
(R56 to R64, spec/10_state.md R45), and one access (R54). -/

namespace Sys2Proof
namespace Machine

/-- What stands at an offset (spec/20_memory.md R55, spec/30_encoding.md R84). -/
inductive Target where
  | cmd
  | status
  | opa
  | opb
  | result
  | poly
  | gen
  | nsamp
  | fieldPoly
  | fieldGen
  | exp (i : Nat)
  | log (i : Nat)
  | sx (i : Nat)
  | sy (i : Nat)
  | reserved
  deriving DecidableEq, Repr

/-- The registers of R55, by offset / 4. -/
def registerAt (k : Nat) : Target :=
  match k with
  | 0 => .cmd
  | 1 => .status
  | 2 => .opa
  | 3 => .opb
  | 4 => .result
  | 5 => .poly
  | 6 => .gen
  | 7 => .nsamp
  | 8 => .fieldPoly
  | 9 => .fieldGen
  | _ => .reserved

/-- The address map of R55, for an aligned offset. -/
def targetAt (off : Offset) : Target :=
  let a := off.toNat
  if a < 0x28 then registerAt (a / 4)
  else if a < 0x400 then .reserved
  else if a < 0xC00 then .exp ((a - 0x400) / 4)
  else if a < 0x1000 then .log ((a - 0xC00) / 4)
  else if a < 0x1800 then
    if a % 8 = 0 then .sx ((a - 0x1000) / 8) else .sy ((a - 0x1000) / 8)
  else .reserved

/-- The only legal access: four bytes at an offset that is a multiple of four (R58). -/
def legalAccess (off : Offset) (n : Nat) : Bool := decide (n = 4) && decide (off.toNat % 4 = 0)

/-- A byte of a table window (R59): the stored entry, a draw where it is unspecified or a BUILD is pending
(spec/10_state.md R45). -/
def windowByte (s : State) (cell : Option Byte) : Byte :=
  if pendingBuild s then Config.draw 8 s.tick 0 else cell.getD (Config.draw 8 s.tick 0)

/-- RESULT as a read sees it: stored, or a draw while BUSY (spec/10_state.md R35, R45). -/
def resultRead (s : State) : Byte := if s.busy then Config.draw 8 s.tick 0 else s.result

/-- What a read of a target returns; none is a bus ERROR (R55 to R61). -/
def readTarget (s : State) (t : Target) : Option Word :=
  match t with
  | .cmd => some 0#32
  | .status => some (statusRead s)
  | .opa => some s.opa
  | .opb => some s.opb
  | .result => some (zext32 (resultRead s))
  | .poly => some s.poly
  | .gen => some s.gen
  | .nsamp => some s.nsamp
  | .fieldPoly => some (zext32 s.fpoly)
  | .fieldGen => some (zext32 s.fgen)
  | .exp i => some (zext32 (windowByte s (Cells.get i s.mem.exp)))
  | .log i => some (zext32 (windowByte s (Cells.get i s.mem.log)))
  | .sx i => some (readSx s i 0)
  | .sy i => some (readSy s i 0)
  | .reserved => none

/-- A write that BUSY discards (R63): while BUSY it only sets COLL, else it has the effect `stored`. -/
def unlessBusy (s stored : State) : State := if s.busy then discardWrite s else stored

/-- What a write of v to a target does; none is a bus ERROR (R55 to R63). -/
def writeTarget (s : State) (t : Target) (v : Word) : Option State :=
  match t with
  | .cmd => some (unlessBusy s (acceptCommand v s))
  | .status => some (writeStatus v s)
  | .opa => some (unlessBusy s { s with opa := v })
  | .opb => some (unlessBusy s { s with opb := v })
  | .result => some s
  | .poly => some (unlessBusy s { s with poly := v })
  | .gen => some (unlessBusy s { s with gen := v })
  | .nsamp => some (unlessBusy s { s with nsamp := v })
  | .fieldPoly => some s
  | .fieldGen => some s
  | .exp _ => none
  | .log _ => none
  | .sx i => some (unlessBusy s (writeSx i v s))
  | .sy i => some (unlessBusy s (writeSy i v s))
  | .reserved => none

/-- The end of an access: the host has its response (R54), and the model's counter moves on. -/
def respond (r : Response) (s : State) : State := { s with resp := some r, tick := s.tick + 1 }

/-- One access (R54): an illegal one, and one whose target answers ERROR, changes nothing of the block. -/
def accessBus (op : BusOp) (s : State) : State :=
  match op with
  | .read off n =>
    if legalAccess off n then
      match readTarget s (targetAt off) with
      | some v => respond (.data v) s
      | none => respond .error s
    else respond .error s
  | .write off n v =>
    if legalAccess off n then
      match writeTarget s (targetAt off) v with
      | some t => respond .okay t
      | none => respond .error s
    else respond .error s

/-- The block's event: an access, or the reset input. -/
def portEvent (e : PortEvent) (s : State) : State :=
  match e with
  | .access op => accessBus op s
  | .reset => resetBlock s

/-- The host address of an offset of the block (R53, R67). -/
def hostAddress (off : Offset) : Nat := Config.blockBase + off.toNat

/-- The offset of the block that a host address reaches, none outside its 8 KiB window (R53, R67). -/
def offsetOf (addr : Nat) : Option Offset :=
  if Config.blockBase ≤ addr ∧ addr < Config.blockBase + 0x2000 then
    some (BitVec.ofNat 13 (addr - Config.blockBase))
  else none

end Machine
end Sys2Proof
end

