-- ==== Sys2Proof/Machine/Operands.lean ====
section
/-! DEFINITION. Operands.lean: operand assembly (spec/30_encoding.md R77) and the checks every command makes of its operands
(spec/00_scope.md R14, R15; spec/60_exceptions.md R156). -/

namespace Sys2Proof
namespace Machine

/-- a of CLMUL, ADD, SUB, MUL, DIV, INV, and x of INTERP (R77). -/
def operandA (s : State) : Word := s.opa

/-- b of CLMUL, ADD, SUB, MUL, DIV (R77). -/
def operandB (s : State) : Word := s.opb

/-- The polynomial of CLMUL, ISGEN, BUILD (R77). -/
def operandPoly (s : State) : Word := s.poly

/-- The candidate or generator of ISGEN, BUILD (R77). -/
def operandGen (s : State) : Word := s.gen

/-- n of INTERP (R77). -/
def operandCount (s : State) : Nat := s.nsamp.toNat

/-- check_byte (R14): above 255 it raises OutOfRange; else the value as a byte. -/
def checkByte (v : Word) : Except CmdError Byte :=
  if v.toNat ≤ 255 then .ok (v.setWidth 8) else .error .outOfRange

/-- check_u16 (R14): above 0xFFFF it raises OutOfRange; else the value as 16 bits. -/
def checkU16 (v : Word) : Except CmdError Half :=
  if v.toNat ≤ 0xFFFF then .ok (v.setWidth 16) else .error .outOfRange

/-- require_field (R15): with FV = 0 it raises NoField. -/
def requireField (s : State) : Except CmdError Unit :=
  if s.fv then .ok () else .error .noField

end Machine
end Sys2Proof
end

