-- ==== Sys2Proof/Machine/FieldArith.lean ====
section
/-! DEFINITION. FieldArith.lean: the field-level functions fadd, fmul, fdiv, finv (spec/00_scope.md R15) and the commands ADD,
SUB, MUL, DIV, INV (spec/43_field_arithmetic.md R115 to R129). -/

namespace Sys2Proof
namespace Machine

/-- MUL's body (R121): 0 if an operand is 0, else EXP[LOG[a] + LOG[b]] without a modulo. -/
def mulBody (s : State) (a b : Byte) : Byte :=
  if a = 0#8 ∨ b = 0#8 then 0#8
  else readExp s ((readLog s a.toNat).toNat + (readLog s b.toNat).toNat)

/-- The index of DIV (R124): the difference of the logarithms, an integer, with 255 added when it is negative. -/
def divIndex (la lb : Byte) : Nat :=
  let d : Int := (la.toNat : Int) - (lb.toNat : Int)
  (if d < 0 then d + 255 else d).toNat

/-- DIV's body (R124): the divisor test comes before the dividend test. -/
def divBody (s : State) (a b : Byte) : Except CmdError Byte :=
  if b = 0#8 then .error .divisionByZero
  else if a = 0#8 then .ok 0#8
  else .ok (readExp s (divIndex (readLog s a.toNat) (readLog s b.toNat)))

/-- INV's body (R127). -/
def invBody (s : State) (a : Byte) : Except CmdError Byte :=
  if a = 0#8 then .error .noInverseForZero
  else .ok (readExp s (255 - (readLog s a.toNat).toNat))

/-- fadd (R15): the range checks of both operands, then their exclusive or (R116). -/
def fadd (a b : Word) : Except CmdError Byte := do
  let a ← checkByte a
  let b ← checkByte b
  return a ^^^ b

/-- Field subtraction (R118): the same exclusive or, with the same checks. -/
def fsub (a b : Word) : Except CmdError Byte := do
  let a ← checkByte a
  let b ← checkByte b
  return a ^^^ b

/-- fmul (R15). -/
def fmul (s : State) (a b : Word) : Except CmdError Byte := do
  let a ← checkByte a
  let b ← checkByte b
  return mulBody s a b

/-- fdiv (R15). -/
def fdiv (s : State) (a b : Word) : Except CmdError Byte := do
  let a ← checkByte a
  let b ← checkByte b
  divBody s a b

/-- finv (R15). -/
def finv (s : State) (a : Word) : Except CmdError Byte := do
  let a ← checkByte a
  invBody s a

/-- A command that needs a field and writes RESULT (R115): NoField comes before any operand is read. -/
def fieldCommand (s : State) (value : Except CmdError Byte) : Except CmdError Writes := do
  requireField s
  let v ← value
  return .result v

/-- ADD (R116). -/
def execAdd (s : State) : Host.Outcome State Fault Refusal :=
  .next (complete (fieldCommand s (fadd (operandA s) (operandB s))) s)

/-- SUB (R118). -/
def execSub (s : State) : Host.Outcome State Fault Refusal :=
  .next (complete (fieldCommand s (fsub (operandA s) (operandB s))) s)

/-- MUL (R121). -/
def execMul (s : State) : Host.Outcome State Fault Refusal :=
  .next (complete (fieldCommand s (fmul s (operandA s) (operandB s))) s)

/-- DIV (R124). -/
def execDiv (s : State) : Host.Outcome State Fault Refusal :=
  .next (complete (fieldCommand s (fdiv s (operandA s) (operandB s))) s)

/-- INV (R127): OPB is not read. -/
def execInv (s : State) : Host.Outcome State Fault Refusal :=
  .next (complete (fieldCommand s (finv s (operandA s))) s)

end Machine
end Sys2Proof
end

