-- ==== Sys2Proof/Machine/Multiplier.lean ====
section
/-! DEFINITION. Multiplier.lean: the carry-less byte multiplier and CLMUL (spec/40_multiplier.md R91 to R95). -/

namespace Sys2Proof
namespace Machine

/-- One turn of the multiplicand (R92, R93): shifted left within 8 bits, and the reduction byte XORed in if the bit shifted
out of position 7 was set. -/
def shiftReduce (r m : Byte) : Byte :=
  if m.getLsbD 7 then (m <<< 1) ^^^ r else m <<< 1

/-- The loop of R92 with `k` turns left: acc, m and q are 8-bit registers, r is the reduction byte p[7:0]. -/
def mulLoop (r : Byte) : Nat → Byte → Byte → Byte → Byte
  | 0, acc, _, _ => acc
  | k + 1, acc, m, q =>
    mulLoop r k (if q.getLsbD 0 then acc ^^^ m else acc) (shiftReduce r m) (q >>> 1)

/-- mulbytes (R92): eight turns from acc = 0, m = a, q = b. Of p only the reduction byte p[7:0] is read (R95). -/
def mulbytes (a b : Byte) (p : Half) : Byte := mulLoop (p.setWidth 8) 8 0#8 a b

/-- CLMUL's pseudocode (R91): the checks in the order a, b, p. FV is not read. -/
def runClmul (s : State) : Except CmdError Writes := do
  let a ← checkByte (operandA s)
  let b ← checkByte (operandB s)
  let p ← checkU16 (operandPoly s)
  return .result (mulbytes a b p)

/-- CLMUL (R91). -/
def execClmul (s : State) : Host.Outcome State Fault Refusal := .next (complete (runClmul s) s)

end Machine
end Sys2Proof
end

