-- ==== Sys2Proof/Machine/Generator.lean ====
section
/-! DEFINITION. Generator.lean: the generator test and ISGEN (spec/41_generator_validator.md R97, R98). -/

namespace Sys2Proof
namespace Machine

/-- A set of bytes, one bit for each of the 256 values. -/
abbrev ByteSet := BitVec 256

/-- x ∈ S. -/
def ByteSet.mem (x : Byte) (S : ByteSet) : Bool := S.getLsbD x.toNat

/-- S ∪ {x}. -/
def ByteSet.insert (x : Byte) (S : ByteSet) : ByteSet := S ||| (1#256 <<< x.toNat)

/-- The loop of R98 with `k` turns left: false as soon as a value repeats, at the end whether 0 was not visited. -/
def isgenLoop (p : Half) (c : Byte) : Nat → Byte → ByteSet → Bool
  | 0, _, seen => !ByteSet.mem 0#8 seen
  | k + 1, x, seen =>
    if ByteSet.mem x seen then false
    else isgenLoop p c k (mulbytes x c p) (ByteSet.insert x seen)

/-- isgen (R98): 255 turns from x = 1 with nothing visited. -/
def isgen (p : Half) (c : Byte) : Bool := isgenLoop p c 255 1#8 0#256

/-- ISGEN's pseudocode (R97): the polynomial is checked first, then the candidate; RESULT is 1 for true and 0 for false. -/
def runIsgen (s : State) : Except CmdError Writes := do
  let p ← checkU16 (operandPoly s)
  let c ← checkByte (operandGen s)
  return .result (if isgen p c then 1#8 else 0#8)

/-- ISGEN (R97). -/
def execIsgen (s : State) : Host.Outcome State Fault Refusal := .next (complete (runIsgen s) s)

end Machine
end Sys2Proof
end

