-- ==== Sys2Proof/Machine/Interpolator.lean ====
section
/-! DEFINITION. Interpolator.lean: Lagrange interpolation and INTERP (spec/45_interpolator.md R142 to R149). -/

namespace Sys2Proof
namespace Machine

/-- The number of INTERP's read `k` (0 to 3) in the turn (i, j): each read of a cell that nothing has written draws for
itself (R149, spec/93_implementation_defined.md I4; log entry 5). -/
def interpRead (i j k : Nat) : Nat := (i * Config.sampleDepth + j) * 4 + k

/-- One turn of the inner loop (R142), j ≠ i: the range checks and the test of the divisor come in the order of R144. -/
def interpTerm (s : State) (i j : Nat) (basis : Byte) : Except CmdError Byte := do
  let num ← fadd (operandA s) (readSx s j (interpRead i j 0))
  let den ← fadd (readSx s i (interpRead i j 1)) (readSx s j (interpRead i j 2))
  let t ← fdiv s (zext32 num) (zext32 den)
  fmul s (zext32 basis) (zext32 t)

/-- The basis value of sample i (R142): j runs through [0, n) in ascending order, less i. -/
def interpBasis (s : State) (n i : Nat) : Except CmdError Byte :=
  (List.range n).foldlM (fun basis j => if j = i then .ok basis else interpTerm s i j basis) 1#8

/-- One turn of the outer loop (R142): SY[i] is range-checked after the inner loop (R144). -/
def interpAdd (s : State) (n i : Nat) (result : Byte) : Except CmdError Byte := do
  let basis ← interpBasis s n i
  let t ← fmul s (readSy s i (interpRead i i 3)) (zext32 basis)
  fadd (zext32 result) (zext32 t)

/-- The sum over the samples (R142), i ascending. -/
def interpSum (s : State) (n : Nat) : Except CmdError Byte :=
  (List.range n).foldlM (fun result i => interpAdd s n i result) 0#8

/-- The count checks (R143), then the sum. -/
def interpValue (s : State) : Except CmdError Byte :=
  if operandCount s = 0 then .error .emptyInput
  else if Config.sampleDepth < operandCount s then .error .outOfRange
  else interpSum s (operandCount s)

/-- INTERP (R142). -/
def execInterp (s : State) : Host.Outcome State Fault Refusal :=
  .next (complete (fieldCommand s (interpValue s)) s)

end Machine
end Sys2Proof
end

