-- ==== Sys2Proof/Machine/TableBuilder.lean ====
section
/-! DEFINITION. TableBuilder.lean: the table fill and BUILD (spec/42_table_builder.md R105 to R108). -/

namespace Sys2Proof
namespace Machine

/-- The values x takes in `n` turns of R107's first loop, from x on: x, x·g, x·g·g, … -/
def powersFrom (p : Half) (g : Byte) : Nat → Byte → List Byte
  | 0, _ => []
  | n + 1, x => x :: powersFrom p g n (mulbytes x g p)

/-- The 255 values of R107's first loop. -/
def powers (p : Half) (g : Byte) : List Byte := powersFrom p g Config.groupOrder 1#8

/-- EXP after R107, for the values `xs` of the first loop: EXP[0..254] are `xs`; the second loop copies EXP[0..255] to
EXP[255..510], and EXP[255] is by then EXP[0]. EXP[511] is not written (spec/90_conflicts.md C1). -/
def fillExp (xs : List Byte) (exp : Cells Byte) : Cells Byte :=
  Cells.setRun Config.groupOrder (xs ++ xs.take 1) (Cells.setRun 0 xs exp)

/-- LOG after R107's first loop, for the values `xs` it has still to visit from turn i on: LOG[x] <- i. -/
def fillLog : List Byte → Nat → Cells Byte → Cells Byte
  | [], _, log => log
  | x :: xs, i, log => fillLog xs (i + 1) (Cells.set x.toNat (BitVec.ofNat 8 i) log)

/-- fill_tables (R107). -/
def fillTables (p : Half) (g : Byte) (exp log : Cells Byte) : Cells Byte × Cells Byte :=
  let xs := powers p g
  (fillExp xs exp, fillLog xs 0 log)

/-- BUILD's pseudocode (R105): range checks, then the generator test, and only then the tables (R108). -/
def runBuild (s : State) : Except CmdError Writes := do
  let p ← checkU16 (operandPoly s)
  let g ← checkByte (operandGen s)
  if isgen p g then
    let tables := fillTables p g s.mem.exp s.mem.log
    return .field p g tables.1 tables.2
  else
    throw .invalidGenerator

/-- BUILD (R105). -/
def execBuild (s : State) : Host.Outcome State Fault Refusal := .next (complete (runBuild s) s)

end Machine
end Sys2Proof
end

