-- ==== Sys2Proof/Machine/Dispatch.lean ====
section
/-! DEFINITION. Dispatch.lean: one arm per command, each a direct call of its meaning. -/

namespace Sys2Proof
namespace Machine

/-- The completion step of the pending command i (spec/60_exceptions.md R158). -/
def exec (i : Instr) (s : State) : Host.Outcome State Fault Refusal :=
  match i with
  | .clmul => Sys2Proof.Machine.execClmul s
  | .isgen => Sys2Proof.Machine.execIsgen s
  | .build => Sys2Proof.Machine.execBuild s
  | .add => Sys2Proof.Machine.execAdd s
  | .sub => Sys2Proof.Machine.execSub s
  | .mul => Sys2Proof.Machine.execMul s
  | .div => Sys2Proof.Machine.execDiv s
  | .inv => Sys2Proof.Machine.execInv s
  | .interp => Sys2Proof.Machine.execInterp s

end Machine
end Sys2Proof
end

