-- ==== Sys2Proof/Machine/Engine.lean ====
section
/-! DEFINITION. Engine.lean: who moves next (spec/20_memory.md R69, spec/70_reset_and_hazards.md R191), the completion step
of a pending word (spec/60_exceptions.md R158), and the placing of a command word for the next step. -/

namespace Sys2Proof
namespace Machine

/-- Completion (R158): the pending word is decoded; a command runs, a reserved word raises IllegalCommand. -/
def completePending (s : State) : Host.Outcome State Fault Refusal :=
  match decode s.pend with
  | .command i => exec i s
  | .illegal _ => .next (completeIllegal s)

/-- Whether the engine's completion is the next step: a command is pending, and no event waits or the next event comes after
the completion. With no event waiting a pending completion is taken, which is weak fairness (R191). -/
def engineTurn (s : State) : Bool :=
  s.busy &&
    match s.port with
    | [] => true
    | e :: _ => e.engineFirst

/-- The block's turn at its port: the next event; with none waiting the block is idle and holds all its state
(spec/60_exceptions.md R170). -/
def portTurn (s : State) : State :=
  match s.port with
  | [] => s
  | e :: rest => portEvent e.event { s with port := rest }

/-- The queue with its first event placed after the pending completion. -/
def afterCompletion (port : List PortEntry) : List PortEntry :=
  match port with
  | [] => []
  | e :: rest => { e with engineFirst := true } :: rest

/-- The state in which the command word w is pending and its completion is the next step. -/
def withPending (w : Word) (s : State) : State :=
  { acceptCommand w s with port := afterCompletion s.port }

end Machine
end Sys2Proof
end

