-- ==== Sys2Proof/Machine/Step.lean ====
section
/-! DEFINITION. Step.lean: one step of the machine: the engine's completion or the next event at the port, in the one total
order of spec/20_memory.md R69. -/

namespace Sys2Proof
namespace Machine

/-- One step: exactly one of the two agents moves (spec/00_scope.md R19). -/
def step (s : State) : Host.Outcome State Fault Refusal :=
  if engineTurn s then completePending s else .next (portTurn s)

/-- s with a command word, numbered as spec/opcode_table.json numbers it, accepted and its completion next: the block has no
instruction memory and runs the word latched in PEND (spec/10_state.md R25, spec/20_memory.md R73; log entry 6). -/
def State.withFetchWord (s : State) (nbits w : Nat) : State := withPending (tableWord nbits w) s

end Machine
end Sys2Proof
end

