-- ==== Sys2Proof/Machine/HostProgram.lean ====
section
/-! DEFINITION. HostProgram.lean: the host's side of the port: one access, the polling loop, and the host program notation of
spec/30_encoding.md R83 to R89. The block never sees any of it but the accesses; control lines (if, for, return, fail) are
Lean's own in HostProcedures.lean. Where a completion falls among the host's accesses, which the spec leaves open
(spec/00_scope.md R9, spec/20_memory.md R69, spec/70_reset_and_hazards.md R191), is the parameter `lat`: a claim about a host
program is stated for every `lat` (log entries 4 and 11). -/

namespace Sys2Proof
namespace Machine

/-- The state after one step; the machine never stops (State.lean, Fault). -/
def stepNext (s : State) : State :=
  match step s with
  | .next t => t
  | .fault _ => s
  | .refused _ => s

/-- Steps until no event waits at the port; an event takes at most a completion and itself. -/
def drainPort : Nat → State → State
  | 0, s => s
  | k + 1, s => if s.port.isEmpty then s else drainPort k (stepNext s)

/-- The block as a running host meets it: the block's state, and how many of the host's accesses still come before the
completion of the pending command (LAT(op), spec/93_implementation_defined.md I20). `wait` means nothing while nothing is
pending. -/
structure HostRun where
  block : State
  wait  : Nat
  deriving DecidableEq, Repr

/-- One host access, from its arrival at the port to its response. The pending completion comes before it exactly if `wait` is
0. A command accepted at it waits for the number of accesses that `lat` gives at that moment, zero or more. Every access of
every line and procedure is this one, so two programs with the same accesses in the same order are the same program (R89). -/
def hostAccess (lat : Nat → Nat) (op : BusOp) (h : HostRun) : HostRun :=
  let first := decide (h.wait = 0)
  let queued := h.block.port ++ [{ event := .access op, engineFirst := first }]
  let s := drainPort (2 * queued.length) { h.block with port := queued }
  { block := s, wait := if s.busy && (first || !h.block.busy) then lat s.tick else h.wait - 1 }

/-- The offset a target's name stands for (R84); `reserved` names no offset and stands for the first reserved one. -/
def Target.offset (t : Target) : Offset :=
  match t with
  | .cmd => 0x000#13
  | .status => 0x004#13
  | .opa => 0x008#13
  | .opb => 0x00C#13
  | .result => 0x010#13
  | .poly => 0x014#13
  | .gen => 0x018#13
  | .nsamp => 0x01C#13
  | .fieldPoly => 0x020#13
  | .fieldGen => 0x024#13
  | .exp i => BitVec.ofNat 13 (0x400 + 4 * i)
  | .log i => BitVec.ofNat 13 (0xC00 + 4 * i)
  | .sx i => BitVec.ofNat 13 (0x1000 + 8 * i)
  | .sy i => BitVec.ofNat 13 (0x1004 + 8 * i)
  | .reserved => 0x028#13

/-- A target's index is within its array (R84). -/
def Target.wf (t : Target) : Bool :=
  match t with
  | .exp i => decide (i < Config.expDepth)
  | .log i => decide (i < Config.logDepth)
  | .sx i => decide (i < Config.sampleDepth)
  | .sy i => decide (i < Config.sampleDepth)
  | .reserved => false
  | .cmd => true
  | .status => true
  | .opa => true
  | .opb => true
  | .result => true
  | .poly => true
  | .gen => true
  | .nsamp => true
  | .fieldPoly => true
  | .fieldGen => true

/-- A write of a named target (R83, WR). -/
def hostWrite (lat : Nat → Nat) (t : Target) (v : Word) (h : HostRun) : HostRun :=
  hostAccess lat (.write t.offset 4 v) h

/-- The data of the last access's response, none for ERROR and for a write. -/
def responseData (s : State) : Option Word :=
  match s.resp with
  | some (.data v) => some v
  | some .okay => none
  | some .error => none
  | none => none

/-- A read of a named target (R83, RD) and its response. -/
def hostRead (lat : Nat → Nat) (t : Target) (h : HostRun) : Option Word × HostRun :=
  let h' := hostAccess lat (.read t.offset 4) h
  (responseData h'.block, h')

/-- The polling loop of R86, `k` more reads allowed to find BUSY = 1. It answers the final read. -/
def pollLoop (lat : Nat → Nat) : Nat → HostRun → Word × HostRun
  | 0, h =>
    let (d, h') := hostRead lat .status h
    (d.getD 0#32, h')
  | k + 1, h =>
    let (d, h') := hostRead lat .status h
    if (d.getD 0#32).getLsbD 0 then pollLoop lat k h' else (d.getD 0#32, h')

/-- The loop of R86: it ends after at most `wait` reads with BUSY = 1, since the completion then comes before the next one
(Laws.HostSide.pollStatus_ends). -/
def pollStatus (lat : Nat → Nat) (h : HostRun) : Word × HostRun := pollLoop lat h.wait h

/-- err = s[11:8] of a read of STATUS (R86). -/
def errOfStatus (w : Word) : BitVec 4 := w.extractLsb' 8 4

/-- EXEC (R86): the command word, then the polling loop; it answers err. -/
def hostExec (lat : Nat → Nat) (w : Word) (h : HostRun) : BitVec 4 × HostRun :=
  let (d, h') := pollStatus lat (hostWrite lat .cmd w h)
  (errOfStatus d, h')

/-! ### The notation -/

/-- A host variable, numbered. -/
abbrev HostVar := Nat

/-- s of EXEC's expansion (R86): a host variable like any other, which a later line can use and RD can bind (log entry 18). -/
def HostVar.s : HostVar := 0

/-- err, the host variable that EXEC leaves (R86); a program's own variables are numbered from 2 (log entry 18). -/
def HostVar.err : HostVar := 1

/-- A value of a line: a literal or a host variable (R84), or as the value of a CMD write a mnemonic standing for its command
word (R85). -/
inductive HostValue where
  | lit (v : Word)
  | var (x : HostVar)
  | mnemonic (i : Instr)
  deriving DecidableEq, Repr

/-- A target of a line (R84): a name, or a raw offset. -/
inductive HostTarget where
  | named (t : Target)
  | raw (off : Offset)
  deriving DecidableEq, Repr

/-- The lines that touch the block (R83) and the pseudo-instructions (R86 to R88). -/
inductive HostLine where
  | wr (t : HostTarget) (v : HostValue)
  | rd (t : HostTarget) (x : HostVar)
  | exec (i : Instr)
  | binary (i : Instr) (a b : HostValue) (r : HostVar)
  | inv (a : HostValue) (r : HostVar)
  | isgen (p g : HostValue) (r : HostVar)
  | setField (p g : HostValue)
  | samples (points : List (HostValue × HostValue))
  | interp (x : HostValue) (r : HostVar)
  deriving DecidableEq, Repr

/-- A pseudo-instruction's expansion: WR, RD and the polling loop. -/
inductive CoreLine where
  | wr (off : Offset) (v : HostValue)
  | rd (off : Offset) (x : HostVar)
  | poll
  deriving DecidableEq, Repr

/-- The offset of a line's target. -/
def HostTarget.offset (t : HostTarget) : Offset :=
  match t with
  | .named t => t.offset
  | .raw off => off

/-- EXEC's expansion (R86). -/
def expandExec (i : Instr) : List CoreLine := [.wr Target.cmd.offset (.mnemonic i), .poll]

/-- SAMPLES's writes of the points from index k on (R88). -/
def expandPoints : Nat → List (HostValue × HostValue) → List CoreLine
  | _, [] => []
  | k, (x, y) :: ps => .wr (Target.sx k).offset x :: .wr (Target.sy k).offset y :: expandPoints (k + 1) ps

/-- The expansions of R86 to R88. -/
def HostLine.expand (l : HostLine) : List CoreLine :=
  match l with
  | .wr t v => [.wr t.offset v]
  | .rd t x => [.rd t.offset x]
  | .exec i => expandExec i
  | .binary i a b r =>
    [.wr Target.opa.offset a, .wr Target.opb.offset b] ++ expandExec i ++ [.rd Target.result.offset r]
  | .inv a r => [.wr Target.opa.offset a] ++ expandExec .inv ++ [.rd Target.result.offset r]
  | .isgen p g r =>
    [.wr Target.poly.offset p, .wr Target.gen.offset g] ++ expandExec .isgen ++ [.rd Target.result.offset r]
  | .setField p g => [.wr Target.poly.offset p, .wr Target.gen.offset g] ++ expandExec .build
  | .samples ps =>
    expandPoints 0 ps ++ [.wr Target.nsamp.offset (.lit (BitVec.ofNat 32 ps.length))]
  | .interp x r => [.wr Target.opa.offset x] ++ expandExec .interp ++ [.rd Target.result.offset r]

/-- A line's target is in range. -/
def HostTarget.wf (t : HostTarget) : Bool :=
  match t with
  | .named t => t.wf
  | .raw _ => true

/-- A value that any line can use: no mnemonic (R84). -/
def HostValue.isOperand (v : HostValue) : Bool :=
  match v with
  | .lit _ => true
  | .var _ => true
  | .mnemonic _ => false

/-- A line is well formed: its target is in range (R84), a mnemonic is the value of a CMD write only (R85; log entry 18), a
two-operand pseudo-instruction names one of the five commands of R87, and SAMPLES lists between one and SAMPLE_DEPTH points
(R88). -/
def HostLine.wf (l : HostLine) : Bool :=
  match l with
  | .wr t v => t.wf && (v.isOperand || decide (t.offset = Target.cmd.offset))
  | .rd t _ => t.wf
  | .binary i a b _ =>
    decide (i = .clmul ∨ i = .add ∨ i = .sub ∨ i = .mul ∨ i = .div) && a.isOperand && b.isOperand
  | .samples ps =>
    decide (1 ≤ ps.length ∧ ps.length ≤ Config.sampleDepth) && ps.all fun p => p.1.isOperand && p.2.isOperand
  | .exec _ => true
  | .inv a _ => a.isOperand
  | .isgen p g _ => p.isOperand && g.isOperand
  | .setField p g => p.isOperand && g.isOperand
  | .interp x _ => x.isOperand

/-- The host's own data: its variables, s and err among them, and whether the last access got ERROR. -/
structure HostEnv where
  vars     : Cells Word
  busError : Bool
  deriving DecidableEq, Repr

/-- err of the last EXEC (R86), none before the first. -/
def HostEnv.err (env : HostEnv) : Option Word := Cells.get HostVar.err env.vars

/-- What EXEC leaves in the variables (R86): s is the final read of STATUS and err its bits 11:8. -/
def bindStatus (d : Word) (vars : Cells Word) : Cells Word :=
  Cells.set HostVar.err (zext32 (errOfStatus d)) (Cells.set HostVar.s d vars)

/-- A value in the host's data, none for a variable that no line has bound. A mnemonic is its command word, also in a line that
is not well formed (log entry 18). -/
def HostEnv.value (env : HostEnv) (v : HostValue) : Option Word :=
  match v with
  | .lit w => some w
  | .var x => Cells.get x env.vars
  | .mnemonic i => some (encode i)

/-- Whether the last access got ERROR. -/
def gotError (s : State) : Bool := decide (s.resp = some .error)

/-- One line of an expansion; none where it uses an unbound variable (log entry 11). A read that gets ERROR binds nothing
(spec/20_memory.md R54). -/
def CoreLine.run (lat : Nat → Nat) (l : CoreLine) (env : HostEnv) (h : HostRun) : Option (HostEnv × HostRun) :=
  match l with
  | .wr off v =>
    match env.value v with
    | some w =>
      let h' := hostAccess lat (.write off 4 w) h
      some ({ env with busError := gotError h'.block }, h')
    | none => none
  | .rd off x =>
    let h' := hostAccess lat (.read off 4) h
    match responseData h'.block with
    | some d => some ({ env with vars := Cells.set x d env.vars, busError := false }, h')
    | none => some ({ env with busError := true }, h')
  | .poll =>
    let (d, h') := pollStatus lat h
    some ({ env with vars := bindStatus d env.vars, busError := false }, h')

/-- The lines of an expansion, one after the other. -/
def runCore (lat : Nat → Nat) : List CoreLine → HostEnv → HostRun → Option (HostEnv × HostRun)
  | [], env, h => some (env, h)
  | l :: ls, env, h =>
    match l.run lat env h with
    | some (env', h') => runCore lat ls env' h'
    | none => none

/-- A host program without control lines: its lines' expansions in order (R83, R89). -/
def runProgram (lat : Nat → Nat) (ls : List HostLine) (env : HostEnv) (h : HostRun) : Option (HostEnv × HostRun) :=
  runCore lat (ls.flatMap HostLine.expand) env h

end Machine
end Sys2Proof
end

