-- ==== Sys2Proof/Machine/HostProcedures.lean ====
section
/-! DEFINITION. HostProcedures.lean: the host procedures over the block's commands: findAllGenerators
(spec/41_generator_validator.md R102), evaluate, addPolynomials, mulPolynomials (spec/44_polynomial_host.md R135 to R138) and
makePolynomial (spec/46_random_polynomial_host.md R151). A polynomial is a list of host values, index 0 the constant term;
a host value is a 32-bit word, as an access carries it (log entry 17). -/

namespace Sys2Proof
namespace Machine

/-- How a host procedure fails: a host error (spec/44_polynomial_host.md R140, spec/46_random_polynomial_host.md R154), or
the error of a block command, by its code. -/
inductive HostError where
  | emptyPolynomial
  | invalidEvaluationPoint
  | negativeDegree
  | block (code : BitVec 4)
  deriving DecidableEq, Repr

/-- A two-operand pseudo-instruction of R87 inside a procedure, and the `if err != 0: fail` behind it: RESULT is read before
err is looked at, and is the value where err is 0. -/
def hostBinary (lat : Nat → Nat) (i : Instr) (a b : Word) (h : HostRun) : Except HostError Word × HostRun :=
  let (err, h1) := hostExec lat (encode i) (hostWrite lat .opb b (hostWrite lat .opa a h))
  let (r, h2) := hostRead lat .result h1
  (if err = 0#4 then .ok (r.getD 0#32) else .error (.block err), h2)

/-- findAllGenerators's loop over candidates (R102): here err is looked at before RESULT is read, and any err but 0 fails with
OutOfRange, as the line is written; that the error is another command's, where the procedure begins while one is pending, is
a start that R102 leaves aside (log entry 19). -/
def generatorLoop (lat : Nat → Nat) : List Nat → List Word → HostRun → Except HostError (List Word) × HostRun
  | [], out, h => (.ok out, h)
  | c :: cs, out, h =>
    let (err, h1) := hostExec lat (encode .isgen) (hostWrite lat .gen (BitVec.ofNat 32 c) h)
    if err = 0#4 then
      let (r, h2) := hostRead lat .result h1
      generatorLoop lat cs (if r.getD 0#32 = 1#32 then out ++ [BitVec.ofNat 32 c] else out) h2
    else (.error (.block CmdError.outOfRange.code), h1)

/-- findAllGenerators (R102): the candidates 2 to 254, as the source states (R103). -/
def findAllGenerators (lat : Nat → Nat) (p : Word) (h : HostRun) : Except HostError (List Word) × HostRun :=
  generatorLoop lat (List.range' 2 253) [] (hostWrite lat .poly p h)

/-- Horner's loop of evaluate (R135): the coefficients still to add, from the highest degree down. -/
def hornerLoop (lat : Nat → Nat) (x : Word) : List Word → Word → HostRun → Except HostError Word × HostRun
  | [], acc, h => (.ok acc, h)
  | c :: cs, acc, h =>
    match hostBinary lat .mul acc x h with
    | (.error e, h1) => (.error e, h1)
    | (.ok t, h1) =>
      match hostBinary lat .add t c h1 with
      | (.error e, h2) => (.error e, h2)
      | (.ok acc', h2) => hornerLoop lat x cs acc' h2

/-- evaluate (R135): the emptiness check, the check of x, then Horner's method; with one coefficient no command runs and
nothing is checked (R136). -/
def evaluate (lat : Nat → Nat) (c : List Word) (x : Word) (h : HostRun) : Except HostError Word × HostRun :=
  match c.reverse with
  | [] => (.error .emptyPolynomial, h)
  | top :: rest =>
    if x = 0#32 then (.error .invalidEvaluationPoint, h) else hornerLoop lat x rest top h

/-- addPolynomials's loop (R137). -/
def addLoop (lat : Nat → Nat) : List (Word × Word) → List Word → HostRun → Except HostError (List Word) × HostRun
  | [], r, h => (.ok r, h)
  | (a, b) :: ps, r, h =>
    match hostBinary lat .add a b h with
    | (.error e, h1) => (.error e, h1)
    | (.ok v, h1) => addLoop lat ps (r ++ [v]) h1

/-- addPolynomials (R137): ascending k, missing terms 0, the result not trimmed. -/
def addPolynomials (lat : Nat → Nat) (a b : List Word) (h : HostRun) : Except HostError (List Word) × HostRun :=
  addLoop lat ((List.range (max a.length b.length)).map fun k => (a.getD k 0#32, b.getD k 0#32)) [] h

/-- mulPolynomials's loop over the coefficient pairs (R138). -/
def mulPolyLoop (lat : Nat → Nat) (a b : List Word) :
    List (Nat × Nat) → List Word → HostRun → Except HostError (List Word) × HostRun
  | [], r, h => (.ok r, h)
  | (i, j) :: ps, r, h =>
    match hostBinary lat .mul (a.getD i 0#32) (b.getD j 0#32) h with
    | (.error e, h1) => (.error e, h1)
    | (.ok t, h1) =>
      match hostBinary lat .add (r.getD (i + j) 0#32) t h1 with
      | (.error e, h2) => (.error e, h2)
      | (.ok v, h2) => mulPolyLoop lat a b ps (r.set (i + j) v) h2

/-- mulPolynomials (R138): i outer, j inner, both ascending; the result not trimmed. -/
def mulPolynomials (lat : Nat → Nat) (a b : List Word) (h : HostRun) : Except HostError (List Word) × HostRun :=
  if a.isEmpty || b.isEmpty then (.ok [], h)
  else
    mulPolyLoop lat a b
      ((List.range a.length).flatMap fun i => (List.range b.length).map fun j => (i, j))
      (List.replicate (a.length + b.length - 1) 0#32) h

/-- The random source's answer to call `call` for n bytes (spec/46_random_polynomial_host.md R152): any bytes. -/
def randomBytes (call n : Nat) : List Byte := (List.range n).map fun k => Config.randomByte call k

/-- makePolynomial (R151): the degree check, the intercept check, then the drawn coefficients; no block command runs. Neither
argument goes to the block: degree is any integer and intercept any natural number (log entry 17). -/
def makePolynomial (call intercept : Nat) (degree : Int) : Except HostError (List Word) :=
  if degree < 0 then .error .negativeDegree
  else if 255 < intercept then .error (.block CmdError.outOfRange.code)
  else .ok (BitVec.ofNat 32 intercept :: (randomBytes call degree.toNat).map zext32)

end Machine
end Sys2Proof
end

