-- ==== Sys2Proof/Safety.lean ====
section
/-! DEFINITION. Safety.lean: the terms the statements use: powers, polynomials, the field context's invariant, and what a
command computes of given bytes. -/

namespace Sys2Proof
namespace Machine

/-- The k-th power of g under mulbytes with p, g^0 = 1 (spec/42_table_builder.md R109). -/
def fieldPow (p : Half) (g : Byte) : Nat → Byte
  | 0 => 1#8
  | k + 1 => mulbytes (fieldPow p g k) g p

/-- The field context is the one a successful BUILD of (FIELD_POLY, FIELD_GEN) commits (spec/42_table_builder.md R106): the
pair passes the generator test and the tables are its fill. -/
def FieldBuilt (s : State) : Prop :=
  isgen s.fpoly s.fgen = true ∧ fillTables s.fpoly s.fgen [] [] = (s.mem.exp, s.mem.log)

/-- The invariant of the machine. -/
structure Inv (s : State) : Prop where
  /-- The arrays are in canonical form. -/
  memory : Memory.wf s.mem = true
  /-- ERR is one of the codes of spec/60_exceptions.md R155. -/
  code : s.err.toNat ≤ 7
  /-- Until the first successful BUILD no table cell is specified (spec/10_state.md R41, R42). -/
  empty : s.fv = false → s.mem.exp = [] ∧ s.mem.log = []
  /-- With FV = 1 the field context is a built one (R29). -/
  field : s.fv = true → FieldBuilt s

/-- A polynomial's value by Horner's method with MUL's multiplication, coefficients from the constant term up
(spec/44_polynomial_host.md R135, R139). -/
def polyEval (p : Half) (x : Byte) : List Byte → Byte
  | [] => 0#8
  | c :: cs => c ^^^ mulbytes (polyEval p x cs) x p

/-- What command i gives for the operands a and b in the field context of s: RESULT if it completes with ERR = 0. -/
def commandValue (i : Instr) (s : State) (a b : Byte) : Option Byte :=
  match exec i { s with opa := zext32 a, opb := zext32 b } with
  | .next t => if t.err = 0#4 then some t.result else none
  | .fault _ => none
  | .refused _ => none

/-- The next step is the host access op, and rest is what waits behind it: the access is first at the port and no pending
completion comes before it (spec/20_memory.md R69). -/
def HostNext (s : State) (op : BusOp) (rest : List PortEntry) : Prop :=
  ∃ engineFirst : Bool, s.port = { event := .access op, engineFirst := engineFirst } :: rest ∧
    (s.busy = false ∨ engineFirst = false)

/-- The first n samples are written, with byte coordinates. -/
def SamplesInRange (s : State) (n : Nat) : Prop :=
  ∀ i, i < n → (∃ x : Byte, Cells.get i s.mem.sx = some (zext32 x)) ∧ ∃ y : Byte, Cells.get i s.mem.sy = some (zext32 y)

/-- The first n samples have pairwise distinct x-coordinates. -/
def SamplesDistinct (s : State) (n : Nat) : Prop :=
  ∀ i j, i < j → j < n → Cells.get i s.mem.sx ≠ Cells.get j s.mem.sx

/-- The turn (i, j) of INTERP, x in range, raises nothing: both x-coordinates are written bytes, and different
(spec/45_interpolator.md R144). -/
def TurnPasses (s : State) (i j : Nat) : Prop :=
  ∃ xi xj : Byte, xi ≠ xj ∧ Cells.get i s.mem.sx = some (zext32 xi) ∧ Cells.get j s.mem.sx = some (zext32 xj)

/-- INTERP, x in range, comes to the turn (i, j), or with j = n to the end of the inner loop of i: every turn before it in the
order of spec/45_interpolator.md R144 raises nothing, and the y of every sample before i is a written byte. -/
def TurnReached (s : State) (i j : Nat) : Prop :=
  (∀ i' j', (i' < i ∧ j' < s.nsamp.toNat) ∨ (i' = i ∧ j' < j) → j' ≠ i' → TurnPasses s i' j') ∧
    ∀ i', i' < i → ∃ y : Byte, Cells.get i' s.mem.sy = some (zext32 y)

end Machine
end Sys2Proof
end

