-- ==== Sys2Proof/Certificates/Slice0/Obligations.lean ====
section
/-! DEFINITION. Obligations.lean: the statements for the provers. Each docstring names the rule of spec/ it formalises. In every
statement `tick` is the model's own counter (log entry 3), and `port` and `resp` are the bus port (log entry 2). -/

open Sys2Proof Sys2Proof.Machine

/-! ### Reset, the step, the invariant -/

/-- spec/10_state.md R47: the values of reset; PEND, which R47 leaves unspecified, is not among them. -/
def Obligations.ResetHoldsTheSpecValues : Prop :=
  State.reset.busy = false ∧ State.reset.fv = false ∧ State.reset.coll = false ∧ State.reset.err = 0#4 ∧
  State.reset.opa = 0#32 ∧ State.reset.opb = 0#32 ∧ State.reset.result = 0#8 ∧
  State.reset.poly = 0x11B#32 ∧ State.reset.gen = 0x03#32 ∧ State.reset.nsamp = 0#32 ∧
  State.reset.fpoly = 0#16 ∧ State.reset.fgen = 0#8 ∧
  ∀ i, Cells.get i State.reset.mem.exp = none ∧ Cells.get i State.reset.mem.log = none ∧
    Cells.get i State.reset.mem.sx = none ∧ Cells.get i State.reset.mem.sy = none

/-- spec/70_reset_and_hazards.md R177, R178: the reset input, whatever the state was and with a command pending or not. -/
def Obligations.ResetInputRestoresEverything : Prop :=
  ∀ (s : State) (engineFirst : Bool) (rest : List PortEntry),
    s.port = { event := .reset, engineFirst := engineFirst } :: rest → (s.busy = false ∨ engineFirst = false) →
    ∃ t, step s = .next t ∧ t.busy = false ∧ t.fv = false ∧ t.coll = false ∧ t.err = 0#4 ∧
      t.opa = 0#32 ∧ t.opb = 0#32 ∧ t.result = 0#8 ∧ t.poly = 0x11B#32 ∧ t.gen = 0x03#32 ∧ t.nsamp = 0#32 ∧
      t.fpoly = 0#16 ∧ t.fgen = 0#8 ∧
      ∀ i, Cells.get i t.mem.exp = none ∧ Cells.get i t.mem.log = none ∧
        Cells.get i t.mem.sx = none ∧ Cells.get i t.mem.sy = none

/-- The invariant holds at reset. -/
def Obligations.ResetSatisfiesTheInvariant : Prop := Inv State.reset

/-- Every step keeps the invariant: the arrays' canonical form, ERR among the codes of R155, no specified table cell before the
first successful BUILD, and with FV = 1 a pair that passes the generator test with exactly its tables
(spec/10_state.md R29, R41, R42; spec/42_table_builder.md R106, R109; spec/60_exceptions.md R155). -/
def Obligations.StepKeepsTheInvariant : Prop :=
  ∀ s t : State, Inv s → step s = .next t → Inv t

/-- A step runs the decoded command: with a command pending and its completion next, the step is exec of it; a word that
withFetchWord places is such a command. -/
def Obligations.StepRunsThePendingCommand : Prop :=
  (∀ (i : Instr) (s : State), s.busy = true → decode s.pend = .command i →
    (s.port = [] ∨ ∃ event rest, s.port = { event := event, engineFirst := true } :: rest) → step s = exec i s) ∧
  (∀ (i : Instr) (s : State), step (s.withFetchWord 32 (encode i).toNat) = exec i (s.withFetchWord 32 (encode i).toNat))

/-- Between acceptance and completion nothing a command reads changes (spec/10_state.md R44, spec/20_memory.md R63): a step
after which a command is still pending changes COLL and the port only. -/
def Obligations.OperandsStayWhileBusy : Prop :=
  ∀ s t : State, s.busy = true → step s = .next t → t.busy = true →
    t = { s with coll := t.coll, port := t.port, resp := t.resp, tick := t.tick }

/-- Weak fairness (spec/00_scope.md R20, spec/70_reset_and_hazards.md R191): a pending command whose run meets no reset input
completes, after at most as many steps as events wait at the port. -/
def Obligations.PendingCommandCompletes : Prop :=
  ∀ s : State, s.busy = true → (∀ e ∈ s.port, e.event ≠ .reset) →
    ∃ k t u, k ≤ s.port.length ∧ Host.Core.run Sys2Proof.core k s = .next t ∧ t.busy = true ∧ t.pend = s.pend ∧
      engineTurn t = true ∧ step t = .next u ∧ u.busy = false

/-! ### Encoding -/

/-- spec/30_encoding.md R81: the nine words, and every other word is Illegal. -/
def Obligations.ExactlyNineWordsDecode : Prop :=
  ∀ w : Word,
    (decode w = .command .clmul ↔ w = 0x00000001#32) ∧ (decode w = .command .isgen ↔ w = 0x00000002#32) ∧
    (decode w = .command .build ↔ w = 0x00000003#32) ∧ (decode w = .command .add ↔ w = 0x00000004#32) ∧
    (decode w = .command .sub ↔ w = 0x00000005#32) ∧ (decode w = .command .mul ↔ w = 0x00000006#32) ∧
    (decode w = .command .div ↔ w = 0x00000007#32) ∧ (decode w = .command .inv ↔ w = 0x00000008#32) ∧
    (decode w = .command .interp ↔ w = 0x00000009#32) ∧
    ((∃ why, decode w = .illegal why) ↔ w.toNat = 0 ∨ 9 < w.toNat)

/-- Decode and encode agree: a word decodes to a command exactly if it is that command's encoding. -/
def Obligations.DecodeAndEncodeAgree : Prop :=
  ∀ (w : Word) (i : Instr), decode w = .command i ↔ i.wf = true ∧ encode i = w

/-- Words written out from spec/30_encoding.md R78 decode to their commands, reserved ones of spec/95_test_vectors.md §2.8 to
none. -/
def Obligations.TableWordsDecode : Prop :=
  decodeTableWord 32 0x1 = some .clmul ∧ decodeTableWord 32 0x2 = some .isgen ∧ decodeTableWord 32 0x3 = some .build ∧
  decodeTableWord 32 0x4 = some .add ∧ decodeTableWord 32 0x5 = some .sub ∧ decodeTableWord 32 0x6 = some .mul ∧
  decodeTableWord 32 0x7 = some .div ∧ decodeTableWord 32 0x8 = some .inv ∧ decodeTableWord 32 0x9 = some .interp ∧
  decodeTableWord 32 0x0 = none ∧ decodeTableWord 32 0xA = none ∧ decodeTableWord 32 0xF = none ∧
  decodeTableWord 32 0x16 = none ∧ decodeTableWord 32 0x80000006 = none

/-- spec/30_encoding.md R79: a word with OP 0x0 or 0xA to 0xF, or with RSV ≠ 0, is accepted like any command and completes with
IllegalCommand, changing nothing else. -/
def Obligations.ReservedWordsCompleteIllegal : Prop :=
  ∀ w : Word, (w.toNat / 16 ≠ 0 ∨ w.toNat % 16 = 0 ∨ 0xA ≤ w.toNat % 16) →
    (∀ (s : State) (rest : List PortEntry), s.busy = false → HostNext s (.write 0x000#13 4 w) rest →
      step s = .next { s with pend := w, busy := true, port := rest, resp := some .okay, tick := s.tick + 1 }) ∧
    (∀ s : State, engineTurn s = true → s.pend = w →
      step s = .next { s with err := 7#4, busy := false, tick := s.tick + 1 })

/-! ### The bus -/

/-- spec/10_state.md R27: a CMD write is accepted, or while BUSY discarded with COLL set; a CMD read returns 0. -/
def Obligations.CommandWriteAcceptedOrDiscarded : Prop :=
  ∀ (s : State) (rest : List PortEntry),
    (∀ w : Word, HostNext s (.write 0x000#13 4 w) rest → s.busy = false →
      step s = .next { s with pend := w, busy := true, port := rest, resp := some .okay, tick := s.tick + 1 }) ∧
    (∀ w : Word, HostNext s (.write 0x000#13 4 w) rest → s.busy = true →
      step s = .next { s with coll := true, port := rest, resp := some .okay, tick := s.tick + 1 }) ∧
    (HostNext s (.read 0x000#13 4) rest →
      step s = .next { s with port := rest, resp := some (.data 0#32), tick := s.tick + 1 })

/-- spec/10_state.md R28: BUSY is set by acceptance only and cleared by completion only (and by the reset input, R177); its
reset value is 0, and a STATUS write leaves it. -/
def Obligations.BusyIsSetByAcceptanceClearedByCompletion : Prop :=
  State.reset.busy = false ∧
  (∀ s t : State, step s = .next t → s.busy = false → t.busy = true →
    ∃ w rest, HostNext s (.write 0x000#13 4 w) rest) ∧
  (∀ s t : State, step s = .next t → s.busy = true → t.busy = false →
    engineTurn s = true ∨ ∃ engineFirst rest, s.port = { event := .reset, engineFirst := engineFirst } :: rest) ∧
  (∀ (s : State) (w : Word) (rest : List PortEntry), s.busy = false → HostNext s (.write 0x000#13 4 w) rest →
    ∃ t, step s = .next t ∧ t.busy = true) ∧
  (∀ s : State, engineTurn s = true → ∃ t, step s = .next t ∧ t.busy = false) ∧
  (∀ (s : State) (v : Word) (rest : List PortEntry), HostNext s (.write 0x004#13 4 v) rest →
    ∃ t, step s = .next t ∧ t.busy = s.busy)

/-- spec/10_state.md R30, spec/20_memory.md R63: COLL is 0 at reset; a write of CMD, a storage register or a sample cell while
BUSY is discarded and sets it, and only such a write does; a STATUS write with bit 2 set clears it, BUSY or not; no command
reads or writes it; while BUSY a write to a read-only register, a reserved or a window offset does not touch it. -/
def Obligations.CollisionFlagFollowsDiscardedWrites : Prop :=
  State.reset.coll = false ∧
  (∀ (s : State) (off : Offset) (v : Word) (rest : List PortEntry), s.busy = true → HostNext s (.write off 4 v) rest →
    (off ∈ [0x000#13, 0x008#13, 0x00C#13, 0x014#13, 0x018#13, 0x01C#13] ∨
      (0x1000 ≤ off.toNat ∧ off.toNat < 0x1800 ∧ off.toNat % 4 = 0)) →
    step s = .next { s with coll := true, port := rest, resp := some .okay, tick := s.tick + 1 }) ∧
  (∀ (s : State) (v : Word) (rest : List PortEntry), HostNext s (.write 0x004#13 4 v) rest →
    step s = .next { s with coll := s.coll && !v.getLsbD 2, port := rest, resp := some .okay, tick := s.tick + 1 }) ∧
  (∀ s t : State, step s = .next t → s.coll = false → t.coll = true →
    s.busy = true ∧ ∃ off v rest, HostNext s (.write off 4 v) rest) ∧
  (∀ (i : Instr) (s : State) (c : Bool), ∃ t, exec i s = .next t ∧ t.coll = s.coll ∧
    exec i { s with coll := c } = .next { t with coll := c }) ∧
  (∀ (s : State) (off : Offset) (v : Word) (rest : List PortEntry), HostNext s (.write off 4 v) rest →
    (off ∈ [0x010#13, 0x020#13, 0x024#13] ∨ (0x028 ≤ off.toNat ∧ off.toNat < 0x1000) ∨ 0x1800 ≤ off.toNat) →
    ∃ r, step s = .next { s with port := rest, resp := some r, tick := s.tick + 1 })

/-- spec/20_memory.md R57: a reserved offset, read or written, BUSY or not. -/
def Obligations.ReservedOffsetsGetError : Prop :=
  ∀ (s : State) (op : BusOp) (off : Offset) (n : Nat) (rest : List PortEntry),
    (op = .read off n ∨ ∃ v, op = .write off n v) →
    ((0x0028 ≤ off.toNat ∧ off.toNat ≤ 0x03FF) ∨ (0x1800 ≤ off.toNat ∧ off.toNat ≤ 0x1FFF)) → HostNext s op rest →
    step s = .next { s with port := rest, resp := some .error, tick := s.tick + 1 }

/-- spec/20_memory.md R58: only an aligned access of four bytes is legal. -/
def Obligations.IllegalWidthOrAlignmentGetsError : Prop :=
  ∀ (s : State) (op : BusOp) (off : Offset) (n : Nat) (rest : List PortEntry),
    (op = .read off n ∨ ∃ v, op = .write off n v) → (n ≠ 4 ∨ off.toNat % 4 ≠ 0) → HostNext s op rest →
    step s = .next { s with port := rest, resp := some .error, tick := s.tick + 1 }

/-- spec/20_memory.md R59: the table windows. A specified entry reads as itself, zero-extended, unless a BUILD is pending; every
other read gives some byte; a write gets ERROR and changes nothing. -/
def Obligations.TableWindowsReadOnly : Prop :=
  ∀ (s : State) (rest : List PortEntry),
    (∀ i, i < 512 → HostNext s (.read (BitVec.ofNat 13 (0x0400 + 4 * i)) 4) rest →
      ∃ d : Byte, step s = .next { s with port := rest, resp := some (.data (zext32 d)), tick := s.tick + 1 } ∧
        (¬ (s.busy = true ∧ decode s.pend = .command .build) → ∀ v, Cells.get i s.mem.exp = some v → d = v)) ∧
    (∀ i, i < 256 → HostNext s (.read (BitVec.ofNat 13 (0x0C00 + 4 * i)) 4) rest →
      ∃ d : Byte, step s = .next { s with port := rest, resp := some (.data (zext32 d)), tick := s.tick + 1 } ∧
        (¬ (s.busy = true ∧ decode s.pend = .command .build) → ∀ v, Cells.get i s.mem.log = some v → d = v)) ∧
    (∀ (off : Offset) (v : Word), 0x0400 ≤ off.toNat → off.toNat < 0x1000 → HostNext s (.write off 4 v) rest →
      step s = .next { s with port := rest, resp := some .error, tick := s.tick + 1 })

/-- spec/20_memory.md R60: the sample memory. -/
def Obligations.SampleMemoryReadsAndWrites : Prop :=
  ∀ (s : State) (rest : List PortEntry) (i : Nat), i < 256 →
    (∀ v : Word, s.busy = false → HostNext s (.write (BitVec.ofNat 13 (0x1000 + 8 * i)) 4 v) rest →
      ∃ sx, step s = .next { s with mem := { s.mem with sx := sx }, port := rest, resp := some .okay, tick := s.tick + 1 } ∧
        ∀ j, Cells.get j sx = if j = i then some v else Cells.get j s.mem.sx) ∧
    (∀ v : Word, s.busy = false → HostNext s (.write (BitVec.ofNat 13 (0x1004 + 8 * i)) 4 v) rest →
      ∃ sy, step s = .next { s with mem := { s.mem with sy := sy }, port := rest, resp := some .okay, tick := s.tick + 1 } ∧
        ∀ j, Cells.get j sy = if j = i then some v else Cells.get j s.mem.sy) ∧
    (HostNext s (.read (BitVec.ofNat 13 (0x1000 + 8 * i)) 4) rest →
      ∃ d : Word, step s = .next { s with port := rest, resp := some (.data d), tick := s.tick + 1 } ∧
        ∀ v, Cells.get i s.mem.sx = some v → d = v) ∧
    (HostNext s (.read (BitVec.ofNat 13 (0x1004 + 8 * i)) 4) rest →
      ∃ d : Word, step s = .next { s with port := rest, resp := some (.data d), tick := s.tick + 1 } ∧
        ∀ v, Cells.get i s.mem.sy = some v → d = v) ∧
    (∀ (off : Offset) (v : Word), off = BitVec.ofNat 13 (0x1000 + 8 * i) ∨ off = BitVec.ofNat 13 (0x1004 + 8 * i) →
      s.busy = true → HostNext s (.write off 4 v) rest →
      step s = .next { s with coll := true, port := rest, resp := some .okay, tick := s.tick + 1 })

/-- spec/20_memory.md R61: writes of read-only registers, reads of CMD, writes of STATUS. -/
def Obligations.ReadOnlyRegistersIgnoreWrites : Prop :=
  ∀ (s : State) (v : Word) (rest : List PortEntry),
    (∀ off : Offset, off ∈ [0x010#13, 0x020#13, 0x024#13] → HostNext s (.write off 4 v) rest →
      step s = .next { s with port := rest, resp := some .okay, tick := s.tick + 1 }) ∧
    (HostNext s (.read 0x000#13 4) rest →
      step s = .next { s with port := rest, resp := some (.data 0#32), tick := s.tick + 1 }) ∧
    (HostNext s (.write 0x004#13 4 v) rest →
      step s = .next { s with coll := s.coll && !v.getLsbD 2, port := rest, resp := some .okay, tick := s.tick + 1 })

/-- No read has a side effect, whatever its offset and width (spec/20_memory.md, section 3, first half of R64). -/
def Obligations.ReadsChangeNothing : Prop :=
  ∀ (s : State) (off : Offset) (n : Nat) (rest : List PortEntry), HostNext s (.read off n) rest →
    ∃ r, step s = .next { s with port := rest, resp := some r, tick := s.tick + 1 }

/-- The registers while nothing is pending (spec/20_memory.md, section 2: R/W and R registers; spec/10_state.md sections 2, 3): a
write stores all 32 bits, a read returns the register, zero-extended, and STATUS packs the flags. -/
def Obligations.IdleRegistersReadAndWrite : Prop :=
  ∀ (s : State) (v : Word) (rest : List PortEntry), s.busy = false →
    (HostNext s (.write 0x008#13 4 v) rest →
      step s = .next { s with opa := v, port := rest, resp := some .okay, tick := s.tick + 1 }) ∧
    (HostNext s (.write 0x00C#13 4 v) rest →
      step s = .next { s with opb := v, port := rest, resp := some .okay, tick := s.tick + 1 }) ∧
    (HostNext s (.write 0x014#13 4 v) rest →
      step s = .next { s with poly := v, port := rest, resp := some .okay, tick := s.tick + 1 }) ∧
    (HostNext s (.write 0x018#13 4 v) rest →
      step s = .next { s with gen := v, port := rest, resp := some .okay, tick := s.tick + 1 }) ∧
    (HostNext s (.write 0x01C#13 4 v) rest →
      step s = .next { s with nsamp := v, port := rest, resp := some .okay, tick := s.tick + 1 }) ∧
    (∀ (off : Offset) (d : Word), HostNext s (.read off 4) rest →
      (off, d) ∈ [(0x008#13, s.opa), (0x00C#13, s.opb), (0x010#13, s.result.setWidth 32), (0x014#13, s.poly),
        (0x018#13, s.gen), (0x01C#13, s.nsamp), (0x020#13, s.fpoly.setWidth 32), (0x024#13, s.fgen.setWidth 32)] →
      step s = .next { s with port := rest, resp := some (.data d), tick := s.tick + 1 }) ∧
    (HostNext s (.read 0x004#13 4) rest →
      ∃ d : Word, step s = .next { s with port := rest, resp := some (.data d), tick := s.tick + 1 } ∧
        d.toNat = 256 * s.err.toNat + 4 * s.coll.toNat + 2 * s.fv.toNat)

/-- spec/10_state.md R32: STATUS's reserved bits read 0, and a write ignores them (it ignores every bit but bit 2). -/
def Obligations.ReservedStatusBits : Prop :=
  ∀ (s : State) (rest : List PortEntry),
    (HostNext s (.read 0x004#13 4) rest →
      ∃ d : Word, step s = .next { s with port := rest, resp := some (.data d), tick := s.tick + 1 } ∧
        ∀ k, (3 ≤ k ∧ k ≤ 7) ∨ (12 ≤ k ∧ k ≤ 31) → d.getLsbD k = false) ∧
    (∀ v : Word, HostNext s (.write 0x004#13 4 v) rest →
      step s = .next { s with coll := s.coll && !v.getLsbD 2, port := rest, resp := some .okay, tick := s.tick + 1 })

/-- What still reads as stored while BUSY (spec/10_state.md, section 5, R45's second paragraph), and the zero bits of the reads
that are unspecified then. -/
def Obligations.BusyReadsOfStoredValues : Prop :=
  ∀ (s : State) (rest : List PortEntry), s.busy = true →
    (∀ (off : Offset) (d : Word), HostNext s (.read off 4) rest →
      (off, d) ∈ [(0x008#13, s.opa), (0x00C#13, s.opb), (0x014#13, s.poly), (0x018#13, s.gen), (0x01C#13, s.nsamp),
        (0x020#13, s.fpoly.setWidth 32), (0x024#13, s.fgen.setWidth 32)] →
      step s = .next { s with port := rest, resp := some (.data d), tick := s.tick + 1 }) ∧
    (HostNext s (.read 0x010#13 4) rest →
      ∃ d : Word, step s = .next { s with port := rest, resp := some (.data d), tick := s.tick + 1 } ∧ d.toNat ≤ 255) ∧
    (HostNext s (.read 0x004#13 4) rest →
      ∃ d : Word, step s = .next { s with port := rest, resp := some (.data d), tick := s.tick + 1 } ∧
        d.getLsbD 0 = true ∧ d.getLsbD 2 = s.coll ∧ (decode s.pend ≠ .command .build → d.getLsbD 1 = s.fv)) ∧
    (∀ i v, i < 256 → Cells.get i s.mem.sx = some v → HostNext s (.read (BitVec.ofNat 13 (0x1000 + 8 * i)) 4) rest →
      step s = .next { s with port := rest, resp := some (.data v), tick := s.tick + 1 }) ∧
    (∀ i v, i < 256 → Cells.get i s.mem.sy = some v → HostNext s (.read (BitVec.ofNat 13 (0x1004 + 8 * i)) 4) rest →
      step s = .next { s with port := rest, resp := some (.data v), tick := s.tick + 1 }) ∧
    (∀ i v, i < 512 → decode s.pend ≠ .command .build → Cells.get i s.mem.exp = some v →
      HostNext s (.read (BitVec.ofNat 13 (0x0400 + 4 * i)) 4) rest →
      step s = .next { s with port := rest, resp := some (.data (zext32 v)), tick := s.tick + 1 }) ∧
    (∀ i v, i < 256 → decode s.pend ≠ .command .build → Cells.get i s.mem.log = some v →
      HostNext s (.read (BitVec.ofNat 13 (0x0C00 + 4 * i)) 4) rest →
      step s = .next { s with port := rest, resp := some (.data (zext32 v)), tick := s.tick + 1 })

/-! ### The whole machine -/

/-- spec/00_scope.md R23: only a successful BUILD and reset write the field context. -/
def Obligations.FieldContextWrittenByBuildAndReset : Prop :=
  ∀ s t : State, step s = .next t →
    (t.fv ≠ s.fv ∨ t.fpoly ≠ s.fpoly ∨ t.fgen ≠ s.fgen ∨ t.mem.exp ≠ s.mem.exp ∨ t.mem.log ≠ s.mem.log) →
    (engineTurn s = true ∧ decode s.pend = .command .build ∧ t.err = 0#4) ∨
      ∃ engineFirst rest, s.port = { event := .reset, engineFirst := engineFirst } :: rest

/-- What every command leaves alone, and that each completes in every state (spec/60_exceptions.md, section 3;
spec/10_state.md sections 3 to 5): the operand registers, COLL, PEND, the port and every sample cell; but for BUILD the field
context and every table cell; for BUILD, RESULT. -/
def Obligations.CommandsCompleteAndKeepTheirFrame : Prop :=
  ∀ (i : Instr) (s : State), ∃ t, exec i s = .next t ∧ t.busy = false ∧
    t.opa = s.opa ∧ t.opb = s.opb ∧ t.poly = s.poly ∧ t.gen = s.gen ∧ t.nsamp = s.nsamp ∧ t.coll = s.coll ∧
    t.pend = s.pend ∧ t.port = s.port ∧ t.resp = s.resp ∧
    (∀ j, Cells.get j t.mem.sx = Cells.get j s.mem.sx) ∧ (∀ j, Cells.get j t.mem.sy = Cells.get j s.mem.sy) ∧
    (i ≠ .build → t.fv = s.fv ∧ t.fpoly = s.fpoly ∧ t.fgen = s.fgen ∧
      (∀ j, Cells.get j t.mem.exp = Cells.get j s.mem.exp) ∧ ∀ j, Cells.get j t.mem.log = Cells.get j s.mem.log) ∧
    (i = .build → t.result = s.result ∧ Cells.get 511 t.mem.exp = Cells.get 511 s.mem.exp)

/-- spec/60_exceptions.md R159: an error changes only ERR and BUSY. -/
def Obligations.ErrorChangesOnlyErrAndBusy : Prop :=
  ∀ (i : Instr) (s t : State), exec i s = .next t → t.err ≠ 0#4 →
    t = { s with err := t.err, busy := false, tick := s.tick + 1 }

/-- spec/60_exceptions.md R155: the codes each command can write; 8 to 15 never; a reserved word writes 7. -/
def Obligations.ErrorCodesPerCommand : Prop :=
  (∀ (i : Instr) (s t : State), exec i s = .next t → t.err.toNat ∈
    match i with
    | .clmul => [0, 1]
    | .isgen => [0, 1]
    | .build => [0, 1, 2]
    | .add => [0, 1, 6]
    | .sub => [0, 1, 6]
    | .mul => [0, 1, 6]
    | .div => [0, 1, 3, 6]
    | .inv => [0, 1, 4, 6]
    | .interp => [0, 1, 3, 5, 6]) ∧
  (∀ (s : State) (why : IllegalWord), engineTurn s = true → decode s.pend = .illegal why →
    ∃ t, step s = .next t ∧ t.err = 7#4)

/-! ### CLMUL, ISGEN, BUILD -/

/-- CLMUL (spec/40_multiplier.md): its word, its result, its errors, its corner cases and its example. -/
def Obligations.ClmulMultipliesBytes : Prop :=
  decode 0x00000001#32 = .command .clmul ∧
  (∀ s : State, s.opa.toNat ≤ 255 → s.opb.toNat ≤ 255 → s.poly.toNat ≤ 0xFFFF →
    exec .clmul s = .next { s with
      result := mulbytes (s.opa.setWidth 8) (s.opb.setWidth 8) (s.poly.setWidth 16)
      err := 0#4, busy := false, tick := s.tick + 1 }) ∧
  (∀ s : State, 255 < s.opa.toNat ∨ 255 < s.opb.toNat ∨ 0xFFFF < s.poly.toNat →
    exec .clmul s = .next { s with err := 1#4, busy := false, tick := s.tick + 1 }) ∧
  (∀ (a : Byte) (p : Half), mulbytes 0#8 a p = 0#8 ∧ mulbytes a 0#8 p = 0#8 ∧ mulbytes a 1#8 p = a ∧
    mulbytes 1#8 a p = a) ∧
  mulbytes 0x53#8 0xCA#8 0x11B#16 = 0x01#8

/-- spec/40_multiplier.md R94: mulbytes is the product of the bytes, as polynomials over GF(2), modulo x^8 + P for the polynomial
P of p[7:0]; so it is commutative and associative, distributes over xor, and has the identity 1, for every p. -/
def Obligations.MulbytesIsThePolynomialProduct : Prop :=
  ∀ p : Half,
    let poly : Byte → Polynomial (ZMod 2) := fun v =>
      ∑ i ∈ Finset.range 8, if v.getLsbD i then (Polynomial.X : Polynomial (ZMod 2)) ^ i else 0
    (∀ a b : Byte, poly (mulbytes a b p) =
      (poly a * poly b) %ₘ ((Polynomial.X : Polynomial (ZMod 2)) ^ 8 + poly (p.setWidth 8))) ∧
    (∀ a b : Byte, mulbytes a b p = mulbytes b a p) ∧
    (∀ a b c : Byte, mulbytes (mulbytes a b p) c p = mulbytes a (mulbytes b c p) p) ∧
    (∀ a b c : Byte, mulbytes (a ^^^ b) c p = mulbytes a c p ^^^ mulbytes b c p) ∧
    (∀ a : Byte, mulbytes a 1#8 p = a)

/-- spec/40_multiplier.md R95: POLY bits 15:8 do not affect CLMUL, ISGEN or BUILD's tables. -/
def Obligations.OnlyTheReductionByteMatters : Prop :=
  ∀ (s : State) (q : Word), s.poly.toNat ≤ 0xFFFF → q.toNat ≤ 0xFFFF → (s.poly.setWidth 8 : Byte) = q.setWidth 8 →
    (∃ t u, exec .clmul s = .next t ∧ exec .clmul { s with poly := q } = .next u ∧ t.err = u.err ∧ t.result = u.result) ∧
    (∃ t u, exec .isgen s = .next t ∧ exec .isgen { s with poly := q } = .next u ∧ t.err = u.err ∧ t.result = u.result) ∧
    (∃ t u, exec .build s = .next t ∧ exec .build { s with poly := q } = .next u ∧ t.err = u.err ∧ t.mem = u.mem)

/-- ISGEN (spec/41_generator_validator.md): its word, its result, its errors, 0 and 1 are never generators, its example. -/
def Obligations.IsgenAnswersTheGeneratorTest : Prop :=
  decode 0x00000002#32 = .command .isgen ∧
  (∀ s : State, s.poly.toNat ≤ 0xFFFF → s.gen.toNat ≤ 255 →
    exec .isgen s = .next { s with
      result := if isgen (s.poly.setWidth 16) (s.gen.setWidth 8) then 1#8 else 0#8
      err := 0#4, busy := false, tick := s.tick + 1 }) ∧
  (∀ s : State, 0xFFFF < s.poly.toNat ∨ 255 < s.gen.toNat →
    exec .isgen s = .next { s with err := 1#4, busy := false, tick := s.tick + 1 }) ∧
  (∀ p : Half, isgen p 0#8 = false ∧ isgen p 1#8 = false) ∧
  isgen 0x11B#16 0x03#8 = true

/-- spec/41_generator_validator.md R99: the verdict is true exactly when the powers c^0 to c^254 are 255 distinct nonzero values,
and equivalently when c has multiplicative order exactly 255. -/
def Obligations.GeneratorTestMeansOrder255 : Prop :=
  ∀ (p : Half) (c : Byte),
    (isgen p c = true ↔ (∀ i, i < 255 → fieldPow p c i ≠ 0#8) ∧
      ∀ i j, i < j → j < 255 → fieldPow p c i ≠ fieldPow p c j) ∧
    (isgen p c = true ↔ fieldPow p c 255 = 1#8 ∧ ∀ k, 0 < k → k < 255 → fieldPow p c k ≠ 1#8)

/-- A modulus with a generator is irreducible (spec/41_generator_validator.md, consequences of the test). -/
def Obligations.GeneratorNeedsIrreducibleModulus : Prop :=
  ∀ (p : Half) (c : Byte), isgen p c = true →
    Irreducible ((Polynomial.X : Polynomial (ZMod 2)) ^ 8 +
      ∑ i ∈ Finset.range 8, if p.getLsbD i then (Polynomial.X : Polynomial (ZMod 2)) ^ i else 0)

/-- spec/42_table_builder.md R106, R109: a BUILD that raises no error commits the field, and its tables hold the powers of the
generator and the discrete logarithms; EXP[511], LOG[0] and everything else stay. -/
def Obligations.BuildCommitsTheField : Prop :=
  ∀ s : State, s.poly.toNat ≤ 0xFFFF → s.gen.toNat ≤ 255 → isgen (s.poly.setWidth 16) (s.gen.setWidth 8) = true →
    ∃ E L, exec .build s = .next { s with
        mem := { s.mem with exp := E, log := L }, fpoly := s.poly.setWidth 16, fgen := s.gen.setWidth 8, fv := true,
        err := 0#4, busy := false, tick := s.tick + 1 } ∧
      (∀ i, i ≤ 510 → Cells.get i E = some (fieldPow (s.poly.setWidth 16) (s.gen.setWidth 8) (i % 255))) ∧
      (∀ i, 511 ≤ i → Cells.get i E = Cells.get i s.mem.exp) ∧
      (∀ y : Byte, y ≠ 0#8 → ∃ k, k ≤ 254 ∧ Cells.get y.toNat L = some (BitVec.ofNat 8 k) ∧
        ∀ m, m ≤ 254 → (fieldPow (s.poly.setWidth 16) (s.gen.setWidth 8) m = y ↔ m = k)) ∧
      Cells.get 0 L = Cells.get 0 s.mem.log

/-- spec/42_table_builder.md R108: when a BUILD fails, and that it changes only ERR and BUSY. -/
def Obligations.BuildFailureKeepsTheField : Prop :=
  (∀ s : State, 0xFFFF < s.poly.toNat ∨ 255 < s.gen.toNat →
    exec .build s = .next { s with err := 1#4, busy := false, tick := s.tick + 1 }) ∧
  (∀ s : State, s.poly.toNat ≤ 0xFFFF → s.gen.toNat ≤ 255 → isgen (s.poly.setWidth 16) (s.gen.setWidth 8) = false →
    exec .build s = .next { s with err := 2#4, busy := false, tick := s.tick + 1 }) ∧
  (∀ s t : State, exec .build s = .next t → t.err ≠ 0#4 → t.mem = s.mem ∧ t.fpoly = s.fpoly ∧ t.fgen = s.fgen ∧
    t.fv = s.fv ∧ t = { s with err := t.err, busy := false, tick := s.tick + 1 })

/-- spec/42_table_builder.md R110: the table invariants after a successful BUILD. -/
def Obligations.BuiltTablesAreMutualInverses : Prop :=
  ∀ s t : State, exec .build s = .next t → t.err = 0#4 →
    (∀ y : Byte, y ≠ 0#8 → ∃ k : Byte, Cells.get y.toNat t.mem.log = some k ∧ k.toNat ≤ 254 ∧
      Cells.get k.toNat t.mem.exp = some y) ∧
    (∀ i, i ≤ 254 → ∃ x : Byte, Cells.get i t.mem.exp = some x ∧ Cells.get x.toNat t.mem.log = some (BitVec.ofNat 8 i)) ∧
    (∀ i, i ≤ 255 → Cells.get (i + 255) t.mem.exp = Cells.get i t.mem.exp) ∧
    (∀ i, i ≤ 510 → ∃ x : Byte, x ≠ 0#8 ∧ Cells.get i t.mem.exp = some x) ∧
    Cells.get 0 t.mem.exp = some 1#8 ∧ Cells.get 255 t.mem.exp = some 1#8 ∧ Cells.get 510 t.mem.exp = some 1#8 ∧
    Cells.get 1 t.mem.log = some 0#8 ∧ Cells.get t.fgen.toNat t.mem.log = some 1#8

/-- spec/42_table_builder.md R111: with a built field the indices that MUL, DIV and INV read are in range. -/
def Obligations.TableReadsStayInRange : Prop :=
  ∀ (s : State) (a b : Byte), Inv s → s.fv = true → a ≠ 0#8 → b ≠ 0#8 →
    ∃ la lb : Byte, Cells.get a.toNat s.mem.log = some la ∧ Cells.get b.toNat s.mem.log = some lb ∧
      la.toNat + lb.toNat ≤ 508 ∧ divIndex la lb ≤ 254 ∧ 1 ≤ 255 - la.toNat ∧ 255 - la.toNat ≤ 255 ∧
      (Cells.get (la.toNat + lb.toNat) s.mem.exp).isSome ∧ (Cells.get (divIndex la lb) s.mem.exp).isSome ∧
      (Cells.get (255 - la.toNat) s.mem.exp).isSome

/-! ### ADD, SUB, MUL, DIV, INV -/

/-- spec/43_field_arithmetic.md R116: ADD. -/
def Obligations.AddIsXor : Prop :=
  decode 0x00000004#32 = .command .add ∧
  (∀ s : State, s.fv = false → exec .add s = .next { s with err := 6#4, busy := false, tick := s.tick + 1 }) ∧
  (∀ s : State, s.fv = true → 255 < s.opa.toNat ∨ 255 < s.opb.toNat →
    exec .add s = .next { s with err := 1#4, busy := false, tick := s.tick + 1 }) ∧
  (∀ s : State, s.fv = true → s.opa.toNat ≤ 255 → s.opb.toNat ≤ 255 →
    exec .add s = .next { s with
      result := s.opa.setWidth 8 ^^^ s.opb.setWidth 8, err := 0#4, busy := false, tick := s.tick + 1 }) ∧
  (∀ s : State, s.fv = true → commandValue .add s 0x53#8 0xCA#8 = some 0x99#8)

/-- spec/43_field_arithmetic.md R118, R119: SUB, which completes as ADD does in every state. -/
def Obligations.SubIsXorAsAdd : Prop :=
  decode 0x00000005#32 = .command .sub ∧
  (∀ s : State, s.fv = false → exec .sub s = .next { s with err := 6#4, busy := false, tick := s.tick + 1 }) ∧
  (∀ s : State, s.fv = true → 255 < s.opa.toNat ∨ 255 < s.opb.toNat →
    exec .sub s = .next { s with err := 1#4, busy := false, tick := s.tick + 1 }) ∧
  (∀ s : State, s.fv = true → s.opa.toNat ≤ 255 → s.opb.toNat ≤ 255 →
    exec .sub s = .next { s with
      result := s.opa.setWidth 8 ^^^ s.opb.setWidth 8, err := 0#4, busy := false, tick := s.tick + 1 }) ∧
  (∀ s : State, exec .sub s = exec .add s) ∧
  (∀ s : State, s.fv = true → commandValue .sub s 0x99#8 0xCA#8 = some 0x53#8)

/-- spec/43_field_arithmetic.md R117: the laws of ADD. -/
def Obligations.AddLaws : Prop :=
  ∀ (s : State) (a b c : Byte), s.fv = true →
    commandValue .add s a a = some 0#8 ∧ commandValue .add s a 0#8 = some a ∧
    commandValue .add s a b = commandValue .add s b a ∧
    ∃ ab bc, commandValue .add s a b = some ab ∧ commandValue .add s b c = some bc ∧
      commandValue .add s ab c = commandValue .add s a bc ∧ (commandValue .add s ab c).isSome

/-- spec/43_field_arithmetic.md R121: MUL by table lookup, with its errors, its corner cases and the source's examples. -/
def Obligations.MulLooksUpLogarithms : Prop :=
  decode 0x00000006#32 = .command .mul ∧
  (∀ s : State, s.fv = false → exec .mul s = .next { s with err := 6#4, busy := false, tick := s.tick + 1 }) ∧
  (∀ s : State, s.fv = true → 255 < s.opa.toNat ∨ 255 < s.opb.toNat →
    exec .mul s = .next { s with err := 1#4, busy := false, tick := s.tick + 1 }) ∧
  (∀ s : State, s.fv = true → s.opa.toNat ≤ 255 → s.opb.toNat ≤ 255 → s.opa = 0#32 ∨ s.opb = 0#32 →
    exec .mul s = .next { s with result := 0#8, err := 0#4, busy := false, tick := s.tick + 1 }) ∧
  (∀ (s : State) (la lb v : Byte), s.fv = true → s.opa.toNat ≤ 255 → s.opb.toNat ≤ 255 → s.opa ≠ 0#32 → s.opb ≠ 0#32 →
    Cells.get s.opa.toNat s.mem.log = some la → Cells.get s.opb.toNat s.mem.log = some lb →
    Cells.get (la.toNat + lb.toNat) s.mem.exp = some v →
    exec .mul s = .next { s with result := v, err := 0#4, busy := false, tick := s.tick + 1 }) ∧
  (∀ (s : State) (b : Byte), Inv s → s.fv = true → commandValue .mul s 1#8 b = some b) ∧
  (∀ s : State, Inv s → s.fv = true → s.fpoly = 0x11B#16 → s.fgen = 0x03#8 →
    commandValue .mul s 100#8 100#8 = some 215#8 ∧ commandValue .mul s 255#8 255#8 = some 19#8)

/-- spec/43_field_arithmetic.md R122: with a built field MUL is the byte multiplier under FIELD_POLY. -/
def Obligations.MulAgreesWithTheMultiplier : Prop :=
  ∀ s : State, Inv s → s.fv = true → s.opa.toNat ≤ 255 → s.opb.toNat ≤ 255 →
    exec .mul s = .next { s with
      result := mulbytes (s.opa.setWidth 8) (s.opb.setWidth 8) s.fpoly
      err := 0#4, busy := false, tick := s.tick + 1 }

/-- spec/40_multiplier.md R96: CLMUL with POLY = FIELD_POLY and MUL complete alike on the same bytes. -/
def Obligations.ClmulAndMulAgree : Prop :=
  ∀ s : State, Inv s → s.fv = true → s.opa.toNat ≤ 255 → s.opb.toNat ≤ 255 → s.poly = zext32 s.fpoly →
    ∃ t, exec .mul s = .next t ∧ exec .clmul s = .next t ∧ t.err = 0#4 ∧
      t.result = mulbytes (s.opa.setWidth 8) (s.opb.setWidth 8) s.fpoly

/-- spec/43_field_arithmetic.md R123: the laws of MUL under a built field. -/
def Obligations.MulLaws : Prop :=
  ∀ (s : State) (a b c : Byte), Inv s → s.fv = true →
    commandValue .mul s a 1#8 = some a ∧ commandValue .mul s a 0#8 = some 0#8 ∧
    commandValue .mul s a b = commandValue .mul s b a ∧
    (∃ ab bc abc, commandValue .mul s a b = some ab ∧ commandValue .mul s b c = some bc ∧
      commandValue .mul s ab c = some abc ∧ commandValue .mul s a bc = some abc) ∧
    (∃ sum ac bc, commandValue .add s a b = some sum ∧ commandValue .mul s a c = some ac ∧
      commandValue .mul s b c = some bc ∧ commandValue .mul s sum c = commandValue .add s ac bc) ∧
    (commandValue .mul s a b = some 0#8 → a = 0#8 ∨ b = 0#8)

/-- spec/43_field_arithmetic.md R124: DIV, the order of its checks, its corner cases and its examples. -/
def Obligations.DivSubtractsLogarithms : Prop :=
  decode 0x00000007#32 = .command .div ∧
  (∀ s : State, s.fv = false → exec .div s = .next { s with err := 6#4, busy := false, tick := s.tick + 1 }) ∧
  (∀ s : State, s.fv = true → 255 < s.opa.toNat ∨ 255 < s.opb.toNat →
    exec .div s = .next { s with err := 1#4, busy := false, tick := s.tick + 1 }) ∧
  (∀ s : State, s.fv = true → s.opa.toNat ≤ 255 → s.opb = 0#32 →
    exec .div s = .next { s with err := 3#4, busy := false, tick := s.tick + 1 }) ∧
  (∀ s : State, s.fv = true → s.opa = 0#32 → s.opb.toNat ≤ 255 → s.opb ≠ 0#32 →
    exec .div s = .next { s with result := 0#8, err := 0#4, busy := false, tick := s.tick + 1 }) ∧
  (∀ (s : State) (la lb v : Byte), s.fv = true → s.opa.toNat ≤ 255 → s.opb.toNat ≤ 255 → s.opa ≠ 0#32 → s.opb ≠ 0#32 →
    Cells.get s.opa.toNat s.mem.log = some la → Cells.get s.opb.toNat s.mem.log = some lb →
    Cells.get (if la.toNat < lb.toNat then la.toNat + 255 - lb.toNat else la.toNat - lb.toNat) s.mem.exp = some v →
    exec .div s = .next { s with result := v, err := 0#4, busy := false, tick := s.tick + 1 }) ∧
  (∀ (s : State) (a b : Byte), Inv s → s.fv = true → b ≠ 0#8 →
    commandValue .div s b b = some 1#8 ∧ commandValue .div s a 1#8 = some a) ∧
  (∀ s : State, Inv s → s.fv = true → s.fpoly = 0x11B#16 → s.fgen = 0x03#8 → commandValue .div s 215#8 100#8 = some 100#8)

/-- spec/43_field_arithmetic.md R125, R126: DIV is multiplication by the inverse, and its laws under a built field. -/
def Obligations.DivLaws : Prop :=
  ∀ (s : State) (a b : Byte), Inv s → s.fv = true → b ≠ 0#8 →
    (∃ ib, commandValue .inv s b 0#8 = some ib ∧ commandValue .div s a b = commandValue .mul s a ib) ∧
    (∃ ab, commandValue .mul s a b = some ab ∧ commandValue .div s ab b = some a) ∧
    (∃ q, commandValue .div s a b = some q ∧ commandValue .mul s q b = some a) ∧
    commandValue .div s a 1#8 = some a ∧ commandValue .div s 1#8 b = commandValue .inv s b 0#8 ∧
    commandValue .div s b b = some 1#8 ∧
    (∀ la lb : Byte, Cells.get a.toNat s.mem.log = some la → Cells.get b.toNat s.mem.log = some lb → a ≠ 0#8 →
      divIndex la lb = (la.toNat + 255 - lb.toNat) % 255)

/-- spec/43_field_arithmetic.md R127: INV, which does not read OPB; only 1 is its own inverse. -/
def Obligations.InvLooksUpTheInverse : Prop :=
  decode 0x00000008#32 = .command .inv ∧
  (∀ s : State, s.fv = false → exec .inv s = .next { s with err := 6#4, busy := false, tick := s.tick + 1 }) ∧
  (∀ s : State, s.fv = true → 255 < s.opa.toNat →
    exec .inv s = .next { s with err := 1#4, busy := false, tick := s.tick + 1 }) ∧
  (∀ s : State, s.fv = true → s.opa = 0#32 →
    exec .inv s = .next { s with err := 4#4, busy := false, tick := s.tick + 1 }) ∧
  (∀ (s : State) (la v : Byte), s.fv = true → s.opa.toNat ≤ 255 → s.opa ≠ 0#32 →
    Cells.get s.opa.toNat s.mem.log = some la → Cells.get (255 - la.toNat) s.mem.exp = some v →
    exec .inv s = .next { s with result := v, err := 0#4, busy := false, tick := s.tick + 1 }) ∧
  (∀ (s : State) (b : Word), ∃ t, exec .inv s = .next t ∧ exec .inv { s with opb := b } = .next { t with opb := b }) ∧
  (∀ (s : State) (a : Byte), Inv s → s.fv = true → (commandValue .inv s a 0#8 = some a ↔ a = 1#8)) ∧
  (∀ s : State, Inv s → s.fv = true → s.fpoly = 0x11B#16 → s.fgen = 0x03#8 →
    commandValue .inv s 0x53#8 0#8 = some 0xCA#8)

/-- spec/43_field_arithmetic.md R128: the laws of INV under a built field. -/
def Obligations.InvLaws : Prop :=
  ∀ (s : State) (a b : Byte), Inv s → s.fv = true → a ≠ 0#8 → b ≠ 0#8 →
    ∃ ia ib ab, commandValue .inv s a 0#8 = some ia ∧ commandValue .inv s b 0#8 = some ib ∧
      commandValue .mul s a b = some ab ∧ commandValue .mul s a ia = some 1#8 ∧
      commandValue .inv s ia 0#8 = some a ∧ commandValue .inv s ab 0#8 = commandValue .mul s ia ib

/-- spec/42_table_builder.md R112: two built fields with the same reduction byte give the same MUL, DIV and INV, whatever their
generators, though different generators have different EXP and different LOG tables; and the rule's example. -/
def Obligations.ProductsDependOnThePolynomialAlone : Prop :=
  (∀ s t : State, Inv s → Inv t → s.fv = true → t.fv = true → (s.fpoly.setWidth 8 : Byte) = t.fpoly.setWidth 8 →
    (∀ a b : Byte, commandValue .mul s a b = commandValue .mul t a b ∧ commandValue .div s a b = commandValue .div t a b ∧
      commandValue .inv s a b = commandValue .inv t a b) ∧
    (s.fgen ≠ t.fgen →
      (∃ i, i ≤ 510 ∧ Cells.get i s.mem.exp ≠ Cells.get i t.mem.exp) ∧
      ∃ i, 1 ≤ i ∧ i ≤ 255 ∧ Cells.get i s.mem.log ≠ Cells.get i t.mem.log)) ∧
  (∀ s : State, Inv s → s.fv = true → s.fpoly = 0x11B#16 → s.fgen = 0x03#8 ∨ s.fgen = 0xE5#8 →
    commandValue .mul s 100#8 100#8 = some 215#8)

/-! ### INTERP -/

/-- spec/45_interpolator.md R143: the count checks, after NoField. -/
def Obligations.InterpChecksItsCount : Prop :=
  decode 0x00000009#32 = .command .interp ∧
  (∀ s : State, s.fv = false → exec .interp s = .next { s with err := 6#4, busy := false, tick := s.tick + 1 }) ∧
  (∀ s : State, s.fv = true → s.nsamp = 0#32 →
    exec .interp s = .next { s with err := 5#4, busy := false, tick := s.tick + 1 }) ∧
  (∀ s : State, s.fv = true → 256 < s.nsamp.toNat →
    exec .interp s = .next { s with err := 1#4, busy := false, tick := s.tick + 1 })

/-- spec/45_interpolator.md R145: one sample. Neither x nor SX[0] is read or checked. -/
def Obligations.InterpOfOneSample : Prop :=
  ∀ (s : State) (v : Word), Inv s → s.fv = true → s.nsamp = 1#32 → Cells.get 0 s.mem.sy = some v →
    (v.toNat ≤ 255 →
      exec .interp s = .next { s with result := v.setWidth 8, err := 0#4, busy := false, tick := s.tick + 1 }) ∧
    (255 < v.toNat → exec .interp s = .next { s with err := 1#4, busy := false, tick := s.tick + 1 })

/-- Duplicate x-coordinates raise DivisionByZero (spec/45_interpolator.md, duplicate x-coordinates). -/
def Obligations.InterpOfDuplicatesDividesByZero : Prop :=
  ∀ (s : State) (i j : Nat), Inv s → s.fv = true → s.nsamp.toNat ≤ 256 → s.opa.toNat ≤ 255 →
    SamplesInRange s s.nsamp.toNat → i < j → j < s.nsamp.toNat → Cells.get i s.mem.sx = Cells.get j s.mem.sx →
    exec .interp s = .next { s with err := 3#4, busy := false, tick := s.tick + 1 }

/-- The first failing check is the one reported (spec/45_interpolator.md, error order): with two or more samples an x out of
range comes first, whatever the samples; then, for each i and each j ≠ i in ascending order, SX[j] out of range, SX[i] out of
range, the two equal; and after the inner loop of i, SY[i] out of range. A duplicate at the first pair comes before SY[0] is
checked. The ascending order is the spec's own choice, as it says there. -/
def Obligations.InterpReportsTheFirstError : Prop :=
  (∀ s : State, s.fv = true → 2 ≤ s.nsamp.toNat → s.nsamp.toNat ≤ 256 → 255 < s.opa.toNat →
    exec .interp s = .next { s with err := 1#4, busy := false, tick := s.tick + 1 }) ∧
  (∀ (s : State) (x : Byte), s.fv = true → 2 ≤ s.nsamp.toNat → s.nsamp.toNat ≤ 256 → s.opa.toNat ≤ 255 →
    Cells.get 0 s.mem.sx = some (zext32 x) → Cells.get 1 s.mem.sx = some (zext32 x) →
    exec .interp s = .next { s with err := 3#4, busy := false, tick := s.tick + 1 }) ∧
  ∀ s : State, s.fv = true → 2 ≤ s.nsamp.toNat → s.nsamp.toNat ≤ 256 → s.opa.toNat ≤ 255 →
    (∀ i j, i < s.nsamp.toNat → j < s.nsamp.toNat → j ≠ i → TurnReached s i j →
      (∀ v : Word, 255 < v.toNat → Cells.get j s.mem.sx = some v →
        exec .interp s = .next { s with err := 1#4, busy := false, tick := s.tick + 1 }) ∧
      (∀ (v : Word) (xj : Byte), 255 < v.toNat → Cells.get i s.mem.sx = some v → Cells.get j s.mem.sx = some (zext32 xj) →
        exec .interp s = .next { s with err := 1#4, busy := false, tick := s.tick + 1 }) ∧
      (∀ x : Byte, Cells.get i s.mem.sx = some (zext32 x) → Cells.get j s.mem.sx = some (zext32 x) →
        exec .interp s = .next { s with err := 3#4, busy := false, tick := s.tick + 1 })) ∧
    (∀ (i : Nat) (v : Word), i < s.nsamp.toNat → TurnReached s i s.nsamp.toNat → 255 < v.toNat →
      Cells.get i s.mem.sy = some v →
      exec .interp s = .next { s with err := 1#4, busy := false, tick := s.tick + 1 })

/-- spec/45_interpolator.md R148: at a sample abscissa the result is that sample's y. -/
def Obligations.InterpAtASampleReturnsItsY : Prop :=
  ∀ (s : State) (k : Nat) (y : Byte), Inv s → s.fv = true → s.nsamp.toNat ≤ 256 → k < s.nsamp.toNat →
    SamplesInRange s s.nsamp.toNat → SamplesDistinct s s.nsamp.toNat →
    Cells.get k s.mem.sx = some s.opa → Cells.get k s.mem.sy = some (zext32 y) →
    exec .interp s = .next { s with result := y, err := 0#4, busy := false, tick := s.tick + 1 }

/-- spec/45_interpolator.md R147: INTERP returns L(x) for the unique polynomial L of degree < n through the n samples, here the
unique list of n coefficients. -/
def Obligations.InterpEvaluatesTheInterpolant : Prop :=
  ∀ s : State, Inv s → s.fv = true → 1 ≤ s.nsamp.toNat → s.nsamp.toNat ≤ 256 → s.opa.toNat ≤ 255 →
    SamplesInRange s s.nsamp.toNat → SamplesDistinct s s.nsamp.toNat →
    ∃ c : List Byte, c.length = s.nsamp.toNat ∧
      (∀ (i : Nat) (x y : Byte), i < s.nsamp.toNat → Cells.get i s.mem.sx = some (zext32 x) →
        Cells.get i s.mem.sy = some (zext32 y) → polyEval s.fpoly x c = y) ∧
      (∀ d : List Byte, d.length = s.nsamp.toNat →
        (∀ (i : Nat) (x y : Byte), i < s.nsamp.toNat → Cells.get i s.mem.sx = some (zext32 x) →
          Cells.get i s.mem.sy = some (zext32 y) → polyEval s.fpoly x d = y) → d = c) ∧
      exec .interp s = .next { s with
        result := polyEval s.fpoly (s.opa.setWidth 8) c, err := 0#4, busy := false, tick := s.tick + 1 }

/-- INTERP reads only the first NSAMP samples and no register but OPA and NSAMP (spec/45_interpolator.md, what it reads): states
that agree on those and on the tables complete alike. -/
def Obligations.InterpReadsOnlyItsSamples : Prop :=
  ∀ s u : State, u.fv = s.fv → u.opa = s.opa → u.nsamp = s.nsamp → u.mem.exp = s.mem.exp → u.mem.log = s.mem.log →
    (∀ i, i < s.nsamp.toNat → (Cells.get i s.mem.sx).isSome ∧ (Cells.get i s.mem.sy).isSome ∧
      Cells.get i u.mem.sx = Cells.get i s.mem.sx ∧ Cells.get i u.mem.sy = Cells.get i s.mem.sy) → Inv s → Inv u →
    ∃ t v, exec .interp s = .next t ∧ exec .interp u = .next v ∧ t.err = v.err ∧
      (t.err = 0#4 → t.result = v.result)

/-! ### Host procedures -/

/-- evaluate (spec/44_polynomial_host.md): its two host errors, its one-coefficient case, and under a built field Horner's value,
wherever the completions fall among the host's accesses. -/
def Obligations.EvaluateIsHorner : Prop :=
  (∀ (lat : Nat → Nat) (x : Word) (h : HostRun), evaluate lat [] x h = (.error .emptyPolynomial, h)) ∧
  (∀ (lat : Nat → Nat) (c : List Word) (h : HostRun), c ≠ [] →
    evaluate lat c 0#32 h = (.error .invalidEvaluationPoint, h)) ∧
  (∀ (lat : Nat → Nat) (c x : Word) (h : HostRun), x ≠ 0#32 → evaluate lat [c] x h = (.ok c, h)) ∧
  (∀ (lat : Nat → Nat) (c : List Byte) (x : Byte) (h : HostRun), Inv h.block → h.block.fv = true → h.block.busy = false →
    h.block.port = [] → c ≠ [] → x ≠ 0#8 →
    (evaluate lat (c.map zext32) (zext32 x) h).1 = .ok (zext32 (polyEval h.block.fpoly x c)))

/-- addPolynomials and mulPolynomials (spec/44_polynomial_host.md) under a built field: the length and every coefficient of the
sum (missing terms 0) and of the product (the convolution), and so that they evaluate to the sum and the product, at every
byte. -/
def Obligations.PolynomialProceduresAddAndMultiply : Prop :=
  ∀ (lat : Nat → Nat) (a b : List Byte) (h : HostRun), Inv h.block → h.block.fv = true → h.block.busy = false →
    h.block.port = [] →
    (∃ r : List Byte, (addPolynomials lat (a.map zext32) (b.map zext32) h).1 = .ok (r.map zext32) ∧
      r.length = max a.length b.length ∧
      (∀ k, k < r.length → r.getD k 0#8 = a.getD k 0#8 ^^^ b.getD k 0#8) ∧
      ∀ x, polyEval h.block.fpoly x r = polyEval h.block.fpoly x a ^^^ polyEval h.block.fpoly x b) ∧
    (a ≠ [] → b ≠ [] →
      ∃ r : List Byte, (mulPolynomials lat (a.map zext32) (b.map zext32) h).1 = .ok (r.map zext32) ∧
        r.length = a.length + b.length - 1 ∧
        (∀ k, k < r.length → r.getD k 0#8 =
          ((List.range (k + 1)).map fun i => mulbytes (a.getD i 0#8) (b.getD (k - i) 0#8) h.block.fpoly).foldl
            (fun u v => u ^^^ v) 0#8) ∧
        ∀ x, polyEval h.block.fpoly x r =
          mulbytes (polyEval h.block.fpoly x a) (polyEval h.block.fpoly x b) h.block.fpoly) ∧
    (mulPolynomials lat [] (b.map zext32) h = (.ok [], h) ∧ mulPolynomials lat (a.map zext32) [] h = (.ok [], h))

/-- findAllGenerators (spec/41_generator_validator.md): the candidates 2 to 254 that pass the generator test, ascending. -/
def Obligations.FindAllGeneratorsScans2To254 : Prop :=
  ∀ (lat : Nat → Nat) (p : Word) (h : HostRun), p.toNat ≤ 0xFFFF → h.block.busy = false → h.block.port = [] →
    (findAllGenerators lat p h).1 =
      .ok (((List.range' 2 253).filter fun c => isgen (p.setWidth 16) (BitVec.ofNat 8 c)).map (BitVec.ofNat 32))

/-- makePolynomial (spec/46_random_polynomial_host.md): its two errors, and otherwise the intercept and the `degree` bytes that
the random source answers (log entries 10 and 17). -/
def Obligations.MakePolynomialDrawsItsCoefficients : Prop :=
  ∀ (call intercept : Nat) (degree : Int),
    (degree < 0 → makePolynomial call intercept degree = .error .negativeDegree) ∧
    (0 ≤ degree → 255 < intercept → makePolynomial call intercept degree = .error (.block 1#4)) ∧
    (0 ≤ degree → intercept ≤ 255 → (randomBytes call degree.toNat).length = degree.toNat ∧
      makePolynomial call intercept degree =
        .ok (BitVec.ofNat 32 intercept :: (randomBytes call degree.toNat).map zext32))
end

