-- ==== Sys2Proof/Laws/State.lean ====
section
/-! SUPPORT. Laws/State.lean: one lemma per field per update of State, each true by rfl, so that no proof unfolds a record
update. -/

namespace Sys2Proof
namespace Machine

@[simp] theorem acceptCommand_busy (w : Word) (s : State) : (acceptCommand w s).busy = true := rfl
@[simp] theorem acceptCommand_fv (w : Word) (s : State) : (acceptCommand w s).fv = s.fv := rfl
@[simp] theorem acceptCommand_coll (w : Word) (s : State) : (acceptCommand w s).coll = s.coll := rfl
@[simp] theorem acceptCommand_err (w : Word) (s : State) : (acceptCommand w s).err = s.err := rfl
@[simp] theorem acceptCommand_opa (w : Word) (s : State) : (acceptCommand w s).opa = s.opa := rfl
@[simp] theorem acceptCommand_opb (w : Word) (s : State) : (acceptCommand w s).opb = s.opb := rfl
@[simp] theorem acceptCommand_result (w : Word) (s : State) : (acceptCommand w s).result = s.result := rfl
@[simp] theorem acceptCommand_poly (w : Word) (s : State) : (acceptCommand w s).poly = s.poly := rfl
@[simp] theorem acceptCommand_gen (w : Word) (s : State) : (acceptCommand w s).gen = s.gen := rfl
@[simp] theorem acceptCommand_nsamp (w : Word) (s : State) : (acceptCommand w s).nsamp = s.nsamp := rfl
@[simp] theorem acceptCommand_fpoly (w : Word) (s : State) : (acceptCommand w s).fpoly = s.fpoly := rfl
@[simp] theorem acceptCommand_fgen (w : Word) (s : State) : (acceptCommand w s).fgen = s.fgen := rfl
@[simp] theorem acceptCommand_mem (w : Word) (s : State) : (acceptCommand w s).mem = s.mem := rfl
@[simp] theorem acceptCommand_pend (w : Word) (s : State) : (acceptCommand w s).pend = w := rfl
@[simp] theorem acceptCommand_port (w : Word) (s : State) : (acceptCommand w s).port = s.port := rfl
@[simp] theorem acceptCommand_resp (w : Word) (s : State) : (acceptCommand w s).resp = s.resp := rfl
@[simp] theorem acceptCommand_tick (w : Word) (s : State) : (acceptCommand w s).tick = s.tick := rfl

@[simp] theorem applyWrites_result_busy (v : Byte) (s : State) : (applyWrites (.result v) s).busy = s.busy := rfl
@[simp] theorem applyWrites_result_fv (v : Byte) (s : State) : (applyWrites (.result v) s).fv = s.fv := rfl
@[simp] theorem applyWrites_result_coll (v : Byte) (s : State) : (applyWrites (.result v) s).coll = s.coll := rfl
@[simp] theorem applyWrites_result_err (v : Byte) (s : State) : (applyWrites (.result v) s).err = s.err := rfl
@[simp] theorem applyWrites_result_opa (v : Byte) (s : State) : (applyWrites (.result v) s).opa = s.opa := rfl
@[simp] theorem applyWrites_result_opb (v : Byte) (s : State) : (applyWrites (.result v) s).opb = s.opb := rfl
@[simp] theorem applyWrites_result_result (v : Byte) (s : State) : (applyWrites (.result v) s).result = v := rfl
@[simp] theorem applyWrites_result_poly (v : Byte) (s : State) : (applyWrites (.result v) s).poly = s.poly := rfl
@[simp] theorem applyWrites_result_gen (v : Byte) (s : State) : (applyWrites (.result v) s).gen = s.gen := rfl
@[simp] theorem applyWrites_result_nsamp (v : Byte) (s : State) : (applyWrites (.result v) s).nsamp = s.nsamp := rfl
@[simp] theorem applyWrites_result_fpoly (v : Byte) (s : State) : (applyWrites (.result v) s).fpoly = s.fpoly := rfl
@[simp] theorem applyWrites_result_fgen (v : Byte) (s : State) : (applyWrites (.result v) s).fgen = s.fgen := rfl
@[simp] theorem applyWrites_result_mem (v : Byte) (s : State) : (applyWrites (.result v) s).mem = s.mem := rfl
@[simp] theorem applyWrites_result_pend (v : Byte) (s : State) : (applyWrites (.result v) s).pend = s.pend := rfl
@[simp] theorem applyWrites_result_port (v : Byte) (s : State) : (applyWrites (.result v) s).port = s.port := rfl
@[simp] theorem applyWrites_result_resp (v : Byte) (s : State) : (applyWrites (.result v) s).resp = s.resp := rfl
@[simp] theorem applyWrites_result_tick (v : Byte) (s : State) : (applyWrites (.result v) s).tick = s.tick := rfl

@[simp] theorem applyWrites_field_busy (p : Half) (g : Byte) (E L : Cells Byte) (s : State) : (applyWrites (.field p g E L) s).busy = s.busy := rfl
@[simp] theorem applyWrites_field_fv (p : Half) (g : Byte) (E L : Cells Byte) (s : State) : (applyWrites (.field p g E L) s).fv = true := rfl
@[simp] theorem applyWrites_field_coll (p : Half) (g : Byte) (E L : Cells Byte) (s : State) : (applyWrites (.field p g E L) s).coll = s.coll := rfl
@[simp] theorem applyWrites_field_err (p : Half) (g : Byte) (E L : Cells Byte) (s : State) : (applyWrites (.field p g E L) s).err = s.err := rfl
@[simp] theorem applyWrites_field_opa (p : Half) (g : Byte) (E L : Cells Byte) (s : State) : (applyWrites (.field p g E L) s).opa = s.opa := rfl
@[simp] theorem applyWrites_field_opb (p : Half) (g : Byte) (E L : Cells Byte) (s : State) : (applyWrites (.field p g E L) s).opb = s.opb := rfl
@[simp] theorem applyWrites_field_result (p : Half) (g : Byte) (E L : Cells Byte) (s : State) : (applyWrites (.field p g E L) s).result = s.result := rfl
@[simp] theorem applyWrites_field_poly (p : Half) (g : Byte) (E L : Cells Byte) (s : State) : (applyWrites (.field p g E L) s).poly = s.poly := rfl
@[simp] theorem applyWrites_field_gen (p : Half) (g : Byte) (E L : Cells Byte) (s : State) : (applyWrites (.field p g E L) s).gen = s.gen := rfl
@[simp] theorem applyWrites_field_nsamp (p : Half) (g : Byte) (E L : Cells Byte) (s : State) : (applyWrites (.field p g E L) s).nsamp = s.nsamp := rfl
@[simp] theorem applyWrites_field_fpoly (p : Half) (g : Byte) (E L : Cells Byte) (s : State) : (applyWrites (.field p g E L) s).fpoly = p := rfl
@[simp] theorem applyWrites_field_fgen (p : Half) (g : Byte) (E L : Cells Byte) (s : State) : (applyWrites (.field p g E L) s).fgen = g := rfl
@[simp] theorem applyWrites_field_mem (p : Half) (g : Byte) (E L : Cells Byte) (s : State) : (applyWrites (.field p g E L) s).mem = { s.mem with exp := E, log := L } := rfl
@[simp] theorem applyWrites_field_pend (p : Half) (g : Byte) (E L : Cells Byte) (s : State) : (applyWrites (.field p g E L) s).pend = s.pend := rfl
@[simp] theorem applyWrites_field_port (p : Half) (g : Byte) (E L : Cells Byte) (s : State) : (applyWrites (.field p g E L) s).port = s.port := rfl
@[simp] theorem applyWrites_field_resp (p : Half) (g : Byte) (E L : Cells Byte) (s : State) : (applyWrites (.field p g E L) s).resp = s.resp := rfl
@[simp] theorem applyWrites_field_tick (p : Half) (g : Byte) (E L : Cells Byte) (s : State) : (applyWrites (.field p g E L) s).tick = s.tick := rfl

@[simp] theorem endCommand_busy (c : BitVec 4) (s : State) : (endCommand c s).busy = false := rfl
@[simp] theorem endCommand_fv (c : BitVec 4) (s : State) : (endCommand c s).fv = s.fv := rfl
@[simp] theorem endCommand_coll (c : BitVec 4) (s : State) : (endCommand c s).coll = s.coll := rfl
@[simp] theorem endCommand_err (c : BitVec 4) (s : State) : (endCommand c s).err = c := rfl
@[simp] theorem endCommand_opa (c : BitVec 4) (s : State) : (endCommand c s).opa = s.opa := rfl
@[simp] theorem endCommand_opb (c : BitVec 4) (s : State) : (endCommand c s).opb = s.opb := rfl
@[simp] theorem endCommand_result (c : BitVec 4) (s : State) : (endCommand c s).result = s.result := rfl
@[simp] theorem endCommand_poly (c : BitVec 4) (s : State) : (endCommand c s).poly = s.poly := rfl
@[simp] theorem endCommand_gen (c : BitVec 4) (s : State) : (endCommand c s).gen = s.gen := rfl
@[simp] theorem endCommand_nsamp (c : BitVec 4) (s : State) : (endCommand c s).nsamp = s.nsamp := rfl
@[simp] theorem endCommand_fpoly (c : BitVec 4) (s : State) : (endCommand c s).fpoly = s.fpoly := rfl
@[simp] theorem endCommand_fgen (c : BitVec 4) (s : State) : (endCommand c s).fgen = s.fgen := rfl
@[simp] theorem endCommand_mem (c : BitVec 4) (s : State) : (endCommand c s).mem = s.mem := rfl
@[simp] theorem endCommand_pend (c : BitVec 4) (s : State) : (endCommand c s).pend = s.pend := rfl
@[simp] theorem endCommand_port (c : BitVec 4) (s : State) : (endCommand c s).port = s.port := rfl
@[simp] theorem endCommand_resp (c : BitVec 4) (s : State) : (endCommand c s).resp = s.resp := rfl
@[simp] theorem endCommand_tick (c : BitVec 4) (s : State) : (endCommand c s).tick = s.tick + 1 := rfl

@[simp] theorem raiseError_busy (e : CmdError) (s : State) : (raiseError e s).busy = false := rfl
@[simp] theorem raiseError_fv (e : CmdError) (s : State) : (raiseError e s).fv = s.fv := rfl
@[simp] theorem raiseError_coll (e : CmdError) (s : State) : (raiseError e s).coll = s.coll := rfl
@[simp] theorem raiseError_err (e : CmdError) (s : State) : (raiseError e s).err = e.code := rfl
@[simp] theorem raiseError_opa (e : CmdError) (s : State) : (raiseError e s).opa = s.opa := rfl
@[simp] theorem raiseError_opb (e : CmdError) (s : State) : (raiseError e s).opb = s.opb := rfl
@[simp] theorem raiseError_result (e : CmdError) (s : State) : (raiseError e s).result = s.result := rfl
@[simp] theorem raiseError_poly (e : CmdError) (s : State) : (raiseError e s).poly = s.poly := rfl
@[simp] theorem raiseError_gen (e : CmdError) (s : State) : (raiseError e s).gen = s.gen := rfl
@[simp] theorem raiseError_nsamp (e : CmdError) (s : State) : (raiseError e s).nsamp = s.nsamp := rfl
@[simp] theorem raiseError_fpoly (e : CmdError) (s : State) : (raiseError e s).fpoly = s.fpoly := rfl
@[simp] theorem raiseError_fgen (e : CmdError) (s : State) : (raiseError e s).fgen = s.fgen := rfl
@[simp] theorem raiseError_mem (e : CmdError) (s : State) : (raiseError e s).mem = s.mem := rfl
@[simp] theorem raiseError_pend (e : CmdError) (s : State) : (raiseError e s).pend = s.pend := rfl
@[simp] theorem raiseError_port (e : CmdError) (s : State) : (raiseError e s).port = s.port := rfl
@[simp] theorem raiseError_resp (e : CmdError) (s : State) : (raiseError e s).resp = s.resp := rfl
@[simp] theorem raiseError_tick (e : CmdError) (s : State) : (raiseError e s).tick = s.tick + 1 := rfl

@[simp] theorem writeStatus_busy (v : Word) (s : State) : (writeStatus v s).busy = s.busy := rfl
@[simp] theorem writeStatus_fv (v : Word) (s : State) : (writeStatus v s).fv = s.fv := rfl
@[simp] theorem writeStatus_coll (v : Word) (s : State) : (writeStatus v s).coll = (s.coll && !v.getLsbD 2) := rfl
@[simp] theorem writeStatus_err (v : Word) (s : State) : (writeStatus v s).err = s.err := rfl
@[simp] theorem writeStatus_opa (v : Word) (s : State) : (writeStatus v s).opa = s.opa := rfl
@[simp] theorem writeStatus_opb (v : Word) (s : State) : (writeStatus v s).opb = s.opb := rfl
@[simp] theorem writeStatus_result (v : Word) (s : State) : (writeStatus v s).result = s.result := rfl
@[simp] theorem writeStatus_poly (v : Word) (s : State) : (writeStatus v s).poly = s.poly := rfl
@[simp] theorem writeStatus_gen (v : Word) (s : State) : (writeStatus v s).gen = s.gen := rfl
@[simp] theorem writeStatus_nsamp (v : Word) (s : State) : (writeStatus v s).nsamp = s.nsamp := rfl
@[simp] theorem writeStatus_fpoly (v : Word) (s : State) : (writeStatus v s).fpoly = s.fpoly := rfl
@[simp] theorem writeStatus_fgen (v : Word) (s : State) : (writeStatus v s).fgen = s.fgen := rfl
@[simp] theorem writeStatus_mem (v : Word) (s : State) : (writeStatus v s).mem = s.mem := rfl
@[simp] theorem writeStatus_pend (v : Word) (s : State) : (writeStatus v s).pend = s.pend := rfl
@[simp] theorem writeStatus_port (v : Word) (s : State) : (writeStatus v s).port = s.port := rfl
@[simp] theorem writeStatus_resp (v : Word) (s : State) : (writeStatus v s).resp = s.resp := rfl
@[simp] theorem writeStatus_tick (v : Word) (s : State) : (writeStatus v s).tick = s.tick := rfl

@[simp] theorem discardWrite_busy (s : State) : (discardWrite s).busy = s.busy := rfl
@[simp] theorem discardWrite_fv (s : State) : (discardWrite s).fv = s.fv := rfl
@[simp] theorem discardWrite_coll (s : State) : (discardWrite s).coll = true := rfl
@[simp] theorem discardWrite_err (s : State) : (discardWrite s).err = s.err := rfl
@[simp] theorem discardWrite_opa (s : State) : (discardWrite s).opa = s.opa := rfl
@[simp] theorem discardWrite_opb (s : State) : (discardWrite s).opb = s.opb := rfl
@[simp] theorem discardWrite_result (s : State) : (discardWrite s).result = s.result := rfl
@[simp] theorem discardWrite_poly (s : State) : (discardWrite s).poly = s.poly := rfl
@[simp] theorem discardWrite_gen (s : State) : (discardWrite s).gen = s.gen := rfl
@[simp] theorem discardWrite_nsamp (s : State) : (discardWrite s).nsamp = s.nsamp := rfl
@[simp] theorem discardWrite_fpoly (s : State) : (discardWrite s).fpoly = s.fpoly := rfl
@[simp] theorem discardWrite_fgen (s : State) : (discardWrite s).fgen = s.fgen := rfl
@[simp] theorem discardWrite_mem (s : State) : (discardWrite s).mem = s.mem := rfl
@[simp] theorem discardWrite_pend (s : State) : (discardWrite s).pend = s.pend := rfl
@[simp] theorem discardWrite_port (s : State) : (discardWrite s).port = s.port := rfl
@[simp] theorem discardWrite_resp (s : State) : (discardWrite s).resp = s.resp := rfl
@[simp] theorem discardWrite_tick (s : State) : (discardWrite s).tick = s.tick := rfl

@[simp] theorem writeSx_busy (i : Nat) (v : Word) (s : State) : (writeSx i v s).busy = s.busy := rfl
@[simp] theorem writeSx_fv (i : Nat) (v : Word) (s : State) : (writeSx i v s).fv = s.fv := rfl
@[simp] theorem writeSx_coll (i : Nat) (v : Word) (s : State) : (writeSx i v s).coll = s.coll := rfl
@[simp] theorem writeSx_err (i : Nat) (v : Word) (s : State) : (writeSx i v s).err = s.err := rfl
@[simp] theorem writeSx_opa (i : Nat) (v : Word) (s : State) : (writeSx i v s).opa = s.opa := rfl
@[simp] theorem writeSx_opb (i : Nat) (v : Word) (s : State) : (writeSx i v s).opb = s.opb := rfl
@[simp] theorem writeSx_result (i : Nat) (v : Word) (s : State) : (writeSx i v s).result = s.result := rfl
@[simp] theorem writeSx_poly (i : Nat) (v : Word) (s : State) : (writeSx i v s).poly = s.poly := rfl
@[simp] theorem writeSx_gen (i : Nat) (v : Word) (s : State) : (writeSx i v s).gen = s.gen := rfl
@[simp] theorem writeSx_nsamp (i : Nat) (v : Word) (s : State) : (writeSx i v s).nsamp = s.nsamp := rfl
@[simp] theorem writeSx_fpoly (i : Nat) (v : Word) (s : State) : (writeSx i v s).fpoly = s.fpoly := rfl
@[simp] theorem writeSx_fgen (i : Nat) (v : Word) (s : State) : (writeSx i v s).fgen = s.fgen := rfl
@[simp] theorem writeSx_mem (i : Nat) (v : Word) (s : State) : (writeSx i v s).mem = { s.mem with sx := Cells.set i v s.mem.sx } := rfl
@[simp] theorem writeSx_pend (i : Nat) (v : Word) (s : State) : (writeSx i v s).pend = s.pend := rfl
@[simp] theorem writeSx_port (i : Nat) (v : Word) (s : State) : (writeSx i v s).port = s.port := rfl
@[simp] theorem writeSx_resp (i : Nat) (v : Word) (s : State) : (writeSx i v s).resp = s.resp := rfl
@[simp] theorem writeSx_tick (i : Nat) (v : Word) (s : State) : (writeSx i v s).tick = s.tick := rfl

@[simp] theorem writeSy_busy (i : Nat) (v : Word) (s : State) : (writeSy i v s).busy = s.busy := rfl
@[simp] theorem writeSy_fv (i : Nat) (v : Word) (s : State) : (writeSy i v s).fv = s.fv := rfl
@[simp] theorem writeSy_coll (i : Nat) (v : Word) (s : State) : (writeSy i v s).coll = s.coll := rfl
@[simp] theorem writeSy_err (i : Nat) (v : Word) (s : State) : (writeSy i v s).err = s.err := rfl
@[simp] theorem writeSy_opa (i : Nat) (v : Word) (s : State) : (writeSy i v s).opa = s.opa := rfl
@[simp] theorem writeSy_opb (i : Nat) (v : Word) (s : State) : (writeSy i v s).opb = s.opb := rfl
@[simp] theorem writeSy_result (i : Nat) (v : Word) (s : State) : (writeSy i v s).result = s.result := rfl
@[simp] theorem writeSy_poly (i : Nat) (v : Word) (s : State) : (writeSy i v s).poly = s.poly := rfl
@[simp] theorem writeSy_gen (i : Nat) (v : Word) (s : State) : (writeSy i v s).gen = s.gen := rfl
@[simp] theorem writeSy_nsamp (i : Nat) (v : Word) (s : State) : (writeSy i v s).nsamp = s.nsamp := rfl
@[simp] theorem writeSy_fpoly (i : Nat) (v : Word) (s : State) : (writeSy i v s).fpoly = s.fpoly := rfl
@[simp] theorem writeSy_fgen (i : Nat) (v : Word) (s : State) : (writeSy i v s).fgen = s.fgen := rfl
@[simp] theorem writeSy_mem (i : Nat) (v : Word) (s : State) : (writeSy i v s).mem = { s.mem with sy := Cells.set i v s.mem.sy } := rfl
@[simp] theorem writeSy_pend (i : Nat) (v : Word) (s : State) : (writeSy i v s).pend = s.pend := rfl
@[simp] theorem writeSy_port (i : Nat) (v : Word) (s : State) : (writeSy i v s).port = s.port := rfl
@[simp] theorem writeSy_resp (i : Nat) (v : Word) (s : State) : (writeSy i v s).resp = s.resp := rfl
@[simp] theorem writeSy_tick (i : Nat) (v : Word) (s : State) : (writeSy i v s).tick = s.tick := rfl

@[simp] theorem respond_busy (r : Response) (s : State) : (respond r s).busy = s.busy := rfl
@[simp] theorem respond_fv (r : Response) (s : State) : (respond r s).fv = s.fv := rfl
@[simp] theorem respond_coll (r : Response) (s : State) : (respond r s).coll = s.coll := rfl
@[simp] theorem respond_err (r : Response) (s : State) : (respond r s).err = s.err := rfl
@[simp] theorem respond_opa (r : Response) (s : State) : (respond r s).opa = s.opa := rfl
@[simp] theorem respond_opb (r : Response) (s : State) : (respond r s).opb = s.opb := rfl
@[simp] theorem respond_result (r : Response) (s : State) : (respond r s).result = s.result := rfl
@[simp] theorem respond_poly (r : Response) (s : State) : (respond r s).poly = s.poly := rfl
@[simp] theorem respond_gen (r : Response) (s : State) : (respond r s).gen = s.gen := rfl
@[simp] theorem respond_nsamp (r : Response) (s : State) : (respond r s).nsamp = s.nsamp := rfl
@[simp] theorem respond_fpoly (r : Response) (s : State) : (respond r s).fpoly = s.fpoly := rfl
@[simp] theorem respond_fgen (r : Response) (s : State) : (respond r s).fgen = s.fgen := rfl
@[simp] theorem respond_mem (r : Response) (s : State) : (respond r s).mem = s.mem := rfl
@[simp] theorem respond_pend (r : Response) (s : State) : (respond r s).pend = s.pend := rfl
@[simp] theorem respond_port (r : Response) (s : State) : (respond r s).port = s.port := rfl
@[simp] theorem respond_resp (r : Response) (s : State) : (respond r s).resp = some r := rfl
@[simp] theorem respond_tick (r : Response) (s : State) : (respond r s).tick = s.tick + 1 := rfl

@[simp] theorem resetBlock_busy (s : State) : (resetBlock s).busy = false := rfl
@[simp] theorem resetBlock_fv (s : State) : (resetBlock s).fv = false := rfl
@[simp] theorem resetBlock_coll (s : State) : (resetBlock s).coll = false := rfl
@[simp] theorem resetBlock_err (s : State) : (resetBlock s).err = 0#4 := rfl
@[simp] theorem resetBlock_opa (s : State) : (resetBlock s).opa = 0#32 := rfl
@[simp] theorem resetBlock_opb (s : State) : (resetBlock s).opb = 0#32 := rfl
@[simp] theorem resetBlock_result (s : State) : (resetBlock s).result = 0#8 := rfl
@[simp] theorem resetBlock_poly (s : State) : (resetBlock s).poly = Config.resetPoly := rfl
@[simp] theorem resetBlock_gen (s : State) : (resetBlock s).gen = Config.resetGen := rfl
@[simp] theorem resetBlock_nsamp (s : State) : (resetBlock s).nsamp = 0#32 := rfl
@[simp] theorem resetBlock_fpoly (s : State) : (resetBlock s).fpoly = 0#16 := rfl
@[simp] theorem resetBlock_fgen (s : State) : (resetBlock s).fgen = 0#8 := rfl
@[simp] theorem resetBlock_mem (s : State) : (resetBlock s).mem = { exp := [], log := [], sx := [], sy := [] } := rfl
@[simp] theorem resetBlock_pend (s : State) : (resetBlock s).pend = 0#32 := rfl
@[simp] theorem resetBlock_port (s : State) : (resetBlock s).port = s.port := rfl
@[simp] theorem resetBlock_resp (s : State) : (resetBlock s).resp = s.resp := rfl
@[simp] theorem resetBlock_tick (s : State) : (resetBlock s).tick = s.tick + 1 := rfl

end Machine
end Sys2Proof
end

