-- ==== Sys2Proof/Laws/Bus.lean ====
section
/-! SUPPORT. Laws/Bus.lean: what stands at each offset, what an access can do, and what one step can do. -/

namespace Sys2Proof
namespace Laws
namespace Bus

open Sys2Proof.Machine

/-- The map of spec/20_memory.md R55 is the inverse of the names' offsets (spec/30_encoding.md R84). -/
theorem targetAt_offset {t : Target} (h : t.wf = true) : targetAt t.offset = t := by
  cases t with
  | exp i =>
    have hi : i < 512 := of_decide_eq_true h
    have e : (Target.offset (.exp i)).toNat = 0x400 + 4 * i := by simp [Target.offset]; omega
    simp only [targetAt, e]
    rw [if_neg (by omega), if_neg (by omega), if_pos (by omega)]
    congr 1
    omega
  | log i =>
    have hi : i < 256 := of_decide_eq_true h
    have e : (Target.offset (.log i)).toNat = 0xC00 + 4 * i := by simp [Target.offset]; omega
    simp only [targetAt, e]
    rw [if_neg (by omega), if_neg (by omega), if_neg (by omega), if_pos (by omega)]
    congr 1
    omega
  | sx i =>
    have hi : i < 256 := of_decide_eq_true h
    have e : (Target.offset (.sx i)).toNat = 0x1000 + 8 * i := by simp [Target.offset]; omega
    simp only [targetAt, e]
    rw [if_neg (by omega), if_neg (by omega), if_neg (by omega), if_neg (by omega), if_pos (by omega), if_pos (by omega)]
    congr 1
    omega
  | sy i =>
    have hi : i < 256 := of_decide_eq_true h
    have e : (Target.offset (.sy i)).toNat = 0x1004 + 8 * i := by simp [Target.offset]; omega
    simp only [targetAt, e]
    rw [if_neg (by omega), if_neg (by omega), if_neg (by omega), if_neg (by omega), if_pos (by omega), if_neg (by omega)]
    congr 1
    omega
  | reserved => simp [Target.wf] at h
  | _ => rfl

/-- Every named offset is aligned. -/
theorem legalAccess_offset {t : Target} (h : t.wf = true) : legalAccess t.offset 4 = true := by
  cases t with
  | exp i => have hi : i < 512 := of_decide_eq_true h
             simp [legalAccess, Target.offset]
  | log i => have hi : i < 256 := of_decide_eq_true h
             simp [legalAccess, Target.offset]
  | sx i => have hi : i < 256 := of_decide_eq_true h
            simp [legalAccess, Target.offset]; omega
  | sy i => have hi : i < 256 := of_decide_eq_true h
            simp [legalAccess, Target.offset]; omega
  | reserved => simp [Target.wf] at h
  | _ => rfl

/-- An index of the map is within its array. -/
theorem targetAt_wf (off : Offset) : targetAt off = .reserved ∨ (targetAt off).wf = true := by
  have hlt : off.toNat < 0x2000 := off.isLt
  simp only [targetAt]
  split
  · generalize off.toNat / 4 = k
    rcases k with _ | _ | _ | _ | _ | _ | _ | _ | _ | _ | k <;> simp [registerAt, Target.wf]
  · split
    · exact .inl rfl
    · split
      · right; exact decide_eq_true (show _ < 512 by omega)
      · split
        · right; exact decide_eq_true (show _ < 256 by omega)
        · split
          · right
            split <;> exact decide_eq_true (show _ < 256 by omega)
          · exact .inl rfl

/-- An illegal access gets ERROR (spec/20_memory.md R58). -/
theorem accessBus_illegal_read {off : Offset} {n : Nat} (h : legalAccess off n = false) (s : State) :
    accessBus (.read off n) s = respond .error s := by simp [accessBus, h]

theorem accessBus_illegal_write {off : Offset} {n : Nat} (v : Word) (h : legalAccess off n = false) (s : State) :
    accessBus (.write off n v) s = respond .error s := by simp [accessBus, h]

theorem accessBus_read {off : Offset} {n : Nat} (h : legalAccess off n = true) (s : State) :
    accessBus (.read off n) s =
      match readTarget s (targetAt off) with
      | some v => respond (.data v) s
      | none => respond .error s := if_pos h

theorem accessBus_write {off : Offset} {n : Nat} (v : Word) (h : legalAccess off n = true) (s : State) :
    accessBus (.write off n v) s =
      match writeTarget s (targetAt off) v with
      | some t => respond .okay t
      | none => respond .error s := if_pos h

/-- A read only responds (spec/20_memory.md R64). -/
theorem accessBus_read_cases (off : Offset) (n : Nat) (s : State) : ∃ r, accessBus (.read off n) s = respond r s := by
  cases h : legalAccess off n with
  | false => exact ⟨_, accessBus_illegal_read h s⟩
  | true =>
    rw [accessBus_read h]
    cases readTarget s (targetAt off) with
    | some v => exact ⟨_, rfl⟩
    | none => exact ⟨_, rfl⟩

/-- A write while BUSY leaves the block as it is, or only changes COLL (spec/20_memory.md R63). -/
theorem writeTarget_busy {s t : State} {target : Target} {v : Word} (hb : s.busy = true)
    (h : writeTarget s target v = some t) : ∃ c, t = { s with coll := c } := by
  cases target <;> simp only [writeTarget, unlessBusy, hb, if_true, Option.some.injEq, reduceCtorEq] at h <;>
    exact ⟨_, h.symm⟩

/-- The engine's turn: the pending word completes. -/
theorem step_engine {s : State} (h : engineTurn s = true) : step s = completePending s := by simp [step, h]

/-- The port's turn. -/
theorem step_port {s : State} (h : engineTurn s = false) : step s = .next (portTurn s) := by simp [step, h]

theorem engineTurn_head {s : State} {e : PortEntry} {rest : List PortEntry} (hp : s.port = e :: rest)
    (h : s.busy = false ∨ e.engineFirst = false) : engineTurn s = false := by
  rcases h with h | h <;> simp [engineTurn, hp, h]

/-- The next event, where no completion comes before it. -/
theorem step_event {s : State} {e : PortEntry} {rest : List PortEntry} (hp : s.port = e :: rest)
    (h : s.busy = false ∨ e.engineFirst = false) : step s = .next (portEvent e.event { s with port := rest }) := by
  rw [step_port (engineTurn_head hp h), portTurn, hp]

/-- Everything a step can do: the pending command or reserved word completes, the next event happens, or the block idles. -/
theorem step_cases (s : State) :
    (engineTurn s = true ∧ s.busy = true ∧ ∃ i, decode s.pend = .command i ∧ step s = exec i s) ∨
    (engineTurn s = true ∧ s.busy = true ∧ ∃ why, decode s.pend = .illegal why ∧ step s = .next (completeIllegal s)) ∨
    (engineTurn s = false ∧ ∃ e rest, s.port = e :: rest ∧ (s.busy = false ∨ e.engineFirst = false) ∧
      step s = .next (portEvent e.event { s with port := rest })) ∨
    (engineTurn s = false ∧ s.busy = false ∧ s.port = [] ∧ step s = .next s) := by
  cases h : engineTurn s with
  | true =>
    have hb : s.busy = true := by simp only [engineTurn, Bool.and_eq_true] at h; exact h.1
    rw [step_engine h, completePending]
    cases hd : decode s.pend with
    | command i => exact .inl ⟨rfl, hb, i, rfl, rfl⟩
    | illegal why => exact .inr (.inl ⟨rfl, hb, why, rfl, rfl⟩)
  | false =>
    rw [step_port h, portTurn]
    cases hp : s.port with
    | nil =>
      have hb : s.busy = false := by simpa [engineTurn, hp] using h
      exact .inr (.inr (.inr ⟨rfl, hb, rfl, rfl⟩))
    | cons e rest =>
      have hb : s.busy = false ∨ e.engineFirst = false := by
        rw [engineTurn, hp] at h
        exact (Bool.and_eq_false_iff).1 h
      exact .inr (.inr (.inl ⟨rfl, e, rest, rfl, hb, rfl⟩))

/-- A placed command word is the next step. -/
theorem engineTurn_withPending (w : Word) (s : State) : engineTurn (withPending w s) = true := by
  cases h : s.port <;> simp [withPending, engineTurn, afterCompletion, h]

/-- A host address in the window reaches its offset (spec/20_memory.md R53). -/
theorem offsetOf_hostAddress (off : Offset) : offsetOf (hostAddress off) = some off := by
  have h : off.toNat < 0x2000 := off.isLt
  rw [offsetOf, hostAddress, if_pos (by omega), Nat.add_sub_cancel_left]
  simp

end Bus
end Laws
end Sys2Proof
end

