-- ==== Sys2Proof/Laws/Cells.lean ====
section
/-! SUPPORT. Laws/Cells.lean: reading after writing, the canonical form and that every memory operation keeps it, and that two
arrays in canonical form with the same content are the same data. -/

namespace Sys2Proof
namespace Laws
namespace Cells

open Sys2Proof.Machine

variable {α : Type}

@[simp] theorem get_nil (i : Nat) : Cells.get i ([] : Machine.Cells α) = none := rfl

theorem get_cons (i j : Nat) (w : α) (cs : Machine.Cells α) :
    Cells.get i ((j, w) :: cs) = if i = j then some w else Cells.get i cs := rfl

/-- A write is read back. -/
@[simp] theorem get_set_same (i : Nat) (v : α) (cs : Machine.Cells α) : Cells.get i (Cells.set i v cs) = some v := by
  induction cs with
  | nil => simp [Machine.Cells.set, Machine.Cells.get]
  | cons c cs ih =>
    obtain ⟨j, w⟩ := c
    simp only [Machine.Cells.set]
    split
    · simp [Machine.Cells.get]
    · split
      · simp [Machine.Cells.get]
      · simp [Machine.Cells.get, *]

/-- A write leaves every other cell alone. -/
theorem get_set_other {i k : Nat} (h : k ≠ i) (v : α) (cs : Machine.Cells α) :
    Cells.get k (Cells.set i v cs) = Cells.get k cs := by
  induction cs with
  | nil => simp [Machine.Cells.set, Machine.Cells.get, h]
  | cons c cs ih =>
    obtain ⟨j, w⟩ := c
    simp only [Machine.Cells.set]
    split
    · simp [Machine.Cells.get, h]
    · split
      · next _ hij => subst hij; simp [Machine.Cells.get, h]
      · simp [Machine.Cells.get, ih]

/-- The entries of a write are the written one and old ones. -/
theorem mem_set {i : Nat} {v : α} {cs : Machine.Cells α} {c : Nat × α} (h : c ∈ Cells.set i v cs) :
    c = (i, v) ∨ c ∈ cs := by
  induction cs with
  | nil => simpa [Machine.Cells.set] using h
  | cons d cs ih =>
    obtain ⟨j, w⟩ := d
    simp only [Machine.Cells.set] at h
    split at h
    · simpa using h
    · split at h
      · rcases List.mem_cons.1 h with h | h
        · exact .inl h
        · exact .inr (List.mem_cons_of_mem _ h)
      · rcases List.mem_cons.1 h with h | h
        · exact .inr (by simp [h])
        · rcases ih h with h | h
          · exact .inl h
          · exact .inr (List.mem_cons_of_mem _ h)

/-- The canonical form, as a relation between neighbours and beyond. -/
theorem rising_iff (cs : Machine.Cells α) : Cells.rising cs = true ↔ cs.Pairwise (fun a b => a.1 < b.1) := by
  induction cs with
  | nil => simp [Machine.Cells.rising]
  | cons c cs ih =>
    obtain ⟨i, v⟩ := c
    cases cs with
    | nil => simp [Machine.Cells.rising]
    | cons d cs =>
      obtain ⟨j, w⟩ := d
      simp only [Machine.Cells.rising, Bool.and_eq_true, decide_eq_true_eq, ih, List.pairwise_cons]
      constructor
      · rintro ⟨hij, hj, hp⟩
        refine ⟨fun b hb => ?_, hj, hp⟩
        rcases List.mem_cons.1 hb with rfl | hb
        · exact hij
        · exact Nat.lt_trans hij (hj b hb)
      · rintro ⟨hi, hj, hp⟩
        exact ⟨hi _ List.mem_cons_self, hj, hp⟩

theorem wf_iff (depth : Nat) (cs : Machine.Cells α) :
    Cells.wf depth cs = true ↔ cs.Pairwise (fun a b => a.1 < b.1) ∧ ∀ c ∈ cs, c.1 < depth := by
  simp [Machine.Cells.wf, rising_iff]

/-- A write keeps the order. -/
theorem rising_set {cs : Machine.Cells α} (i : Nat) (v : α) (h : cs.Pairwise (fun a b => a.1 < b.1)) :
    (Cells.set i v cs).Pairwise (fun a b => a.1 < b.1) := by
  induction cs with
  | nil => simp [Machine.Cells.set]
  | cons d cs ih =>
    obtain ⟨j, w⟩ := d
    rw [List.pairwise_cons] at h
    obtain ⟨hj, hp⟩ := h
    simp only [Machine.Cells.set]
    split
    · next hij =>
      refine List.pairwise_cons.2 ⟨fun b hb => ?_, List.pairwise_cons.2 ⟨hj, hp⟩⟩
      rcases List.mem_cons.1 hb with rfl | hb
      · exact hij
      · exact Nat.lt_trans hij (hj b hb)
    · split
      · next hij => subst hij; exact List.pairwise_cons.2 ⟨hj, hp⟩
      · refine List.pairwise_cons.2 ⟨fun b hb => ?_, ih hp⟩
        rcases mem_set hb with rfl | hb
        · simp only; omega
        · exact hj b hb

/-- A write within the depth keeps the canonical form. -/
theorem wf_set {depth i : Nat} (v : α) {cs : Machine.Cells α} (hi : i < depth) (h : Cells.wf depth cs = true) :
    Cells.wf depth (Cells.set i v cs) = true := by
  rw [wf_iff] at h ⊢
  refine ⟨rising_set i v h.1, fun c hc => ?_⟩
  rcases mem_set hc with rfl | hc
  · exact hi
  · exact h.2 c hc

/-- A cell below every listed one is unspecified. -/
theorem get_none_of_lt {i : Nat} {cs : Machine.Cells α} (h : ∀ c ∈ cs, i < c.1) : Cells.get i cs = none := by
  induction cs with
  | nil => rfl
  | cons c cs ih =>
    have hc : i < c.1 := h c List.mem_cons_self
    rw [show c :: cs = (c.1, c.2) :: cs from rfl, get_cons, if_neg (by omega)]
    exact ih fun d hd => h d (List.mem_cons_of_mem _ hd)

/-- Equal contents are equal data. -/
theorem ext_get {as bs : Machine.Cells α} (ha : as.Pairwise (fun a b => a.1 < b.1))
    (hb : bs.Pairwise (fun a b => a.1 < b.1)) (h : ∀ i, Cells.get i as = Cells.get i bs) : as = bs := by
  induction as generalizing bs with
  | nil =>
    cases bs with
    | nil => rfl
    | cons b bs => simpa [Machine.Cells.get] using h b.1
  | cons a as ih =>
    obtain ⟨i, v⟩ := a
    cases bs with
    | nil => simpa [Machine.Cells.get] using h i
    | cons b bs =>
      obtain ⟨j, w⟩ := b
      rw [List.pairwise_cons] at ha hb
      have hij : i = j := by
        rcases Nat.lt_trichotomy i j with hlt | heq | hgt
        · have hn : Cells.get i ((j, w) :: bs) = none := get_none_of_lt fun c hc => by
            rcases List.mem_cons.1 hc with rfl | hc
            · exact hlt
            · exact Nat.lt_trans hlt (hb.1 c hc)
          have := h i
          rw [hn] at this
          simp [Machine.Cells.get] at this
        · exact heq
        · have hn : Cells.get j ((i, v) :: as) = none := get_none_of_lt fun c hc => by
            rcases List.mem_cons.1 hc with rfl | hc
            · exact hgt
            · exact Nat.lt_trans hgt (ha.1 c hc)
          have := h j
          rw [hn] at this
          simp [Machine.Cells.get] at this
      subst hij
      have hvw : v = w := by simpa [Machine.Cells.get] using h i
      subst hvw
      rw [ih ha.2 hb.2 fun k => ?_]
      by_cases hk : k = i
      · subst hk
        rw [get_none_of_lt ha.1, get_none_of_lt hb.1]
      · simpa [Machine.Cells.get, hk] using h k

/-! ### Runs of writes -/

@[simp] theorem run_nil (i : Nat) : Cells.run i ([] : List α) = [] := rfl
@[simp] theorem run_cons (i : Nat) (v : α) (vs : List α) : Cells.run i (v :: vs) = (i, v) :: Cells.run (i + 1) vs := rfl

theorem mem_run {i : Nat} {vs : List α} {c : Nat × α} (h : c ∈ Cells.run i vs) : i ≤ c.1 ∧ c.1 < i + vs.length := by
  induction vs generalizing i with
  | nil => simp at h
  | cons v vs ih =>
    rcases List.mem_cons.1 h with rfl | h
    · simp
    · have := ih h
      simp only [List.length_cons]
      omega

/-- A run read back. -/
theorem get_run (k i : Nat) (vs : List α) : Cells.get k (Cells.run i vs) = if k < i then none else vs[k - i]? := by
  induction vs generalizing i with
  | nil => simp
  | cons v vs ih =>
    rw [run_cons, get_cons, ih]
    by_cases h1 : k = i
    · simp [h1]
    · by_cases h2 : k < i
      · simp [h1, h2, show k < i + 1 by omega]
      · have : k - i = (k - (i + 1)) + 1 := by omega
        simp [h1, h2, show ¬ k < i + 1 by omega, this]

theorem get_append (k : Nat) (as bs : Machine.Cells α) : Cells.get k (as ++ bs) = (Cells.get k as).or (Cells.get k bs) := by
  induction as with
  | nil => simp
  | cons a as ih =>
    obtain ⟨i, v⟩ := a
    rw [List.cons_append, get_cons, get_cons, ih]
    split <;> simp

/-- A cell of a part of the cells chosen by their index. -/
theorem get_filter (k : Nat) (P : Nat → Bool) (cs : Machine.Cells α) :
    Cells.get k (cs.filter fun c => P c.1) = if P k then Cells.get k cs else none := by
  induction cs with
  | nil => simp
  | cons c cs ih =>
    obtain ⟨i, v⟩ := c
    rw [List.filter_cons]
    by_cases hk : k = i
    · subst hk
      by_cases hp : P k <;> simp [hp, get_cons, ih]
    · by_cases hp : P i <;> simp [hp, get_cons, hk, ih]

/-- What a run of writes leaves in each cell. -/
theorem get_setRun (k i : Nat) (vs : List α) (cs : Machine.Cells α) :
    Cells.get k (Cells.setRun i vs cs) = if k < i then Cells.get k cs
      else if h : k - i < vs.length then some (vs[k - i]'h) else Cells.get k cs := by
  rw [Machine.Cells.setRun, get_append, get_append, get_filter k (fun j => decide (j < i)),
    get_filter k (fun j => decide (i + vs.length ≤ j)), get_run]
  by_cases h1 : k < i
  · simp [h1, show ¬ i + vs.length ≤ k by omega]
  · by_cases h2 : k - i < vs.length
    · simp [h1, h2]
    · simp [h1, h2, show i + vs.length ≤ k by omega]

theorem rising_run (i : Nat) (vs : List α) : (Cells.run i vs).Pairwise (fun a b => a.1 < b.1) := by
  induction vs generalizing i with
  | nil => simp
  | cons v vs ih =>
    rw [run_cons, List.pairwise_cons]
    exact ⟨fun c hc => by have := (mem_run hc).1; simp only; omega, ih _⟩

theorem rising_setRun {cs : Machine.Cells α} (i : Nat) (vs : List α) (h : cs.Pairwise (fun a b => a.1 < b.1)) :
    (Cells.setRun i vs cs).Pairwise (fun a b => a.1 < b.1) := by
  rw [Machine.Cells.setRun, List.pairwise_append, List.pairwise_append]
  refine ⟨⟨h.filter _, rising_run i vs, fun a ha b hb => ?_⟩, h.filter _, fun a ha b hb => ?_⟩
  · have h1 := (List.mem_filter.1 ha).2
    have h2 := (mem_run hb).1
    simp only [decide_eq_true_eq] at h1
    omega
  · have h2 := (List.mem_filter.1 hb).2
    simp only [decide_eq_true_eq] at h2
    rcases List.mem_append.1 ha with ha | ha
    · have h1 := (List.mem_filter.1 ha).2
      simp only [decide_eq_true_eq] at h1
      omega
    · have h1 := (mem_run ha).2
      omega

/-- A run of writes within the depth keeps the canonical form. -/
theorem wf_setRun {depth i : Nat} {vs : List α} {cs : Machine.Cells α} (hi : i + vs.length ≤ depth)
    (h : Cells.wf depth cs = true) : Cells.wf depth (Cells.setRun i vs cs) = true := by
  rw [wf_iff] at h ⊢
  refine ⟨rising_setRun i vs h.1, fun c hc => ?_⟩
  rw [Machine.Cells.setRun, List.mem_append, List.mem_append] at hc
  rcases hc with (hc | hc) | hc
  · exact h.2 c (List.mem_filter.1 hc).1
  · have := (mem_run hc).2; omega
  · exact h.2 c (List.mem_filter.1 hc).1

/-- The single writes of a run, one after the other. -/
def setEach : Nat → List α → Machine.Cells α → Machine.Cells α
  | _, [], cs => cs
  | i, v :: vs, cs => setEach (i + 1) vs (Cells.set i v cs)

theorem get_setEach (k i : Nat) (vs : List α) (cs : Machine.Cells α) :
    Cells.get k (setEach i vs cs) = if k < i then Cells.get k cs
      else if h : k - i < vs.length then some (vs[k - i]'h) else Cells.get k cs := by
  induction vs generalizing i cs with
  | nil => simp [setEach]
  | cons v vs ih =>
    rw [setEach, ih]
    by_cases h1 : k < i
    · simp [h1, show k < i + 1 by omega, get_set_other (show k ≠ i by omega)]
    · by_cases h2 : k = i
      · subst h2; simp
      · have e : k - i = (k - (i + 1)) + 1 := by omega
        simp [h1, show ¬ k < i + 1 by omega, e, get_set_other h2]

theorem rising_setEach {cs : Machine.Cells α} (i : Nat) (vs : List α) (h : cs.Pairwise (fun a b => a.1 < b.1)) :
    (setEach i vs cs).Pairwise (fun a b => a.1 < b.1) := by
  induction vs generalizing i cs with
  | nil => exact h
  | cons v vs ih => exact ih _ (rising_set i v h)

/-- The run of writes is the single writes of R107's loops, in order. -/
theorem setRun_eq_setEach {depth : Nat} (i : Nat) (vs : List α) {cs : Machine.Cells α} (h : Cells.wf depth cs = true) :
    Cells.setRun i vs cs = setEach i vs cs := by
  have hr := ((wf_iff depth cs).1 h).1
  exact ext_get (rising_setRun i vs hr) (rising_setEach i vs hr) fun k => by rw [get_setRun, get_setEach]

end Cells
end Laws
end Sys2Proof
end

