-- ==== Sys2Proof/Laws/Commands.lean ====
section
/-! SUPPORT. Laws/Commands.lean: the checks, the completion and the commands: one lemma each that says all it can do. -/

namespace Sys2Proof
namespace Laws
namespace Commands

open Sys2Proof.Machine

/-! ### Checks -/

theorem zext32_toNat {n : Nat} (h : n ≤ 32) (v : BitVec n) : (zext32 v).toNat = v.toNat := by
  have h1 := v.isLt
  have h2 : 2 ^ n ≤ 2 ^ 32 := Nat.pow_le_pow_right (by omega) h
  rw [zext32, BitVec.toNat_setWidth, Nat.mod_eq_of_lt (by omega)]

theorem zext32_setWidth {n : Nat} (h : n ≤ 32) (v : BitVec n) : (zext32 v).setWidth n = v := by
  apply BitVec.eq_of_toNat_eq
  rw [BitVec.toNat_setWidth, zext32_toNat h, Nat.mod_eq_of_lt v.isLt]

theorem setWidth_zext32 {n : Nat} {w : Word} (h : w.toNat < 2 ^ n) : zext32 (w.setWidth n) = w := by
  apply BitVec.eq_of_toNat_eq
  rw [zext32, BitVec.toNat_setWidth, BitVec.toNat_setWidth, Nat.mod_eq_of_lt h, Nat.mod_eq_of_lt w.isLt]

theorem checkByte_ok {v : Word} (h : v.toNat ≤ 255) : checkByte v = .ok (v.setWidth 8) := if_pos h

theorem checkByte_error {v : Word} (h : 255 < v.toNat) : checkByte v = .error .outOfRange := if_neg (by omega)

/-- check_byte answers a byte or OutOfRange. -/
theorem checkByte_cases (v : Word) :
    (v.toNat ≤ 255 ∧ checkByte v = .ok (v.setWidth 8)) ∨ (255 < v.toNat ∧ checkByte v = .error .outOfRange) := by
  rcases Nat.lt_or_ge 255 v.toNat with h | h
  · exact .inr ⟨h, checkByte_error h⟩
  · exact .inl ⟨h, checkByte_ok h⟩

@[simp] theorem checkByte_zext32 (b : Byte) : checkByte (zext32 b) = .ok b := by
  rw [checkByte_ok (by have := b.isLt; rw [zext32_toNat (by omega)]; omega), zext32_setWidth (by omega)]

theorem checkU16_ok {v : Word} (h : v.toNat ≤ 0xFFFF) : checkU16 v = .ok (v.setWidth 16) := if_pos h

theorem checkU16_error {v : Word} (h : 0xFFFF < v.toNat) : checkU16 v = .error .outOfRange := if_neg (by omega)

theorem checkU16_cases (v : Word) :
    (v.toNat ≤ 0xFFFF ∧ checkU16 v = .ok (v.setWidth 16)) ∨
      (0xFFFF < v.toNat ∧ checkU16 v = .error .outOfRange) := by
  rcases Nat.lt_or_ge 0xFFFF v.toNat with h | h
  · exact .inr ⟨h, checkU16_error h⟩
  · exact .inl ⟨h, checkU16_ok h⟩

theorem requireField_ok {s : State} (h : s.fv = true) : requireField s = .ok () := by simp [requireField, h]

theorem requireField_error {s : State} (h : s.fv = false) : requireField s = .error .noField := by simp [requireField, h]

@[simp] theorem bind_ok {ε α β : Type} (a : α) (f : α → Except ε β) : (Except.ok a >>= f) = f a := rfl

@[simp] theorem bind_error {ε α β : Type} (e : ε) (f : α → Except ε β) : (Except.error e >>= f) = Except.error e := rfl

/-- A bind that succeeds, taken apart. -/
theorem bind_eq_ok {ε α β : Type} {x : Except ε α} {f : α → Except ε β} {b : β} (h : (x >>= f) = .ok b) :
    ∃ a, x = .ok a ∧ f a = .ok b := by
  cases x with
  | ok a => exact ⟨a, rfl, h⟩
  | error e => cases h

/-- The field functions of spec/00_scope.md R15 on bytes. -/
theorem fadd_zext32 (a b : Byte) : fadd (zext32 a) (zext32 b) = .ok (a ^^^ b) := by
  simp [fadd, pure, Except.pure]

theorem fmul_zext32 (s : State) (a b : Byte) : fmul s (zext32 a) (zext32 b) = .ok (mulBody s a b) := by
  simp [fmul, pure, Except.pure]

theorem fdiv_zext32 (s : State) (a b : Byte) : fdiv s (zext32 a) (zext32 b) = divBody s a b := by
  simp [fdiv]

theorem finv_zext32 (s : State) (a : Byte) : finv s (zext32 a) = invBody s a := by
  simp [finv]

/-! ### Completion -/

theorem complete_result (v : Byte) (s : State) :
    complete (.ok (.result v)) s = { s with result := v, err := 0#4, busy := false, tick := s.tick + 1 } := rfl

theorem complete_field (p : Half) (g : Byte) (E L : Machine.Cells Byte) (s : State) :
    complete (.ok (.field p g E L)) s =
      { s with mem := { s.mem with exp := E, log := L }, fpoly := p, fgen := g, fv := true, err := 0#4, busy := false,
               tick := s.tick + 1 } := rfl

theorem complete_error (e : CmdError) (s : State) :
    complete (.error e) s = { s with err := e.code, busy := false, tick := s.tick + 1 } := rfl

theorem code_ne_zero (e : CmdError) : e.code ≠ 0#4 := by cases e <;> decide

theorem code_le (e : CmdError) : e.code.toNat ≤ 7 := by cases e <;> decide

/-- What a completion can write. -/
theorem complete_cases (out : Except CmdError Writes) (s : State) :
    (∃ v, out = .ok (.result v) ∧
      complete out s = { s with result := v, err := 0#4, busy := false, tick := s.tick + 1 }) ∨
    (∃ p g E L, out = .ok (.field p g E L) ∧
      complete out s = { s with mem := { s.mem with exp := E, log := L }, fpoly := p, fgen := g, fv := true, err := 0#4,
                                busy := false, tick := s.tick + 1 }) ∨
    (∃ e, out = .error e ∧ complete out s = { s with err := e.code, busy := false, tick := s.tick + 1 }) := by
  cases out with
  | ok w =>
    cases w with
    | result v => exact .inl ⟨v, rfl, rfl⟩
    | field p g E L => exact .inr (.inl ⟨p, g, E, L, rfl, rfl⟩)
  | error e => exact .inr (.inr ⟨e, rfl, rfl⟩)

/-! ### The commands -/

/-- A command that needs a field: NoField, its value's error, or RESULT. -/
theorem fieldCommand_cases (s : State) (value : Except CmdError Byte) :
    (s.fv = false ∧ fieldCommand s value = .error .noField) ∨
    (s.fv = true ∧ ∃ e, value = .error e ∧ fieldCommand s value = .error e) ∨
    (s.fv = true ∧ ∃ v, value = .ok v ∧ fieldCommand s value = .ok (.result v)) := by
  cases h : s.fv with
  | false => exact .inl ⟨rfl, by simp [fieldCommand, requireField_error h]⟩
  | true =>
    cases value with
    | error e => exact .inr (.inl ⟨rfl, e, rfl, by simp [fieldCommand, requireField_ok h]⟩)
    | ok v => exact .inr (.inr ⟨rfl, v, rfl, by simp [fieldCommand, requireField_ok h, pure, Except.pure]⟩)

/-- CLMUL: its three checks (R91). -/
theorem runClmul_cases (s : State) :
    (s.opa.toNat ≤ 255 ∧ s.opb.toNat ≤ 255 ∧ s.poly.toNat ≤ 0xFFFF ∧
      runClmul s = .ok (.result (mulbytes (s.opa.setWidth 8) (s.opb.setWidth 8) (s.poly.setWidth 16)))) ∨
    ((255 < s.opa.toNat ∨ 255 < s.opb.toNat ∨ 0xFFFF < s.poly.toNat) ∧ runClmul s = .error .outOfRange) := by
  rcases checkByte_cases s.opa with ⟨h1, e1⟩ | ⟨h1, e1⟩
  · rcases checkByte_cases s.opb with ⟨h2, e2⟩ | ⟨h2, e2⟩
    · rcases checkU16_cases s.poly with ⟨h3, e3⟩ | ⟨h3, e3⟩
      · exact .inl ⟨h1, h2, h3, by simp [runClmul, operandA, operandB, operandPoly, e1, e2, e3, pure, Except.pure]⟩
      · exact .inr ⟨.inr (.inr h3), by simp [runClmul, operandA, operandB, operandPoly, e1, e2, e3]⟩
    · exact .inr ⟨.inr (.inl h2), by simp [runClmul, operandA, operandB, e1, e2]⟩
  · exact .inr ⟨.inl h1, by simp [runClmul, operandA, e1]⟩

/-- ISGEN: its two checks (R97). -/
theorem runIsgen_cases (s : State) :
    (s.poly.toNat ≤ 0xFFFF ∧ s.gen.toNat ≤ 255 ∧
      runIsgen s = .ok (.result (if isgen (s.poly.setWidth 16) (s.gen.setWidth 8) then 1#8 else 0#8))) ∨
    ((0xFFFF < s.poly.toNat ∨ 255 < s.gen.toNat) ∧ runIsgen s = .error .outOfRange) := by
  rcases checkU16_cases s.poly with ⟨h1, e1⟩ | ⟨h1, e1⟩
  · rcases checkByte_cases s.gen with ⟨h2, e2⟩ | ⟨h2, e2⟩
    · exact .inl ⟨h1, h2, by simp only [runIsgen, operandPoly, operandGen, e1, e2, bind_ok, pure, Except.pure]⟩
    · exact .inr ⟨.inr h2, by simp only [runIsgen, operandPoly, operandGen, e1, e2, bind_ok, bind_error]⟩
  · exact .inr ⟨.inl h1, by simp only [runIsgen, operandPoly, e1, bind_error]⟩

/-- BUILD: its checks, the generator test, the field it commits (R105). -/
theorem runBuild_cases (s : State) :
    (s.poly.toNat ≤ 0xFFFF ∧ s.gen.toNat ≤ 255 ∧ isgen (s.poly.setWidth 16) (s.gen.setWidth 8) = true ∧
      runBuild s = .ok (.field (s.poly.setWidth 16) (s.gen.setWidth 8)
        (fillTables (s.poly.setWidth 16) (s.gen.setWidth 8) s.mem.exp s.mem.log).1
        (fillTables (s.poly.setWidth 16) (s.gen.setWidth 8) s.mem.exp s.mem.log).2)) ∨
    (s.poly.toNat ≤ 0xFFFF ∧ s.gen.toNat ≤ 255 ∧ isgen (s.poly.setWidth 16) (s.gen.setWidth 8) = false ∧
      runBuild s = .error .invalidGenerator) ∨
    ((0xFFFF < s.poly.toNat ∨ 255 < s.gen.toNat) ∧ runBuild s = .error .outOfRange) := by
  rcases checkU16_cases s.poly with ⟨h1, e1⟩ | ⟨h1, e1⟩
  · rcases checkByte_cases s.gen with ⟨h2, e2⟩ | ⟨h2, e2⟩
    · cases h3 : isgen (s.poly.setWidth 16) (s.gen.setWidth 8) with
      | true =>
        refine .inl ⟨h1, h2, rfl, ?_⟩
        simp only [runBuild, operandPoly, operandGen, e1, e2, bind_ok, h3, if_true, pure, Except.pure]
      | false =>
        refine .inr (.inl ⟨h1, h2, rfl, ?_⟩)
        simp only [runBuild, operandPoly, operandGen, e1, e2, bind_ok, h3, Bool.false_eq_true, if_false]
        rfl
    · exact .inr (.inr ⟨.inr h2, by simp only [runBuild, operandPoly, operandGen, e1, e2, bind_ok, bind_error]⟩)
  · exact .inr (.inr ⟨.inl h1, by simp only [runBuild, operandPoly, e1, bind_error]⟩)

/-- Every command's completion: RESULT is written, or BUILD commits the field of its operands, or an error is taken. -/
theorem exec_cases (i : Instr) (s : State) :
    (i ≠ .build ∧ ∃ v, exec i s = .next { s with result := v, err := 0#4, busy := false, tick := s.tick + 1 }) ∨
    (i = .build ∧ isgen (s.poly.setWidth 16) (s.gen.setWidth 8) = true ∧
      exec i s = .next { s with
        mem := { s.mem with
          exp := (fillTables (s.poly.setWidth 16) (s.gen.setWidth 8) s.mem.exp s.mem.log).1
          log := (fillTables (s.poly.setWidth 16) (s.gen.setWidth 8) s.mem.exp s.mem.log).2 },
        fpoly := s.poly.setWidth 16, fgen := s.gen.setWidth 8, fv := true, err := 0#4, busy := false,
        tick := s.tick + 1 }) ∨
    (∃ e, exec i s = .next { s with err := CmdError.code e, busy := false, tick := s.tick + 1 }) := by
  have field : ∀ (value : Except CmdError Byte),
      (∃ v, complete (fieldCommand s value) s = { s with result := v, err := 0#4, busy := false, tick := s.tick + 1 }) ∨
      (∃ e, complete (fieldCommand s value) s = { s with err := CmdError.code e, busy := false, tick := s.tick + 1 }) := by
    intro value
    rcases fieldCommand_cases s value with ⟨-, h⟩ | ⟨-, e, -, h⟩ | ⟨-, v, -, h⟩
    · exact .inr ⟨_, by rw [h, complete_error]⟩
    · exact .inr ⟨_, by rw [h, complete_error]⟩
    · exact .inl ⟨_, by rw [h, complete_result]⟩
  cases i with
  | clmul =>
    rcases runClmul_cases s with ⟨-, -, -, h⟩ | ⟨-, h⟩
    · exact .inl ⟨by simp, _, by simp only [exec, execClmul, h, complete_result]; rfl⟩
    · exact .inr (.inr ⟨_, by simp only [exec, execClmul, h, complete_error]; rfl⟩)
  | isgen =>
    rcases runIsgen_cases s with ⟨-, -, h⟩ | ⟨-, h⟩
    · exact .inl ⟨by simp, _, by simp only [exec, execIsgen, h, complete_result]; rfl⟩
    · exact .inr (.inr ⟨_, by simp only [exec, execIsgen, h, complete_error]; rfl⟩)
  | build =>
    rcases runBuild_cases s with ⟨-, -, hg, h⟩ | ⟨-, -, -, h⟩ | ⟨-, h⟩
    · exact .inr (.inl ⟨rfl, hg, by simp only [exec, execBuild, h, complete_field]⟩)
    · exact .inr (.inr ⟨_, by simp only [exec, execBuild, h, complete_error]; rfl⟩)
    · exact .inr (.inr ⟨_, by simp only [exec, execBuild, h, complete_error]; rfl⟩)
  | add =>
    rcases field (fadd (operandA s) (operandB s)) with ⟨v, h⟩ | ⟨e, h⟩
    · exact .inl ⟨by simp, v, by simp only [exec, execAdd, h]⟩
    · exact .inr (.inr ⟨e, by simp only [exec, execAdd, h]⟩)
  | sub =>
    rcases field (fsub (operandA s) (operandB s)) with ⟨v, h⟩ | ⟨e, h⟩
    · exact .inl ⟨by simp, v, by simp only [exec, execSub, h]⟩
    · exact .inr (.inr ⟨e, by simp only [exec, execSub, h]⟩)
  | mul =>
    rcases field (fmul s (operandA s) (operandB s)) with ⟨v, h⟩ | ⟨e, h⟩
    · exact .inl ⟨by simp, v, by simp only [exec, execMul, h]⟩
    · exact .inr (.inr ⟨e, by simp only [exec, execMul, h]⟩)
  | div =>
    rcases field (fdiv s (operandA s) (operandB s)) with ⟨v, h⟩ | ⟨e, h⟩
    · exact .inl ⟨by simp, v, by simp only [exec, execDiv, h]⟩
    · exact .inr (.inr ⟨e, by simp only [exec, execDiv, h]⟩)
  | inv =>
    rcases field (finv s (operandA s)) with ⟨v, h⟩ | ⟨e, h⟩
    · exact .inl ⟨by simp, v, by simp only [exec, execInv, h]⟩
    · exact .inr (.inr ⟨e, by simp only [exec, execInv, h]⟩)
  | interp =>
    rcases field (interpValue s) with ⟨v, h⟩ | ⟨e, h⟩
    · exact .inl ⟨by simp, v, by simp only [exec, execInterp, h]⟩
    · exact .inr (.inr ⟨e, by simp only [exec, execInterp, h]⟩)

end Commands
end Laws
end Sys2Proof
end

