-- ==== Sys2Proof/Laws/HostSide.lean ====
section
/-! SUPPORT. Laws/HostSide.lean: what one access of a running host does, that the polling loop ends, and that the procedures' use
of a two-operand pseudo-instruction is its expansion. -/

namespace Sys2Proof
namespace Laws
namespace HostSide

open Sys2Proof.Machine

/-! ### Completion and access leave the port -/

/-- A command completes, and leaves the port. -/
theorem exec_next (i : Instr) (s : State) : ∃ t, exec i s = .next t ∧ t.busy = false ∧ t.port = s.port := by
  rcases Commands.exec_cases i s with ⟨-, v, h⟩ | ⟨-, -, h⟩ | ⟨e, h⟩
  · exact ⟨_, h, rfl, rfl⟩
  · exact ⟨_, h, rfl, rfl⟩
  · exact ⟨_, h, rfl, rfl⟩

/-- A pending word completes, and leaves the port. -/
theorem completePending_next (s : State) : ∃ t, completePending s = .next t ∧ t.busy = false ∧ t.port = s.port := by
  unfold completePending
  cases decode s.pend with
  | command i => exact exec_next i s
  | illegal why => exact ⟨_, rfl, rfl, rfl⟩

theorem writeTarget_port {s t : State} {target : Target} {v : Word} (h : writeTarget s target v = some t) :
    t.port = s.port := by
  cases hb : s.busy <;> cases target <;>
    simp only [writeTarget, unlessBusy, hb, if_true, if_false, Bool.false_eq_true, Option.some.injEq, reduceCtorEq] at h <;>
    subst h <;> rfl

/-- An access leaves what waits at the port. -/
@[simp] theorem accessBus_port (op : BusOp) (s : State) : (accessBus op s).port = s.port := by
  cases op with
  | read off n =>
    obtain ⟨r, h⟩ := Bus.accessBus_read_cases off n s
    rw [h, respond_port]
  | write off n v =>
    cases hl : legalAccess off n with
    | false => rw [Bus.accessBus_illegal_write v hl, respond_port]
    | true =>
      rw [Bus.accessBus_write v hl]
      cases ht : writeTarget s (targetAt off) v with
      | none => rfl
      | some t => exact (respond_port .okay t).trans (writeTarget_port ht)

/-! ### One access of a running host -/

theorem drainPort_empty {s : State} (k : Nat) (h : s.port = []) : drainPort k s = s := by
  cases k <;> simp [drainPort, h]

/-- An access that no completion comes before: the block's access, and nothing else. -/
theorem hostAccess_first (lat : Nat → Nat) (op : BusOp) {h : HostRun} (hp : h.block.port = [])
    (hw : h.block.busy = false ∨ h.wait ≠ 0) :
    hostAccess lat op h =
      { block := accessBus op h.block
        wait := if (accessBus op h.block).busy && !h.block.busy then lat (accessBus op h.block).tick else h.wait - 1 } := by
  obtain ⟨b, w⟩ := h
  simp only at hp hw
  have hs : step { b with port := [{ event := .access op, engineFirst := decide (w = 0) }] } = .next (accessBus op b) := by
    rw [Bus.step_event rfl (by simpa using hw)]
    simp only [portEvent]
    rw [← hp]
  have hd : drainPort 2 { b with port := [{ event := .access op, engineFirst := decide (w = 0) }] } = accessBus op b := by
    have hn : stepNext { b with port := [{ event := .access op, engineFirst := decide (w = 0) }] } = accessBus op b := by
      simp only [stepNext, hs]
    rw [drainPort, if_neg (by simp), hn]
    exact drainPort_empty 1 (by rw [accessBus_port, hp])
  have hm : (decide (w = 0) || !b.busy) = !b.busy := by
    rcases hw with h | h <;> simp [h]
  simp only [hostAccess, hp, List.nil_append, List.length_cons, List.length_nil, Nat.zero_add, Nat.mul_one, hd, hm]

/-- An access that the pending completion comes before: the completion, then the block's access. -/
theorem hostAccess_completes (lat : Nat → Nat) (op : BusOp) {h : HostRun} (hp : h.block.port = [])
    (hb : h.block.busy = true) (hw : h.wait = 0) :
    ∃ t, completePending { h.block with port := [{ event := .access op, engineFirst := true }] } = .next t ∧
      t.busy = false ∧
      hostAccess lat op h =
        { block := accessBus op { t with port := [] }
          wait := if (accessBus op { t with port := [] }).busy then lat (accessBus op { t with port := [] }).tick
                  else 0 } := by
  obtain ⟨b, w⟩ := h
  simp only at hp hb hw
  subst hw
  obtain ⟨t, ht, htb, htp⟩ := completePending_next { b with port := [{ event := .access op, engineFirst := true }] }
  refine ⟨t, ht, htb, ?_⟩
  have h1 : step { b with port := [{ event := .access op, engineFirst := true }] } = .next t := by
    rw [Bus.step_engine (by simp [engineTurn, hb]), ht]
  have h2 : step t = .next (accessBus op { t with port := [] }) := by
    rw [Bus.step_event htp (.inl htb), portEvent]
  have hd : drainPort 2 { b with port := [{ event := .access op, engineFirst := true }] } =
      accessBus op { t with port := [] } := by
    simp only [drainPort, stepNext, h1, h2, htp, List.isEmpty_cons, Bool.false_eq_true, if_false]
  simp only [hostAccess, hp, List.nil_append, List.length_cons, List.length_nil, Nat.zero_add, Nat.mul_one, decide_true,
    hd, Bool.true_or, Bool.and_true]

/-- After a host's access nothing waits at the port. -/
theorem hostAccess_port (lat : Nat → Nat) (op : BusOp) {h : HostRun} (hp : h.block.port = []) :
    (hostAccess lat op h).block.port = [] := by
  by_cases hw : h.block.busy = false ∨ h.wait ≠ 0
  · rw [hostAccess_first lat op hp hw, accessBus_port, hp]
  · obtain ⟨hb, h0⟩ := not_or.mp hw
    obtain ⟨t, -, -, e⟩ := hostAccess_completes lat op hp (by simpa using hb) (by simpa using h0)
    rw [e, accessBus_port]

/-! ### The polling loop -/

/-- Bit 0 of a read of STATUS is BUSY (spec/10_state.md R28). -/
theorem statusRead_busy (s : State) : (statusRead s).getLsbD 0 = s.busy := by
  have flag : ∀ (e : BitVec 4) (c f b : BitVec 1), (packStatus e c f b).getLsbD 0 = b.getLsbD 0 := by
    intro e c f b
    exact BitVec.getLsbD_append.trans (by simp)
  rw [statusRead, flag]
  cases s.busy <;> rfl

/-- A read of STATUS only responds. -/
theorem accessBus_status (s : State) :
    accessBus (.read (Target.offset .status) 4) s = respond (.data (statusRead s)) s := by
  rw [Bus.accessBus_read (Bus.legalAccess_offset rfl), Bus.targetAt_offset rfl]
  rfl

/-- A poll that the completion does not come before finds BUSY as it is. -/
theorem hostRead_status_first (lat : Nat → Nat) {h : HostRun} (hp : h.block.port = [])
    (hw : h.block.busy = false ∨ h.wait ≠ 0) :
    hostRead lat .status h =
      (some (statusRead h.block),
        { block := respond (.data (statusRead h.block)) h.block, wait := h.wait - 1 }) := by
  rw [hostRead, hostAccess_first lat _ hp hw, accessBus_status]
  cases hb : h.block.busy <;> simp [responseData, respond, hb]

/-- A poll that the completion comes before finds BUSY = 0. -/
theorem hostRead_status_completes (lat : Nat → Nat) {h : HostRun} (hp : h.block.port = []) (hb : h.block.busy = true)
    (hw : h.wait = 0) :
    ∃ d h', hostRead lat .status h = (some d, h') ∧ d.getLsbD 0 = false ∧ h'.block.busy = false ∧ h'.block.port = [] := by
  obtain ⟨t, -, htb, e⟩ := hostAccess_completes lat (.read (Target.offset .status) 4) hp hb hw
  rw [accessBus_status] at e
  refine ⟨statusRead { t with port := [] }, hostAccess lat (.read (Target.offset .status) 4) h, ?_,
    by rw [statusRead_busy]; exact htb, by rw [e]; exact htb, by rw [e]; rfl⟩
  exact Prod.ext (by simp only [hostRead, e]; rfl) rfl

/-- With `k` reads allowed to find BUSY = 1, `wait` at most `k`, the loop ends with BUSY = 0. -/
theorem pollLoop_ends (lat : Nat → Nat) (k : Nat) (h : HostRun) (hp : h.block.port = []) (hk : h.wait ≤ k) :
    (pollLoop lat k h).1.getLsbD 0 = false ∧ (pollLoop lat k h).2.block.busy = false ∧
      (pollLoop lat k h).2.block.port = [] := by
  induction k generalizing h with
  | zero =>
    cases hb : h.block.busy with
    | false =>
      simp only [pollLoop, hostRead_status_first lat hp (.inl hb), Option.getD_some, statusRead_busy, hb]
      exact ⟨trivial, hb, hp⟩
    | true =>
      obtain ⟨d, h', e, hd, hb', hp'⟩ := hostRead_status_completes lat hp hb (Nat.le_zero.mp hk)
      simp only [pollLoop, e, Option.getD_some]
      exact ⟨hd, hb', hp'⟩
  | succ k ih =>
    by_cases hw : h.block.busy = false ∨ h.wait ≠ 0
    · simp only [pollLoop, hostRead_status_first lat hp hw, Option.getD_some, statusRead_busy]
      cases hb : h.block.busy with
      | false => exact ⟨(statusRead_busy h.block).trans hb, hb, hp⟩
      | true => exact ih _ hp (Nat.sub_le_of_le_add hk)
    · obtain ⟨hb, h0⟩ := not_or.mp hw
      obtain ⟨d, h', e, hd, hb', hp'⟩ := hostRead_status_completes lat hp (by simpa using hb) (by simpa using h0)
      simp only [pollLoop, e, Option.getD_some, hd, Bool.false_eq_true, if_false]
      exact ⟨trivial, hb', hp'⟩

/-- The polling loop answers a read with BUSY = 0, and nothing is pending then (spec/20_memory.md R71). -/
theorem pollStatus_ends (lat : Nat → Nat) (h : HostRun) (hp : h.block.port = []) :
    (pollStatus lat h).1.getLsbD 0 = false ∧ (pollStatus lat h).2.block.busy = false ∧
      (pollStatus lat h).2.block.port = [] := pollLoop_ends lat h.wait h hp (Nat.le_refl _)

/-! ### The procedures' pseudo-instructions -/

/-- RESULT always answers a read. -/
theorem hostRead_result (lat : Nat → Nat) {h : HostRun} (hp : h.block.port = []) :
    ∃ d, (hostRead lat .result h).1 = some d := by
  have access : ∀ s, ∃ d, accessBus (.read (Target.offset .result) 4) s = respond (.data d) s := by
    intro s
    rw [Bus.accessBus_read (Bus.legalAccess_offset rfl), Bus.targetAt_offset rfl]
    exact ⟨_, rfl⟩
  by_cases hw : h.block.busy = false ∨ h.wait ≠ 0
  · obtain ⟨d, e⟩ := access h.block
    exact ⟨d, by simp only [hostRead, hostAccess_first lat _ hp hw, e]; rfl⟩
  · obtain ⟨hb, h0⟩ := not_or.mp hw
    obtain ⟨t, -, -, e⟩ := hostAccess_completes lat (.read (Target.offset .result) 4) hp (by simpa using hb) (by simpa using h0)
    obtain ⟨d, e'⟩ := access { t with port := [] }
    exact ⟨d, by simp only [hostRead, e, e']; rfl⟩

/-- EXEC leaves err as a host variable: bits 11:8 of the final read (spec/30_encoding.md R86). -/
theorem bindStatus_err (d : Word) (vars : Machine.Cells Word) :
    Cells.get HostVar.err (bindStatus d vars) = some (zext32 (errOfStatus d)) := by
  rw [bindStatus, Laws.Cells.get_set_same]

/-- EXEC leaves s as a host variable: the final read (spec/30_encoding.md R86). -/
theorem bindStatus_s (d : Word) (vars : Machine.Cells Word) : Cells.get HostVar.s (bindStatus d vars) = some d := by
  rw [bindStatus, Laws.Cells.get_set_other (by decide), Laws.Cells.get_set_same]

/-- A procedure's two-operand pseudo-instruction makes exactly the accesses of its line (spec/30_encoding.md R87, R89), and
answers the line's variable where err is 0, err otherwise; d is the final read of the poll. -/
theorem hostBinary_eq_line (lat : Nat → Nat) (i : Instr) (a b : Word) (r : HostVar) (env : HostEnv) (h : HostRun)
    (hp : h.block.port = []) :
    ∃ d v, runProgram lat [.binary i (.lit a) (.lit b) r] env h =
        some ({ vars := Cells.set r v (bindStatus d env.vars), busError := false }, (hostBinary lat i a b h).2) ∧
      (hostBinary lat i a b h).1 = if errOfStatus d = 0#4 then .ok v else .error (.block (errOfStatus d)) := by
  have hq : (hostExec lat (encode i) (hostWrite lat .opb b (hostWrite lat .opa a h))).2.block.port = [] :=
    (pollStatus_ends lat _ (hostAccess_port lat _ (hostAccess_port lat _ (hostAccess_port lat _ hp)))).2.2
  obtain ⟨v, hv⟩ := hostRead_result lat hq
  refine ⟨(pollStatus lat (hostWrite lat .cmd (encode i) (hostWrite lat .opb b (hostWrite lat .opa a h)))).1, v, ?_, ?_⟩
  · simp only [hostExec, hostWrite, hostRead] at hv
    simp only [runProgram, List.flatMap_cons, List.flatMap_nil, HostLine.expand, expandExec, List.cons_append,
      List.nil_append, List.append_nil, runCore, CoreLine.run, HostEnv.value, hv, hostBinary, hostExec, hostWrite, hostRead]
  · simp only [hostBinary, hv, Option.getD_some]
    rfl

end HostSide
end Laws
end Sys2Proof
end

