-- ==== Sys2Proof/Laws/Memory.lean ====
section
/-! SUPPORT. Laws/Memory.lean: Memory.wf, that every operation over memory keeps it, that the memory at reset has it, and that
the table fill is the two loops of spec/42_table_builder.md R107, write by write. -/

namespace Sys2Proof
namespace Laws
namespace Memory

open Sys2Proof.Machine

theorem wf_iff (m : Machine.Memory) : Memory.wf m = true ↔
    Cells.wf Config.expDepth m.exp = true ∧ Cells.wf Config.logDepth m.log = true ∧
      Cells.wf Config.sampleDepth m.sx = true ∧ Cells.wf Config.sampleDepth m.sy = true := by
  simp [Machine.Memory.wf, and_assoc]

theorem wf_reset : Memory.wf State.reset.mem = true := by decide

theorem wf_resetBlock (s : State) : Memory.wf (resetBlock s).mem = true := by
  simp [resetBlock, wf_reset]

theorem wf_writeSx {i : Nat} (v : Word) {s : State} (hi : i < Config.sampleDepth) (h : Memory.wf s.mem = true) :
    Memory.wf (writeSx i v s).mem = true := by
  rw [wf_iff] at h ⊢
  exact ⟨h.1, h.2.1, Cells.wf_set v hi h.2.2.1, h.2.2.2⟩

theorem wf_writeSy {i : Nat} (v : Word) {s : State} (hi : i < Config.sampleDepth) (h : Memory.wf s.mem = true) :
    Memory.wf (writeSy i v s).mem = true := by
  rw [wf_iff] at h ⊢
  exact ⟨h.1, h.2.1, h.2.2.1, Cells.wf_set v hi h.2.2.2⟩

@[simp] theorem length_powersFrom (p : Half) (g : Byte) (n : Nat) (x : Byte) : (powersFrom p g n x).length = n := by
  induction n generalizing x with
  | zero => rfl
  | succ n ih => simp [powersFrom, ih]

@[simp] theorem length_powers (p : Half) (g : Byte) : (powers p g).length = 255 := by
  simp [powers, Config.groupOrder]

theorem wf_fillExp {xs : List Byte} {exp : Machine.Cells Byte} (hx : xs.length = 255)
    (h : Cells.wf Config.expDepth exp = true) : Cells.wf Config.expDepth (fillExp xs exp) = true := by
  refine Cells.wf_setRun ?_ (Cells.wf_setRun ?_ h)
  · simp [hx, Config.groupOrder, Config.expDepth]
  · simp [hx, Config.expDepth]

theorem wf_fillLog (xs : List Byte) (i : Nat) {log : Machine.Cells Byte} (h : Cells.wf Config.logDepth log = true) :
    Cells.wf Config.logDepth (fillLog xs i log) = true := by
  induction xs generalizing i log with
  | nil => exact h
  | cons x xs ih => exact ih _ (Cells.wf_set _ (by have := x.isLt; simpa [Config.logDepth] using this) h)

/-- The committed field keeps the form. -/
theorem wf_fillTables (p : Half) (g : Byte) {m : Machine.Memory} (h : Memory.wf m = true) :
    Memory.wf { m with exp := (fillTables p g m.exp m.log).1, log := (fillTables p g m.exp m.log).2 } = true := by
  rw [wf_iff] at h ⊢
  simp only [fillTables]
  exact ⟨wf_fillExp (length_powers p g) h.1, wf_fillLog _ _ h.2.1, h.2.2⟩

/-! ### R107's loops -/

/-- R107's first loop, write by write, with `n` turns left. -/
def fillLoop (p : Half) (g : Byte) : Nat → Nat → Byte → Machine.Cells Byte × Machine.Cells Byte → Machine.Cells Byte × Machine.Cells Byte
  | 0, _, _, t => t
  | n + 1, i, x, t =>
    fillLoop p g n (i + 1) (mulbytes x g p) (Cells.set i x t.1, Cells.set x.toNat (BitVec.ofNat 8 i) t.2)

theorem fillLoop_eq (p : Half) (g : Byte) (n i : Nat) (x : Byte) (t : Machine.Cells Byte × Machine.Cells Byte) :
    fillLoop p g n i x t = (Cells.setEach i (powersFrom p g n x) t.1, fillLog (powersFrom p g n x) i t.2) := by
  induction n generalizing i x t with
  | zero => rfl
  | succ n ih => rw [fillLoop, ih]; rfl

/-- The copy loop of R107, one turn at a time: EXP[i + 255] <- EXP[i], with `n` turns left. -/
def copyLoop : Nat → Nat → Machine.Cells Byte → Machine.Cells Byte
  | 0, _, exp => exp
  | n + 1, i, exp =>
    match Cells.get i exp with
    | some v => copyLoop n (i + 1) (Cells.set (i + 255) v exp)
    | none => copyLoop n (i + 1) exp

/-- The copy loop from turn j on writes the rest of `vs`, if the next 255 entries it reads hold `vs` and `vs` has period 255. -/
theorem copyLoop_eq (vs : List Byte) (hper : ∀ k (h : k + 255 < vs.length), vs[k + 255] = vs[k]'(by omega)) (n j : Nat)
    (exp : Machine.Cells Byte) (hj : j + n = vs.length)
    (h : ∀ k (hk : k < vs.length), j ≤ k → k < j + 255 → Cells.get k exp = some vs[k]) :
    copyLoop n j exp = Cells.setEach (j + 255) (vs.drop j) exp := by
  induction n generalizing j exp with
  | zero =>
    rw [show vs.drop j = [] from List.drop_eq_nil_of_le (by omega)]
    rfl
  | succ n ih =>
    have hjl : j < vs.length := by omega
    rw [copyLoop, h j hjl (Nat.le_refl _) (by omega), List.drop_eq_getElem_cons hjl, Cells.setEach,
      show j + 255 + 1 = j + 1 + 255 by omega]
    refine ih (j + 1) _ (by omega) fun k hk h1 h2 => ?_
    by_cases hkj : k = j + 255
    · subst hkj
      rw [Cells.get_set_same, hper j hk]
    · rw [Cells.get_set_other hkj]
      exact h k hk (by omega) (by omega)

/-- The model's fill is R107's: the first loop, then the copy loop for i in [0, 255]. -/
theorem fillTables_eq_loops (p : Half) (g : Byte) {exp : Machine.Cells Byte} (log : Machine.Cells Byte)
    (h : Cells.wf Config.expDepth exp = true) :
    fillTables p g exp log =
      (copyLoop 256 0 (fillLoop p g 255 0 1#8 (exp, log)).1, (fillLoop p g 255 0 1#8 (exp, log)).2) := by
  have hp : powersFrom p g 255 1#8 = powers p g := by rw [powers, Config.groupOrder]
  have hl := length_powers p g
  have hw : Cells.wf Config.expDepth (Cells.setRun 0 (powers p g) exp) = true :=
    Cells.wf_setRun (by rw [hl]; decide) h
  have hv : (powers p g ++ (powers p g).take 1).length = 256 := by simp [hl]
  rw [fillLoop_eq, hp, fillTables, fillExp, Config.groupOrder, Cells.setRun_eq_setEach 255 _ hw,
    Cells.setRun_eq_setEach 0 _ h]
  simp only [Prod.mk.injEq, and_true]
  rw [copyLoop_eq (powers p g ++ (powers p g).take 1) (fun k hk => ?_) 256 0 _ (by rw [hv]) fun k hk _ h2 => ?_]
  · simp
  · obtain rfl : k = 0 := by omega
    rw [List.getElem_append_right (by omega), List.getElem_append_left (by omega)]
    simp [hl]
  · have hk' : k < (powers p g).length := by omega
    rw [Cells.get_setEach, List.getElem_append_left hk', if_neg (by omega), dif_pos (show k - 0 < _ from hk')]
    rfl

end Memory
end Laws
end Sys2Proof
end

