-- ==== Sys2Proof/Laws/PerInstr.lean ====
section
/-! SUPPORT. Laws/PerInstr.lean: statements about every instruction as syntax, one lemma per constructor. -/

namespace Sys2Proof
namespace Laws
namespace CommandWord

/-- The instruction's command word has RSV = 0 and its OP of spec/30_encoding.md R78, its fields are well formed, and it decodes
to the instruction. -/
def Statement (i : Instr) : Prop :=
  (encode i).toNat = i.opcode.toNat ∧ (fieldsOf (encode i)).wf = true ∧ decode (encode i) = .command i

theorem clmul : Statement .clmul := ⟨rfl, rfl, rfl⟩
theorem isgen : Statement .isgen := ⟨rfl, rfl, rfl⟩
theorem build : Statement .build := ⟨rfl, rfl, rfl⟩
theorem add : Statement .add := ⟨rfl, rfl, rfl⟩
theorem sub : Statement .sub := ⟨rfl, rfl, rfl⟩
theorem mul : Statement .mul := ⟨rfl, rfl, rfl⟩
theorem div : Statement .div := ⟨rfl, rfl, rfl⟩
theorem inv : Statement .inv := ⟨rfl, rfl, rfl⟩
theorem interp : Statement .interp := ⟨rfl, rfl, rfl⟩

end CommandWord
end Laws
end Sys2Proof
end

