-- ==== Sys2Proof/Tests/Slice0.lean ====
section
/-! SUPPORT. Tests/Slice0.lean: tests whose expected results are the vectors of spec/95_test_vectors.md, smoke tests of the
well-formedness checks, and for each statement with hypotheses a state that meets them. -/

namespace Sys2Proof
namespace Tests

open Sys2Proof.Machine

/-! ### The default field's tables, from the spec -/

def specExp0 : List Nat :=
  [0x01, 0x03, 0x05, 0x0F, 0x11, 0x33, 0x55, 0xFF, 0x1A, 0x2E, 0x72, 0x96, 0xA1, 0xF8, 0x13, 0x35,
   0x5F, 0xE1, 0x38, 0x48, 0xD8, 0x73, 0x95, 0xA4, 0xF7, 0x02, 0x06, 0x0A, 0x1E, 0x22, 0x66, 0xAA,
   0xE5, 0x34, 0x5C, 0xE4, 0x37, 0x59, 0xEB, 0x26, 0x6A, 0xBE, 0xD9, 0x70, 0x90, 0xAB, 0xE6, 0x31,
   0x53, 0xF5, 0x04, 0x0C, 0x14, 0x3C, 0x44, 0xCC, 0x4F, 0xD1, 0x68, 0xB8, 0xD3, 0x6E, 0xB2, 0xCD]
def specExp1 : List Nat :=
  [0x4C, 0xD4, 0x67, 0xA9, 0xE0, 0x3B, 0x4D, 0xD7, 0x62, 0xA6, 0xF1, 0x08, 0x18, 0x28, 0x78, 0x88,
   0x83, 0x9E, 0xB9, 0xD0, 0x6B, 0xBD, 0xDC, 0x7F, 0x81, 0x98, 0xB3, 0xCE, 0x49, 0xDB, 0x76, 0x9A,
   0xB5, 0xC4, 0x57, 0xF9, 0x10, 0x30, 0x50, 0xF0, 0x0B, 0x1D, 0x27, 0x69, 0xBB, 0xD6, 0x61, 0xA3,
   0xFE, 0x19, 0x2B, 0x7D, 0x87, 0x92, 0xAD, 0xEC, 0x2F, 0x71, 0x93, 0xAE, 0xE9, 0x20, 0x60, 0xA0]
def specExp2 : List Nat :=
  [0xFB, 0x16, 0x3A, 0x4E, 0xD2, 0x6D, 0xB7, 0xC2, 0x5D, 0xE7, 0x32, 0x56, 0xFA, 0x15, 0x3F, 0x41,
   0xC3, 0x5E, 0xE2, 0x3D, 0x47, 0xC9, 0x40, 0xC0, 0x5B, 0xED, 0x2C, 0x74, 0x9C, 0xBF, 0xDA, 0x75,
   0x9F, 0xBA, 0xD5, 0x64, 0xAC, 0xEF, 0x2A, 0x7E, 0x82, 0x9D, 0xBC, 0xDF, 0x7A, 0x8E, 0x89, 0x80,
   0x9B, 0xB6, 0xC1, 0x58, 0xE8, 0x23, 0x65, 0xAF, 0xEA, 0x25, 0x6F, 0xB1, 0xC8, 0x43, 0xC5, 0x54]
def specExp3 : List Nat :=
  [0xFC, 0x1F, 0x21, 0x63, 0xA5, 0xF4, 0x07, 0x09, 0x1B, 0x2D, 0x77, 0x99, 0xB0, 0xCB, 0x46, 0xCA,
   0x45, 0xCF, 0x4A, 0xDE, 0x79, 0x8B, 0x86, 0x91, 0xA8, 0xE3, 0x3E, 0x42, 0xC6, 0x51, 0xF3, 0x0E,
   0x12, 0x36, 0x5A, 0xEE, 0x29, 0x7B, 0x8D, 0x8C, 0x8F, 0x8A, 0x85, 0x94, 0xA7, 0xF2, 0x0D, 0x17,
   0x39, 0x4B, 0xDD, 0x7C, 0x84, 0x97, 0xA2, 0xFD, 0x1C, 0x24, 0x6C, 0xB4, 0xC7, 0x52, 0xF6, 0x01]
/-- EXP[0..255] of the field (0x11B, 0x03), as spec/95_test_vectors.md §2.3 prints them. -/
def specExp : List Byte := (specExp0 ++ specExp1 ++ specExp2 ++ specExp3).map (BitVec.ofNat 8)

def specLog0 : List Nat :=
  [0x00, 0x19, 0x01, 0x32, 0x02, 0x1A, 0xC6, 0x4B, 0xC7, 0x1B, 0x68, 0x33, 0xEE, 0xDF, 0x03, 0x64,
   0x04, 0xE0, 0x0E, 0x34, 0x8D, 0x81, 0xEF, 0x4C, 0x71, 0x08, 0xC8, 0xF8, 0x69, 0x1C, 0xC1, 0x7D,
   0xC2, 0x1D, 0xB5, 0xF9, 0xB9, 0x27, 0x6A, 0x4D, 0xE4, 0xA6, 0x72, 0x9A, 0xC9, 0x09, 0x78, 0x65,
   0x2F, 0x8A, 0x05, 0x21, 0x0F, 0xE1, 0x24, 0x12, 0xF0, 0x82, 0x45, 0x35, 0x93, 0xDA, 0x8E, 0x96]
def specLog1 : List Nat :=
  [0x8F, 0xDB, 0xBD, 0x36, 0xD0, 0xCE, 0x94, 0x13, 0x5C, 0xD2, 0xF1, 0x40, 0x46, 0x83, 0x38, 0x66,
   0xDD, 0xFD, 0x30, 0xBF, 0x06, 0x8B, 0x62, 0xB3, 0x25, 0xE2, 0x98, 0x22, 0x88, 0x91, 0x10, 0x7E,
   0x6E, 0x48, 0xC3, 0xA3, 0xB6, 0x1E, 0x42, 0x3A, 0x6B, 0x28, 0x54, 0xFA, 0x85, 0x3D, 0xBA, 0x2B,
   0x79, 0x0A, 0x15, 0x9B, 0x9F, 0x5E, 0xCA, 0x4E, 0xD4, 0xAC, 0xE5, 0xF3, 0x73, 0xA7, 0x57, 0xAF]
def specLog2 : List Nat :=
  [0x58, 0xA8, 0x50, 0xF4, 0xEA, 0xD6, 0x74, 0x4F, 0xAE, 0xE9, 0xD5, 0xE7, 0xE6, 0xAD, 0xE8, 0x2C,
   0xD7, 0x75, 0x7A, 0xEB, 0x16, 0x0B, 0xF5, 0x59, 0xCB, 0x5F, 0xB0, 0x9C, 0xA9, 0x51, 0xA0, 0x7F,
   0x0C, 0xF6, 0x6F, 0x17, 0xC4, 0x49, 0xEC, 0xD8, 0x43, 0x1F, 0x2D, 0xA4, 0x76, 0x7B, 0xB7, 0xCC,
   0xBB, 0x3E, 0x5A, 0xFB, 0x60, 0xB1, 0x86, 0x3B, 0x52, 0xA1, 0x6C, 0xAA, 0x55, 0x29, 0x9D, 0x97]
def specLog3 : List Nat :=
  [0xB2, 0x87, 0x90, 0x61, 0xBE, 0xDC, 0xFC, 0xBC, 0x95, 0xCF, 0xCD, 0x37, 0x3F, 0x5B, 0xD1, 0x53,
   0x39, 0x84, 0x3C, 0x41, 0xA2, 0x6D, 0x47, 0x14, 0x2A, 0x9E, 0x5D, 0x56, 0xF2, 0xD3, 0xAB, 0x44,
   0x11, 0x92, 0xD9, 0x23, 0x20, 0x2E, 0x89, 0xB4, 0x7C, 0xB8, 0x26, 0x77, 0x99, 0xE3, 0xA5, 0x67,
   0x4A, 0xED, 0xDE, 0xC5, 0x31, 0xFE, 0x18, 0x0D, 0x63, 0x8C, 0x80, 0xC0, 0xF7, 0x70, 0x07]
/-- LOG[1..255] of the same field, as §2.3 prints them. -/
def specLog : List Byte := (specLog0 ++ specLog1 ++ specLog2 ++ specLog3).map (BitVec.ofNat 8)

/-- EXP[0x100..0x1FE] = EXP[0x001..0x0FF] (§2.3). -/
def aesExp : Cells Byte := Cells.run 0 (specExp ++ specExp.tail)

def aesLog : Cells Byte := Cells.run 1 specLog

/-- The state after reset and a successful BUILD of the reset values (§2.3), at rest. -/
def aes : State :=
  { State.reset with fv := true, fpoly := 0x11B#16, fgen := 0x03#8,
                     mem := { exp := aesExp, log := aesLog, sx := [], sy := [] } }

/-- ERR and RESULT after a command. -/
def after (i : Instr) (s : State) : Option (BitVec 4 × Byte) :=
  match exec i s with
  | .next t => some (t.err, t.result)
  | .fault _ => none
  | .refused _ => none

/-- Operands in OPA and OPB. -/
def ops (s : State) (a b : Word) : State := { s with opa := a, opb := b }

/-- Operands in POLY and GEN. -/
def pair (s : State) (p g : Word) : State := { s with poly := p, gen := g }

/-- Samples, from index 0 on, and NSAMP. -/
def samples (s : State) (xs ys : List Word) : State :=
  { s with nsamp := BitVec.ofNat 32 xs.length, mem := { s.mem with sx := Cells.run 0 xs, sy := Cells.run 0 ys } }

/-- A state whose next step is a host access. -/
def before (s : State) (op : BusOp) : State := { s with port := [{ event := .access op, engineFirst := false }] }

/-! ### Well-formedness and decoding -/

theorem test_wf_refuses_reserved_field : (CommandFields.mk 1#28 6#4).wf = false := by decide
theorem test_wf_refuses_reserved_field_top : (CommandFields.mk 0x8000000#28 6#4).wf = false := by decide
theorem test_wf_refuses_op_zero : (CommandFields.mk 0#28 0x0#4).wf = false := by decide
theorem test_wf_refuses_op_ten : (CommandFields.mk 0#28 0xA#4).wf = false := by decide
theorem test_wf_accepts_interp : (CommandFields.mk 0#28 0x9#4).wf = true := by decide
theorem test_wf_refuses_exp_index : (HostLine.rd (.named (.exp 512)) 0).wf = false := by decide
theorem test_wf_refuses_log_index : (HostLine.rd (.named (.log 256)) 0).wf = false := by decide
theorem test_wf_refuses_sx_index : (HostLine.wr (.named (.sx 256)) (.lit 0#32)).wf = false := by decide
theorem test_wf_refuses_sy_index : (HostLine.wr (.named (.sy 256)) (.lit 0#32)).wf = false := by decide
theorem test_wf_refuses_reserved_name : (HostLine.rd (.named .reserved) 0).wf = false := by decide
theorem test_wf_refuses_inv_as_binary : (HostLine.binary .inv (.lit 1#32) (.lit 2#32) 0).wf = false := by decide
theorem test_wf_refuses_no_samples : (HostLine.samples []).wf = false := by decide
theorem test_wf_refuses_mnemonic_outside_cmd : (HostLine.wr (.named .opa) (.mnemonic .mul)).wf = false := by decide
theorem test_wf_refuses_mnemonic_operands :
    (HostLine.binary .add (.mnemonic .mul) (.lit 2#32) 2).wf = false ∧ (HostLine.inv (.mnemonic .mul) 2).wf = false ∧
    (HostLine.isgen (.lit 1#32) (.mnemonic .mul) 2).wf = false ∧ (HostLine.setField (.mnemonic .mul) (.lit 1#32)).wf = false ∧
    (HostLine.samples [(.lit 1#32, .mnemonic .mul)]).wf = false ∧ (HostLine.interp (.mnemonic .mul) 2).wf = false := by decide
theorem test_wf_accepts_mnemonic_in_cmd :
    (HostLine.wr (.named .cmd) (.mnemonic .mul)).wf = true ∧ (HostLine.wr (.raw 0x000#13) (.mnemonic .mul)).wf = true := by
  decide

/-- The nine words, bit by bit from R76 and R78: RSV (28 zeros), then OP. -/
theorem test_decode_written_words :
    decode 0b00000000000000000000000000000001#32 = .command .clmul ∧
    decode 0b00000000000000000000000000000010#32 = .command .isgen ∧
    decode 0b00000000000000000000000000000011#32 = .command .build ∧
    decode 0b00000000000000000000000000000100#32 = .command .add ∧
    decode 0b00000000000000000000000000000101#32 = .command .sub ∧
    decode 0b00000000000000000000000000000110#32 = .command .mul ∧
    decode 0b00000000000000000000000000000111#32 = .command .div ∧
    decode 0b00000000000000000000000000001000#32 = .command .inv ∧
    decode 0b00000000000000000000000000001001#32 = .command .interp := by decide

/-- §2.8's reserved words. -/
theorem test_decode_reserved_words :
    decode 0x00000000#32 = .illegal .reservedOp ∧ decode 0x0000000A#32 = .illegal .reservedOp ∧
    decode 0x0000000F#32 = .illegal .reservedOp ∧ decode 0x00000016#32 = .illegal .reservedField ∧
    decode 0x80000006#32 = .illegal .reservedField := by decide

/-! ### Commands -/

/-- §2.1. -/
theorem test_clmul_vectors :
    mulbytes 0x53#8 0xCA#8 0x11B#16 = 0x01#8 ∧ mulbytes 0x57#8 0x83#8 0x11B#16 = 0xC1#8 ∧
    mulbytes 0x57#8 0x83#8 0xFF1B#16 = 0xC1#8 ∧ mulbytes 0x57#8 0x83#8 0x11D#16 = 0x31#8 ∧
    mulbytes 0x80#8 0x02#8 0x11B#16 = 0x1B#8 ∧ mulbytes 0xFF#8 0xFF#8 0x11D#16 = 0xE2#8 ∧
    mulbytes 0x80#8 0x02#8 0x100#16 = 0x00#8 := by decide

/-- §2.1 and P3: CLMUL needs no field; its range checks. -/
theorem test_clmul_command :
    after .clmul (ops State.reset 0x57#32 0x83#32) = some (0#4, 0xC1#8) ∧
    after .clmul (ops State.reset 0x01#32 0x100#32) = some (1#4, 0x00#8) ∧
    after .clmul (pair (ops State.reset 1#32 1#32) 0x10000#32 3#32) = some (1#4, 0x00#8) := by decide

/-- §2.2. -/
theorem test_isgen_vectors :
    isgen 0x11B#16 0xE5#8 = true ∧ isgen 0x11B#16 0xFF#8 = true ∧ isgen 0x11D#16 0x02#8 = true ∧
    isgen 0x11B#16 0x02#8 = false ∧ isgen 0x11D#16 0xFF#8 = false ∧ isgen 0x100#16 0x02#8 = false := by decide +kernel

/-- §2.2. -/
theorem test_isgen_command :
    after .isgen State.reset = some (0#4, 1#8) ∧ after .isgen (pair State.reset 0x11B#32 0x100#32) = some (1#4, 0#8) ∧
    after .isgen (pair State.reset 0x10000#32 0x03#32) = some (1#4, 0#8) := by decide +kernel

/-- §2.3: the whole of both tables. -/
theorem test_build_tables_of_the_default_field : fillTables 0x11B#16 0x03#8 [] [] = (aesExp, aesLog) := by decide +kernel

/-- §2.3: success, InvalidGenerator, OutOfRange; BUILD writes no RESULT. -/
theorem test_build_command :
    after .build { State.reset with result := 0x55#8 } = some (0#4, 0x55#8) ∧
    after .build (pair State.reset 0x11B#32 0x02#32) = some (2#4, 0#8) ∧
    after .build (pair State.reset 0x11B#32 0x100#32) = some (1#4, 0#8) := by decide +kernel

/-- §2.4. -/
theorem test_add_command :
    after .add (ops aes 0x53#32 0xCA#32) = some (0#4, 0x99#8) ∧ after .add (ops aes 0x00#32 0x100#32) = some (1#4, 0#8) ∧
    after .add (ops State.reset 1#32 2#32) = some (6#4, 0#8) := by decide +kernel

/-- §2.4. -/
theorem test_sub_command :
    after .sub (ops aes 0x99#32 0xCA#32) = some (0#4, 0x53#8) ∧ after .sub (ops aes 0x100#32 0x01#32) = some (1#4, 0#8) := by
  decide +kernel

/-- §2.5. -/
theorem test_mul_command :
    after .mul (ops aes 0x64#32 0x64#32) = some (0#4, 0xD7#8) ∧ after .mul (ops aes 0xFF#32 0xFF#32) = some (0#4, 0x13#8) ∧
    after .mul (ops aes 0xF6#32 0x02#32) = some (0#4, 0xF7#8) ∧ after .mul (ops aes 0x53#32 0xCA#32) = some (0#4, 0x01#8) ∧
    after .mul (ops aes 0x05#32 0x00#32) = some (0#4, 0x00#8) := by decide +kernel

/-- §2.5: the range checks come before the zero short-cut. -/
theorem test_mul_errors :
    after .mul (ops aes 0x100#32 0x00#32) = some (1#4, 0#8) ∧ after .mul (ops State.reset 0x100#32 0#32) = some (6#4, 0#8) := by
  decide +kernel

/-- §2.5. -/
theorem test_div_command :
    after .div (ops aes 0xD7#32 0x64#32) = some (0#4, 0x64#8) ∧ after .div (ops aes 0x03#32 0x02#32) = some (0#4, 0x8C#8) ∧
    after .div (ops aes 0x07#32 0x07#32) = some (0#4, 0x01#8) ∧ after .div (ops aes 0x00#32 0x07#32) = some (0#4, 0x00#8) := by
  decide +kernel

/-- §2.5: the order of DIV's checks. -/
theorem test_div_errors :
    after .div (ops aes 0x05#32 0x00#32) = some (3#4, 0#8) ∧ after .div (ops aes 0x00#32 0x00#32) = some (3#4, 0#8) ∧
    after .div (ops aes 0x100#32 0x00#32) = some (1#4, 0#8) := by decide +kernel

/-- §2.5. -/
theorem test_inv_command :
    after .inv (ops aes 0x53#32 0xFFF#32) = some (0#4, 0xCA#8) ∧ after .inv (ops aes 0x01#32 0#32) = some (0#4, 0x01#8) ∧
    after .inv (ops aes 0x02#32 0#32) = some (0#4, 0x8D#8) := by decide +kernel

/-- §2.5. -/
theorem test_inv_errors :
    after .inv (ops aes 0x00#32 0#32) = some (4#4, 0#8) ∧ after .inv (ops aes 0x100#32 0#32) = some (1#4, 0#8) := by
  decide +kernel

/-- §2.6: the secret of P4, a value beyond the samples, a sample abscissa, n = 1 with nothing checked but y. -/
theorem test_interp_command :
    after .interp (ops (samples aes [1#32, 2#32, 3#32] [0xF6#32, 0xD6#32, 0x62#32]) 0#32 0#32) = some (0#4, 0x42#8) ∧
    after .interp (ops (samples aes [1#32, 2#32, 3#32] [0xF6#32, 0xD6#32, 0x62#32]) 7#32 0#32) = some (0#4, 0xE0#8) ∧
    after .interp (ops (samples aes [1#32, 2#32, 3#32] [0#32, 1#32, 0#32]) 2#32 0#32) = some (0#4, 0x01#8) ∧
    after .interp (ops (samples aes [300#32] [0x05#32]) 300#32 0#32) = some (0#4, 0x05#8) := by decide +kernel

/-- §2.6: the errors and their order. -/
theorem test_interp_errors :
    after .interp (ops (samples aes [] []) 0#32 0#32) = some (5#4, 0#8) ∧
    after .interp { aes with nsamp := 257#32 } = some (1#4, 0#8) ∧
    after .interp (ops (samples aes [5#32, 5#32] [300#32, 1#32]) 0#32 0#32) = some (3#4, 0#8) ∧
    after .interp (ops (samples aes [1#32, 2#32] [1#32, 300#32]) 0#32 0#32) = some (1#4, 0#8) ∧
    after .interp (ops (samples aes [1#32, 300#32] [1#32, 2#32]) 0#32 0#32) = some (1#4, 0#8) ∧
    after .interp (ops (samples aes [1#32, 2#32] [1#32, 2#32]) 300#32 0#32) = some (1#4, 0#8) := by decide +kernel

/-! ### The bus and the step -/

/-- The response of the next step. -/
def response (s : State) : Option Response := (stepNext s).resp

/-- §2.8. -/
theorem test_bus_errors :
    response (before aes (.read 0x028#13 4)) = some .error ∧ response (before aes (.read 0x3FC#13 4)) = some .error ∧
    response (before aes (.read 0x1800#13 4)) = some .error ∧ response (before aes (.write 0x400#13 4 0#32)) = some .error ∧
    response (before aes (.write 0xC04#13 4 0#32)) = some .error ∧ response (before aes (.read 0x008#13 2)) = some .error ∧
    response (before aes (.read 0x009#13 4)) = some .error := by decide +kernel

/-- §2.8, P1. -/
theorem test_bus_reads :
    response (before aes (.read 0x404#13 4)) = some (.data 3#32) ∧ response (before aes (.read 0xC0C#13 4)) = some (.data 1#32) ∧
    response (before aes (.read 0x004#13 4)) = some (.data 2#32) ∧ response (before aes (.read 0x000#13 4)) = some (.data 0#32) ∧
    response (before aes (.read 0x020#13 4)) = some (.data 0x11B#32) := by decide +kernel

/-- P5: a write while busy is discarded and sets COLL; STATUS bit 2 clears it. -/
theorem test_bus_collision :
    (stepNext (before { aes with busy := true, pend := 6#32, opb := 2#32 } (.write 0x00C#13 4 3#32))).opb = 2#32 ∧
    (stepNext (before { aes with busy := true, pend := 6#32, opb := 2#32 } (.write 0x00C#13 4 3#32))).coll = true ∧
    (stepNext (before { aes with coll := true } (.write 0x004#13 4 4#32))).coll = false := by decide +kernel

/-- A host's data with nothing bound. -/
def noVariables : HostEnv := { vars := [], busError := false }

/-- A host that begins on the block in state s. -/
def hostAt (s : State) : HostRun := { block := s, wait := 0 }

/-- P1's last reads and P2's first command, through the port: DIV 5, 0 leaves RESULT stale and
STATUS = 0x302; then err, a host variable, is written to OPB. -/
theorem test_program_stale_result :
    ((runProgram (fun _ => 0) [.binary .div (.lit 5#32) (.lit 0#32) 2, .rd (.named .status) 3, .wr (.named .opb) (.var .err)]
        noVariables (hostAt { aes with result := 0xD7#8 })).map
      fun r => (Cells.get 2 r.1.vars, Cells.get 3 r.1.vars, Cells.get HostVar.s r.1.vars, r.1.err, r.2.block.opb)) =
      some (some 0xD7#32, some 0x302#32, some 0x302#32, some 3#32, 3#32) := by
  decide +kernel

/-- P5 from the end state of P1, without its poll: MUL 1, 2, then OPB <- 3, then STATUS, RESULT and OPB are read. The first
number is how many accesses come before the completion. -/
def racingWrite (n : Nat) : Option (Option Word × Option Word × Option Word) :=
  (runProgram (fun _ => n)
    [.wr (.named .opa) (.lit 1#32), .wr (.named .opb) (.lit 2#32), .wr (.named .cmd) (.mnemonic .mul),
      .wr (.named .opb) (.lit 3#32), .rd (.named .status) 2, .rd (.named .result) 3, .rd (.named .opb) 4]
    noVariables (hostAt aes)).map fun r => (Cells.get 2 r.1.vars, Cells.get 3 r.1.vars, Cells.get 4 r.1.vars)

/-- P5's two orders: completion first, and write first. -/
theorem test_program_both_orders :
    racingWrite 0 = some (some 2#32, some 2#32, some 3#32) ∧
    racingWrite 1 = some (some 6#32, some 2#32, some 2#32) := by decide +kernel

/-- §2.7: evaluate([1,2,3], 2) = 9. -/
theorem test_evaluate :
    (match (evaluate (fun _ => 0) [1#32, 2#32, 3#32] 2#32 (hostAt aes)).1 with
      | .ok v => decide (v = 9#32)
      | .error _ => false) = true := by decide +kernel

/-- §2.7: mulPolynomials([2,3], [1,2]) = [2,7,6]. -/
theorem test_mulPolynomials :
    (match (mulPolynomials (fun _ => 0) [2#32, 3#32] [1#32, 2#32] (hostAt aes)).1 with
      | .ok v => decide (v = [2#32, 7#32, 6#32])
      | .error _ => false) = true := by decide +kernel

/-! ### Witnesses: states that meet the hypotheses of the statements -/

theorem aes_inv : Inv aes where
  memory := by decide +kernel
  code := by decide
  empty := by intro h; exact absurd h (by decide)
  field := fun _ => ⟨(by decide +kernel : isgen 0x11B#16 0x03#8 = true), test_build_tables_of_the_default_field⟩

/-- The invariant says nothing of the fields that the host writes. -/
theorem inv_of_host_fields {s : State} (h : Inv s) (a b p g n : Word) (q : List PortEntry) :
    Inv { s with opa := a, opb := b, poly := p, gen := g, nsamp := n, port := q } :=
  ⟨h.memory, h.code, h.empty, h.field⟩

/-- A state whose next step is a host access, with nothing pending. -/
theorem hostNext_before (s : State) (op : BusOp) : HostNext (before s op) op [] := ⟨false, rfl, .inr rfl⟩

/-- A pending MUL whose completion is next. -/
def pendingMul : State := { aes with busy := true, pend := 6#32 }

/-- A pending BUILD with an access before its completion. -/
def pendingBuildRead : State := before { aes with busy := true, pend := 3#32 } (.read 0x010#13 4)

theorem witness_ResetInputRestoresEverything :
    ∃ s : State, s.busy = true ∧ s.port = [{ event := .reset, engineFirst := false }] :=
  ⟨{ pendingMul with port := [{ event := .reset, engineFirst := false }] }, rfl, rfl⟩

theorem witness_StepKeepsTheInvariant : Inv aes ∧ step aes = .next aes := ⟨aes_inv, rfl⟩

theorem witness_StepRunsThePendingCommand :
    pendingMul.busy = true ∧ decode pendingMul.pend = .command .mul ∧ pendingMul.port = [] := by decide

theorem witness_OperandsStayWhileBusy :
    ∃ t, pendingBuildRead.busy = true ∧ step pendingBuildRead = .next t ∧ t.busy = true := ⟨_, rfl, rfl, rfl⟩

theorem witness_PendingCommandCompletes :
    pendingBuildRead.busy = true ∧ ∀ e ∈ pendingBuildRead.port, e.event ≠ .reset := by decide

theorem witness_ReservedWordsCompleteIllegal :
    (0x16#32).toNat / 16 ≠ 0 ∧ (0x0#32).toNat % 16 = 0 ∧ 0xA ≤ (0xA#32).toNat % 16 ∧
    (before aes (.write 0x000#13 4 0x16#32)).busy = false ∧
    HostNext (before aes (.write 0x000#13 4 0x16#32)) (.write 0x000#13 4 0x16#32) [] ∧
    engineTurn { aes with busy := true, pend := 0xF#32 } = true :=
  ⟨by decide, by decide, by decide, rfl, hostNext_before _ _, rfl⟩

theorem witness_CommandWriteAcceptedOrDiscarded :
    (HostNext (before aes (.write 0x000#13 4 6#32)) (.write 0x000#13 4 6#32) [] ∧
      (before aes (.write 0x000#13 4 6#32)).busy = false) ∧
    (HostNext (before pendingMul (.write 0x000#13 4 6#32)) (.write 0x000#13 4 6#32) [] ∧
      (before pendingMul (.write 0x000#13 4 6#32)).busy = true) ∧
    HostNext (before aes (.read 0x000#13 4)) (.read 0x000#13 4) [] :=
  ⟨⟨hostNext_before _ _, rfl⟩, ⟨hostNext_before _ _, rfl⟩, hostNext_before _ _⟩

theorem witness_BusyIsSetByAcceptanceClearedByCompletion :
    (∃ t, step (before aes (.write 0x000#13 4 6#32)) = .next t ∧ t.busy = true) ∧
    (∃ t, step pendingMul = .next t ∧ pendingMul.busy = true ∧ t.busy = false) ∧ engineTurn pendingMul = true ∧
    HostNext (before pendingMul (.write 0x004#13 4 1#32)) (.write 0x004#13 4 1#32) [] :=
  ⟨⟨_, rfl, rfl⟩, ⟨_, rfl, rfl, rfl⟩, rfl, hostNext_before _ _⟩

theorem witness_CollisionFlagFollowsDiscardedWrites :
    (HostNext (before pendingMul (.write 0x01C#13 4 1#32)) (.write 0x01C#13 4 1#32) [] ∧
      (before pendingMul (.write 0x01C#13 4 1#32)).busy = true) ∧
    HostNext (before pendingMul (.write 0x17FC#13 4 1#32)) (.write 0x17FC#13 4 1#32) [] ∧
    (∃ t, step (before pendingMul (.write 0x1000#13 4 1#32)) = .next t ∧ t.coll = true) ∧
    HostNext (before pendingMul (.write 0xFFC#13 4 1#32)) (.write 0xFFC#13 4 1#32) [] :=
  ⟨⟨hostNext_before _ _, rfl⟩, hostNext_before _ _, ⟨_, rfl, rfl⟩, hostNext_before _ _⟩

theorem witness_ReservedOffsetsGetError :
    HostNext (before pendingMul (.read 0x3FC#13 4)) (.read 0x3FC#13 4) [] ∧ (0x3FC#13).toNat ≤ 0x03FF ∧
    HostNext (before aes (.write 0x1800#13 4 0#32)) (.write 0x1800#13 4 0#32) [] ∧ 0x1800 ≤ (0x1800#13).toNat ∧
    HostNext (before aes (.read 0x028#13 4)) (.read 0x028#13 4) [] :=
  ⟨hostNext_before _ _, by decide, hostNext_before _ _, by decide, hostNext_before _ _⟩

theorem witness_IllegalWidthOrAlignmentGetsError :
    HostNext (before aes (.read 0x008#13 8)) (.read 0x008#13 8) [] ∧
    HostNext (before aes (.write 0x00B#13 4 0#32)) (.write 0x00B#13 4 0#32) [] ∧ (0x00B#13).toNat % 4 ≠ 0 :=
  ⟨hostNext_before _ _, hostNext_before _ _, by decide⟩

theorem witness_TableWindowsReadOnly :
    HostNext (before aes (.read (BitVec.ofNat 13 (0x0400 + 4 * 510)) 4)) (.read (BitVec.ofNat 13 (0x0400 + 4 * 510)) 4) [] ∧
    Cells.get 510 aes.mem.exp = some 1#8 ∧
    HostNext (before aes (.read (BitVec.ofNat 13 (0x0C00 + 4 * 255)) 4)) (.read (BitVec.ofNat 13 (0x0C00 + 4 * 255)) 4) [] ∧
    Cells.get 255 aes.mem.log = some 7#8 ∧
    HostNext (before aes (.write 0xFFC#13 4 0#32)) (.write 0xFFC#13 4 0#32) [] :=
  ⟨hostNext_before _ _, by decide +kernel, hostNext_before _ _, by decide +kernel, hostNext_before _ _⟩

/-- A state with one sample, in the last cells. -/
def lastSample : State := { aes with mem := { aes.mem with sx := [(255, 7#32)], sy := [(255, 300#32)] } }

theorem witness_SampleMemoryReadsAndWrites :
    HostNext (before lastSample (.write (BitVec.ofNat 13 (0x1000 + 8 * 255)) 4 9#32))
      (.write (BitVec.ofNat 13 (0x1000 + 8 * 255)) 4 9#32) [] ∧
    HostNext (before lastSample (.read (BitVec.ofNat 13 (0x1004 + 8 * 255)) 4))
      (.read (BitVec.ofNat 13 (0x1004 + 8 * 255)) 4) [] ∧
    Cells.get 255 lastSample.mem.sx = some 7#32 ∧ Cells.get 255 lastSample.mem.sy = some 300#32 ∧
    HostNext (before pendingMul (.write (BitVec.ofNat 13 (0x1004 + 8 * 255)) 4 9#32))
      (.write (BitVec.ofNat 13 (0x1004 + 8 * 255)) 4 9#32) [] ∧ pendingMul.busy = true :=
  ⟨hostNext_before _ _, hostNext_before _ _, rfl, rfl, hostNext_before _ _, rfl⟩

theorem witness_ReadOnlyRegistersIgnoreWrites :
    HostNext (before pendingMul (.write 0x010#13 4 9#32)) (.write 0x010#13 4 9#32) [] ∧
    HostNext (before aes (.write 0x024#13 4 9#32)) (.write 0x024#13 4 9#32) [] ∧
    HostNext (before aes (.read 0x000#13 4)) (.read 0x000#13 4) [] ∧
    HostNext (before aes (.write 0x004#13 4 4#32)) (.write 0x004#13 4 4#32) [] :=
  ⟨hostNext_before _ _, hostNext_before _ _, hostNext_before _ _, hostNext_before _ _⟩

theorem witness_ReadsChangeNothing : HostNext (before pendingMul (.read 0x1FFF#13 3)) (.read 0x1FFF#13 3) [] :=
  hostNext_before _ _

theorem witness_IdleRegistersReadAndWrite :
    (before aes (.write 0x01C#13 4 9#32)).busy = false ∧
    HostNext (before aes (.write 0x01C#13 4 9#32)) (.write 0x01C#13 4 9#32) [] ∧
    HostNext (before aes (.read 0x024#13 4)) (.read 0x024#13 4) [] ∧
    HostNext (before aes (.read 0x004#13 4)) (.read 0x004#13 4) [] :=
  ⟨rfl, hostNext_before _ _, hostNext_before _ _, hostNext_before _ _⟩

theorem witness_ReservedStatusBits :
    HostNext (before pendingMul (.read 0x004#13 4)) (.read 0x004#13 4) [] ∧
    HostNext (before aes (.write 0x004#13 4 0xFFFFFFFB#32)) (.write 0x004#13 4 0xFFFFFFFB#32) [] :=
  ⟨hostNext_before _ _, hostNext_before _ _⟩

theorem witness_BusyReadsOfStoredValues :
    (before pendingMul (.read 0x024#13 4)).busy = true ∧ decode pendingMul.pend ≠ .command .build ∧
    HostNext (before pendingMul (.read 0x024#13 4)) (.read 0x024#13 4) [] ∧
    HostNext (before { lastSample with busy := true } (.read (BitVec.ofNat 13 (0x1000 + 8 * 255)) 4))
      (.read (BitVec.ofNat 13 (0x1000 + 8 * 255)) 4) [] ∧ Cells.get 255 lastSample.mem.sx = some 7#32 ∧
    Cells.get 0 pendingMul.mem.exp = some 1#8 ∧ Cells.get 1 pendingMul.mem.log = some 0#8 :=
  ⟨rfl, by decide, hostNext_before _ _, hostNext_before _ _, rfl, by decide +kernel, by decide +kernel⟩

theorem witness_FieldContextWrittenByBuildAndReset :
    ∃ t, step { State.reset with busy := true, pend := 3#32 } = .next t ∧ t.fv ≠ State.reset.fv := by
  refine ⟨stepNext { State.reset with busy := true, pend := 3#32 }, rfl, ?_⟩
  decide +kernel

theorem witness_ErrorChangesOnlyErrAndBusy :
    ∃ t, exec .div (ops aes 5#32 0#32) = .next t ∧ t.err ≠ 0#4 := ⟨_, rfl, by decide +kernel⟩

theorem witness_ErrorCodesPerCommand :
    (∃ t, exec .div (ops aes 5#32 0#32) = .next t) ∧
    engineTurn { aes with busy := true, pend := 0x10#32 } = true ∧ decode 0x10#32 = .illegal .reservedField :=
  ⟨⟨_, rfl⟩, rfl, by decide⟩

theorem witness_ClmulMultipliesBytes :
    ((ops aes 255#32 255#32).opa.toNat ≤ 255 ∧ (ops aes 255#32 255#32).opb.toNat ≤ 255 ∧
      (pair aes 0xFFFF#32 0#32).poly.toNat ≤ 0xFFFF) ∧ 255 < (ops aes 256#32 1#32).opa.toNat := by decide

theorem witness_OnlyTheReductionByteMatters :
    (pair State.reset 0x11B#32 3#32).poly.toNat ≤ 0xFFFF ∧ (0xFF1B#32).toNat ≤ 0xFFFF ∧
    ((pair State.reset 0x11B#32 3#32).poly.setWidth 8 : Byte) = (0xFF1B#32).setWidth 8 := by decide

theorem witness_IsgenAnswersTheGeneratorTest :
    (pair aes 0xFFFF#32 255#32).poly.toNat ≤ 0xFFFF ∧ (pair aes 0xFFFF#32 255#32).gen.toNat ≤ 255 ∧
    0xFFFF < (pair aes 0x10000#32 3#32).poly.toNat := by decide

theorem witness_GeneratorNeedsIrreducibleModulus : isgen 0x11D#16 0x02#8 = true := by decide +kernel

theorem witness_BuildCommitsTheField :
    State.reset.poly.toNat ≤ 0xFFFF ∧ State.reset.gen.toNat ≤ 255 ∧
    isgen (State.reset.poly.setWidth 16) (State.reset.gen.setWidth 8) = true := by decide +kernel

theorem witness_BuildFailureKeepsTheField :
    255 < (pair aes 0x11B#32 256#32).gen.toNat ∧
    isgen ((pair aes 0x11B#32 2#32).poly.setWidth 16) ((pair aes 0x11B#32 2#32).gen.setWidth 8) = false ∧
    ∃ t, exec .build (pair aes 0x11B#32 256#32) = .next t ∧ t.err ≠ 0#4 :=
  ⟨by decide, by decide +kernel, _, rfl, by decide +kernel⟩

theorem witness_BuiltTablesAreMutualInverses : ∃ t, exec .build State.reset = .next t ∧ t.err = 0#4 :=
  ⟨_, rfl, by decide +kernel⟩

theorem witness_TableReadsStayInRange : Inv aes ∧ aes.fv = true ∧ (255#8 : Byte) ≠ 0#8 ∧ (1#8 : Byte) ≠ 0#8 :=
  ⟨aes_inv, rfl, by decide, by decide⟩

theorem witness_AddIsXor :
    State.reset.fv = false ∧ (ops aes 256#32 0#32).fv = true ∧ 255 < (ops aes 256#32 0#32).opa.toNat ∧
    (ops aes 255#32 0#32).opa.toNat ≤ 255 := by decide

theorem witness_SubIsXorAsAdd :
    State.reset.fv = false ∧ (ops aes 0#32 256#32).fv = true ∧ 255 < (ops aes 0#32 256#32).opb.toNat ∧
    (ops aes 0#32 255#32).opb.toNat ≤ 255 := by decide

theorem witness_AddLaws : aes.fv = true := rfl

theorem witness_MulLooksUpLogarithms :
    (ops aes 255#32 255#32).fv = true ∧ (ops aes 255#32 255#32).opa ≠ 0#32 ∧
    Cells.get (ops aes 255#32 255#32).opa.toNat aes.mem.log = some 7#8 ∧ Cells.get (7 + 7) aes.mem.exp = some 0x13#8 ∧
    aes.fpoly = 0x11B#16 ∧ aes.fgen = 0x03#8 ∧ Inv aes :=
  ⟨rfl, by decide, by decide +kernel, by decide +kernel, rfl, rfl, aes_inv⟩

theorem witness_MulAgreesWithTheMultiplier :
    Inv (ops aes 255#32 255#32) ∧ (ops aes 255#32 255#32).fv = true ∧ (ops aes 255#32 255#32).opa.toNat ≤ 255 :=
  ⟨inv_of_host_fields aes_inv _ _ _ _ _ _, rfl, by decide⟩

theorem witness_ClmulAndMulAgree : Inv (ops aes 255#32 1#32) ∧ (ops aes 255#32 1#32).poly = zext32 aes.fpoly :=
  ⟨inv_of_host_fields aes_inv _ _ _ _ _ _, by decide⟩

theorem witness_MulLaws : Inv aes ∧ aes.fv = true := ⟨aes_inv, rfl⟩

theorem witness_DivSubtractsLogarithms :
    (ops aes 3#32 2#32).fv = true ∧ Cells.get 3 aes.mem.log = some 1#8 ∧ Cells.get 2 aes.mem.log = some 25#8 ∧
    Cells.get (1 + 255 - 25) aes.mem.exp = some 0x8C#8 ∧ (ops aes 255#32 0#32).opb = 0#32 ∧ Inv aes :=
  ⟨rfl, by decide +kernel, by decide +kernel, by decide +kernel, rfl, aes_inv⟩

theorem witness_DivLaws : Inv aes ∧ aes.fv = true ∧ (255#8 : Byte) ≠ 0#8 := ⟨aes_inv, rfl, by decide⟩

theorem witness_InvLooksUpTheInverse :
    (ops aes 255#32 0#32).opa.toNat ≤ 255 ∧ Cells.get 255 aes.mem.log = some 7#8 ∧
    Cells.get (255 - 7) aes.mem.exp = some 0x1C#8 ∧ 255 < (ops aes 256#32 0#32).opa.toNat ∧ Inv aes :=
  ⟨by decide, by decide +kernel, by decide +kernel, by decide, aes_inv⟩

theorem witness_InvLaws : Inv aes ∧ aes.fv = true ∧ (255#8 : Byte) ≠ 0#8 ∧ (1#8 : Byte) ≠ 0#8 :=
  ⟨aes_inv, rfl, by decide, by decide⟩

/-- A state with the field context that a BUILD of (p, g) commits after reset. -/
def fieldState (p : Half) (g : Byte) : State :=
  { State.reset with
    fv := true, fpoly := p, fgen := g
    mem := { State.reset.mem with
      exp := (fillTables p g State.reset.mem.exp State.reset.mem.log).1
      log := (fillTables p g State.reset.mem.exp State.reset.mem.log).2 } }

theorem fieldState_built (p : Half) (g : Byte) (h : isgen p g = true) : FieldBuilt (fieldState p g) := by
  simp [FieldBuilt, fieldState, State.reset, h]

theorem fieldState_memory (p : Half) (g : Byte) : Memory.wf (fieldState p g).mem = true :=
  Laws.Memory.wf_fillTables p g Laws.Memory.wf_reset

theorem fieldState_inv (p : Half) (g : Byte) (h : isgen p g = true) : Inv (fieldState p g) :=
  ⟨fieldState_memory p g, by simp [fieldState, State.reset], fun hv => absurd hv (by simp [fieldState]),
    fun _ => fieldState_built p g h⟩

/-- The field (0x11B, 0xE5), of the default field's polynomial. -/
def otherField : State := fieldState 0x11B#16 0xE5#8

theorem otherField_inv : Inv otherField := fieldState_inv _ _ (by decide +kernel)

theorem witness_ProductsDependOnThePolynomialAlone :
    Inv aes ∧ Inv otherField ∧ aes.fv = true ∧ otherField.fv = true ∧
    (aes.fpoly.setWidth 8 : Byte) = otherField.fpoly.setWidth 8 ∧ aes.fgen ≠ otherField.fgen ∧ otherField.fgen = 0xE5#8 :=
  ⟨aes_inv, otherField_inv, rfl, rfl, rfl, by decide, rfl⟩

theorem witness_InterpChecksItsCount :
    State.reset.fv = false ∧ aes.fv = true ∧ aes.nsamp = 0#32 ∧ 256 < ({ aes with nsamp := 257#32 } : State).nsamp.toNat := by
  decide

/-- Two samples, their x distinct. -/
def twoSamples : State := ops (samples aes [1#32, 255#32] [255#32, 0#32]) 255#32 0#32

/-- Two samples, their x equal. -/
def duplicateSamples : State := ops (samples aes [5#32, 5#32] [255#32, 0#32]) 255#32 0#32

theorem twoSamples_inv : Inv twoSamples :=
  ⟨by decide +kernel, by decide, fun h => absurd h (by decide), aes_inv.field⟩

theorem duplicateSamples_inv : Inv duplicateSamples :=
  ⟨by decide +kernel, by decide, fun h => absurd h (by decide), aes_inv.field⟩

theorem twoSamples_inRange : SamplesInRange twoSamples 2 := by
  intro i hi
  rcases i with _ | _ | i
  · exact ⟨⟨1#8, rfl⟩, ⟨255#8, rfl⟩⟩
  · exact ⟨⟨255#8, rfl⟩, ⟨0#8, rfl⟩⟩
  · omega

theorem duplicateSamples_inRange : SamplesInRange duplicateSamples 2 := by
  intro i hi
  rcases i with _ | _ | i
  · exact ⟨⟨5#8, rfl⟩, ⟨255#8, rfl⟩⟩
  · exact ⟨⟨5#8, rfl⟩, ⟨0#8, rfl⟩⟩
  · omega

theorem twoSamples_distinct : SamplesDistinct twoSamples 2 := by
  intro i j hij hj
  obtain ⟨rfl, rfl⟩ : i = 0 ∧ j = 1 := by omega
  decide

theorem witness_InterpOfOneSample :
    Inv (samples aes [300#32] [255#32]) ∧ (samples aes [300#32] [255#32]).nsamp = 1#32 ∧
    Cells.get 0 (samples aes [300#32] [255#32]).mem.sy = some 255#32 ∧
    Cells.get 0 (samples aes [300#32] [256#32]).mem.sy = some 256#32 ∧ Inv (samples aes [300#32] [256#32]) :=
  ⟨⟨by decide +kernel, by decide, fun h => absurd h (by decide), aes_inv.field⟩, rfl, rfl, rfl,
    ⟨by decide +kernel, by decide, fun h => absurd h (by decide), aes_inv.field⟩⟩

theorem witness_InterpOfDuplicatesDividesByZero :
    Inv duplicateSamples ∧ duplicateSamples.fv = true ∧ duplicateSamples.nsamp.toNat = 2 ∧
    duplicateSamples.opa.toNat ≤ 255 ∧ SamplesInRange duplicateSamples 2 ∧
    Cells.get 0 duplicateSamples.mem.sx = Cells.get 1 duplicateSamples.mem.sx :=
  ⟨duplicateSamples_inv, rfl, rfl, by decide, duplicateSamples_inRange, rfl⟩

theorem witness_InterpReportsTheFirstError :
    255 < (ops twoSamples 256#32 0#32).opa.toNat ∧ 2 ≤ twoSamples.nsamp.toNat ∧ duplicateSamples.opa.toNat ≤ 255 ∧
    Cells.get 0 duplicateSamples.mem.sx = some (zext32 5#8) ∧ Cells.get 1 duplicateSamples.mem.sx = some (zext32 5#8) := by
  decide

/-- The first turn is always reached. -/
theorem turnReached_first (s : State) : TurnReached s 0 1 :=
  ⟨fun i' j' h hne => absurd hne (by omega), fun i' h => absurd h (by omega)⟩

/-- Samples, to be evaluated at x = 0. -/
def lateFault (xs ys : List Word) : State := ops (samples aes xs ys) 0#32 0#32

/-- The checks of SX[j] and SX[i], at the first turn, by states with one value of 256. -/
theorem witness_InterpReportsTheFirstError_x :
    TurnReached (lateFault [1#32, 256#32] [0#32, 0#32]) 0 1 ∧
    Cells.get 1 (lateFault [1#32, 256#32] [0#32, 0#32]).mem.sx = some 256#32 ∧
    TurnReached (lateFault [256#32, 1#32] [0#32, 0#32]) 0 1 ∧
    Cells.get 0 (lateFault [256#32, 1#32] [0#32, 0#32]).mem.sx = some 256#32 ∧
    Cells.get 1 (lateFault [256#32, 1#32] [0#32, 0#32]).mem.sx = some (zext32 1#8) :=
  ⟨turnReached_first _, rfl, turnReached_first _, rfl, rfl⟩

/-- The check of SY[i] at the last sample, and a duplicate at the last pair of the first row. -/
theorem witness_InterpReportsTheFirstError_late :
    TurnReached (lateFault [1#32, 2#32] [0#32, 256#32]) 1 2 ∧
    Cells.get 1 (lateFault [1#32, 2#32] [0#32, 256#32]).mem.sy = some 256#32 ∧
    TurnReached (lateFault [1#32, 2#32, 1#32] [0#32, 0#32, 0#32]) 0 2 ∧
    Cells.get 2 (lateFault [1#32, 2#32, 1#32] [0#32, 0#32, 0#32]).mem.sx = some (zext32 1#8) := by
  refine ⟨⟨fun i' j' h hne => ?_, fun i' h => ?_⟩, rfl, ⟨fun i' j' h hne => ?_, fun i' h => absurd h (by omega)⟩, rfl⟩
  · have hn : (lateFault [1#32, 2#32] [0#32, 256#32]).nsamp.toNat = 2 := rfl
    rw [hn] at h
    obtain ⟨rfl, rfl⟩ | ⟨rfl, rfl⟩ : (i' = 0 ∧ j' = 1) ∨ (i' = 1 ∧ j' = 0) := by omega
    · exact ⟨1#8, 2#8, by decide, rfl, rfl⟩
    · exact ⟨2#8, 1#8, by decide, rfl, rfl⟩
  · obtain rfl : i' = 0 := by omega
    exact ⟨0#8, rfl⟩
  · obtain ⟨rfl, rfl⟩ : i' = 0 ∧ j' = 1 := by omega
    exact ⟨1#8, 2#8, by decide, rfl, rfl⟩

theorem witness_InterpAtASampleReturnsItsY :
    Inv twoSamples ∧ twoSamples.fv = true ∧ twoSamples.nsamp.toNat = 2 ∧ SamplesInRange twoSamples 2 ∧
    SamplesDistinct twoSamples 2 ∧ Cells.get 1 twoSamples.mem.sx = some twoSamples.opa ∧
    Cells.get 1 twoSamples.mem.sy = some (zext32 0#8) :=
  ⟨twoSamples_inv, rfl, rfl, twoSamples_inRange, twoSamples_distinct, rfl, rfl⟩

theorem witness_InterpEvaluatesTheInterpolant :
    Inv twoSamples ∧ twoSamples.fv = true ∧ twoSamples.nsamp.toNat = 2 ∧ twoSamples.opa.toNat ≤ 255 ∧
    SamplesInRange twoSamples 2 ∧ SamplesDistinct twoSamples 2 :=
  ⟨twoSamples_inv, rfl, rfl, by decide, twoSamples_inRange, twoSamples_distinct⟩

theorem witness_InterpReadsOnlyItsSamples :
    Inv twoSamples ∧ (∀ i, i < 2 → (Cells.get i twoSamples.mem.sx).isSome ∧ (Cells.get i twoSamples.mem.sy).isSome) ∧
    Inv { twoSamples with mem := { twoSamples.mem with sx := twoSamples.mem.sx ++ [(2, 300#32)] } } ∧
    (∀ i, i < 2 → Cells.get i (twoSamples.mem.sx ++ [(2, 300#32)]) = Cells.get i twoSamples.mem.sx) :=
  ⟨twoSamples_inv, by decide,
    ⟨by decide +kernel, by decide, fun h => absurd h (by decide), aes_inv.field⟩, by decide⟩

theorem witness_EvaluateIsHorner :
    Inv (hostAt aes).block ∧ aes.fv = true ∧ aes.busy = false ∧ aes.port = [] ∧ ([1#8, 2#8, 3#8] : List Byte) ≠ [] ∧ (2#8 : Byte) ≠ 0#8 :=
  ⟨aes_inv, rfl, rfl, rfl, by decide, by decide⟩

theorem witness_PolynomialProceduresAddAndMultiply :
    Inv (hostAt aes).block ∧ aes.fv = true ∧ aes.busy = false ∧ aes.port = [] ∧ ([2#8, 3#8] : List Byte) ≠ [] :=
  ⟨aes_inv, rfl, rfl, rfl, by decide⟩

theorem witness_FindAllGeneratorsScans2To254 :
    (0xFFFF#32).toNat ≤ 0xFFFF ∧ (hostAt State.reset).block.busy = false ∧ State.reset.port = [] := by decide

theorem witness_MakePolynomialDrawsItsCoefficients :
    (-1 : Int) < 0 ∧ (0 : Int) ≤ 2 ∧ 255 < (256 : Nat) ∧ 0x42 ≤ (255 : Nat) := by decide

end Tests
end Sys2Proof
end

/-! ### The field context: only a successful BUILD and reset write it (spec/00_scope.md R23) -/

namespace Sys2Proof
namespace Proofs
namespace FieldContext

open Sys2Proof.Machine

/-- The field context: FV, FIELD_POLY, FIELD_GEN and the two tables (spec/00_scope.md R23). -/
def fieldContext (s : State) : Bool × Half × Byte × Cells Byte × Cells Byte :=
  (s.fv, s.fpoly, s.fgen, s.mem.exp, s.mem.log)

theorem fieldContext_ne_iff (s t : State) :
    fieldContext t ≠ fieldContext s ↔
      t.fv ≠ s.fv ∨ t.fpoly ≠ s.fpoly ∨ t.fgen ≠ s.fgen ∨ t.mem.exp ≠ s.mem.exp ∨ t.mem.log ≠ s.mem.log := by
  simp only [fieldContext, ne_eq, Prod.mk.injEq, not_and_or]

@[simp] theorem fieldContext_respond (r : Response) (s : State) :
    fieldContext (respond r s) = fieldContext s := rfl

/-- A write that BUSY may discard keeps the field context if its effect does. -/
theorem fieldContext_unlessBusy {s stored : State} (h : fieldContext stored = fieldContext s) :
    fieldContext (unlessBusy s stored) = fieldContext s := by
  unfold unlessBusy
  split
  · rfl
  · exact h

/-- No target's write reaches the field context: FIELD_POLY and FIELD_GEN ignore it, the table windows refuse it. -/
theorem fieldContext_writeTarget {s t : State} {target : Target} {v : Word}
    (h : writeTarget s target v = some t) : fieldContext t = fieldContext s := by
  cases target with
  | status | result | fieldPoly | fieldGen =>
    cases h
    rfl
  | cmd | opa | opb | poly | gen | nsamp | sx i | sy i =>
    cases h
    exact fieldContext_unlessBusy rfl
  | exp i | log i | reserved => cases h

/-- No bus access changes the field context. -/
@[simp] theorem fieldContext_accessBus (op : BusOp) (s : State) :
    fieldContext (accessBus op s) = fieldContext s := by
  cases op with
  | read off n =>
    obtain ⟨r, h⟩ := Laws.Bus.accessBus_read_cases off n s
    rw [h, fieldContext_respond]
  | write off n v =>
    cases hl : legalAccess off n with
    | false => rw [Laws.Bus.accessBus_illegal_write v hl, fieldContext_respond]
    | true =>
      rw [Laws.Bus.accessBus_write v hl]
      cases ht : writeTarget s (targetAt off) v with
      | none => rfl
      | some t => exact (fieldContext_respond .okay t).trans (fieldContext_writeTarget ht)

/-- A command's completion keeps the field context, unless it is a BUILD that succeeds. -/
theorem exec_keeps_fieldContext_or_builds {i : Instr} {s t : State} (h : exec i s = .next t) :
    fieldContext t = fieldContext s ∨ (i = .build ∧ t.err = 0#4) := by
  rcases Laws.Commands.exec_cases i s with ⟨-, v, hs⟩ | ⟨hi, -, hs⟩ | ⟨e, hs⟩ <;> rw [hs] at h <;> cases h
  · exact .inl rfl
  · exact .inr ⟨hi, rfl⟩
  · exact .inl rfl

/-- A step keeps the field context, or completes a BUILD that succeeds, or is the reset input. -/
theorem step_keeps_fieldContext_or_writes {s t : State} (h : step s = .next t) :
    fieldContext t = fieldContext s ∨
      (engineTurn s = true ∧ decode s.pend = .command .build ∧ t.err = 0#4) ∨
      ∃ engineFirst rest, s.port = { event := .reset, engineFirst := engineFirst } :: rest := by
  rcases Laws.Bus.step_cases s with
    ⟨hturn, -, i, hd, hs⟩ | ⟨-, -, why, -, hs⟩ | ⟨-, ⟨event, first⟩, rest, hp, -, hs⟩ | ⟨-, -, -, hs⟩ <;> rw [hs] at h
  · rcases exec_keeps_fieldContext_or_builds h with hkept | ⟨rfl, herr⟩
    · exact .inl hkept
    · exact .inr (.inl ⟨hturn, hd, herr⟩)
  · cases h
    exact .inl rfl
  · cases h
    cases event with
    | access op => exact .inl (fieldContext_accessBus op { s with port := rest })
    | reset => exact .inr (.inr ⟨first, rest, hp⟩)
  · cases h
    exact .inl rfl

/-- Settles O24: of everything a step can do, only BUILD's success and the reset input write the field context. -/
theorem fieldContextWrittenByBuildAndReset : Obligations.FieldContextWrittenByBuildAndReset := by
  intro s t h hchanged
  exact (step_keeps_fieldContext_or_writes h).resolve_left ((fieldContext_ne_iff s t).mpr hchanged)

end FieldContext
end Proofs
end Sys2Proof

/-! ### Host accesses: what a step is when the next event is an access (spec/20_memory.md R54 to R64) -/

namespace Sys2Proof
namespace Proofs
namespace HostAccess

open Sys2Proof.Machine

theorem legalAccess_iff {off : Offset} {n : Nat} : legalAccess off n = true ↔ n = 4 ∧ off.toNat % 4 = 0 := by
  simp [legalAccess]

/-- The step of the host access that is next. -/
theorem step_access {s : State} {op : BusOp} {rest : List PortEntry} (h : HostNext s op rest) :
    step s = .next (accessBus op { s with port := rest }) := by
  obtain ⟨first, hp, hturn⟩ := h
  exact Laws.Bus.step_event hp hturn

/-- A write whose target takes it. -/
theorem step_write {s t : State} {off : Offset} {v : Word} {rest : List PortEntry}
    (h : HostNext s (.write off 4 v) rest) (hl : legalAccess off 4 = true)
    (ht : writeTarget { s with port := rest } (targetAt off) v = some t) : step s = .next (respond .okay t) := by
  rw [step_access h, Laws.Bus.accessBus_write v hl, ht]

/-- A read whose target answers. -/
theorem step_read {s : State} {off : Offset} {d : Word} {rest : List PortEntry}
    (h : HostNext s (.read off 4) rest) (hl : legalAccess off 4 = true)
    (hd : readTarget { s with port := rest } (targetAt off) = some d) :
    step s = .next { s with port := rest, resp := some (.data d), tick := s.tick + 1 } := by
  rw [step_access h, Laws.Bus.accessBus_read hl, hd]
  rfl

/-- Everything an access can do: it only responds, or it is an aligned word write that its target takes. -/
theorem accessBus_cases (op : BusOp) (s : State) :
    (∃ r, accessBus op s = respond r s) ∨
    (∃ off v t, op = .write off 4 v ∧ off.toNat % 4 = 0 ∧ writeTarget s (targetAt off) v = some t ∧
      accessBus op s = respond .okay t) := by
  cases op with
  | read off n => exact .inl (Laws.Bus.accessBus_read_cases off n s)
  | write off n v =>
    cases hl : legalAccess off n with
    | false => exact .inl ⟨_, Laws.Bus.accessBus_illegal_write v hl s⟩
    | true =>
      obtain ⟨rfl, halign⟩ := legalAccess_iff.1 hl
      rw [Laws.Bus.accessBus_write v hl]
      cases ht : writeTarget s (targetAt off) v with
      | none => exact .inl ⟨_, rfl⟩
      | some t => exact .inr ⟨off, v, t, rfl, halign, ht, rfl⟩

theorem eq_zero_of_registerAt_cmd {k : Nat} (h : registerAt k = .cmd) : k = 0 := by
  unfold registerAt at h
  split at h
  · rfl
  all_goals cases h

/-- CMD stands at offset 0 alone. -/
theorem eq_zero_of_targetAt_cmd {off : Offset} (halign : off.toNat % 4 = 0) (h : targetAt off = .cmd) :
    off = 0x000#13 := by
  simp only [targetAt] at h
  split at h
  · have hk := eq_zero_of_registerAt_cmd h
    exact BitVec.eq_of_toNat_eq (show off.toNat = 0 by omega)
  · split_ifs at h

theorem unlessBusy_idle {s : State} (hb : s.busy = false) (stored : State) : unlessBusy s stored = stored :=
  if_neg (by simp [hb])

theorem unlessBusy_discards {s : State} (hb : s.busy = true) (stored : State) : unlessBusy s stored = discardWrite s :=
  if_pos hb

/-- A CMD write while idle is accepted (spec/10_state.md R27). -/
theorem step_write_cmd_idle {s : State} {w : Word} {rest : List PortEntry} (hb : s.busy = false)
    (h : HostNext s (.write 0x000#13 4 w) rest) :
    step s = .next { s with pend := w, busy := true, port := rest, resp := some .okay, tick := s.tick + 1 } :=
  step_write h rfl (congrArg some (unlessBusy_idle (s := { s with port := rest }) hb _))

/-- A STATUS write, BUSY or not, clears COLL if bit 2 is set and ignores every other bit (spec/10_state.md R30, R32). -/
theorem step_write_status {s : State} {v : Word} {rest : List PortEntry} (h : HostNext s (.write 0x004#13 4 v) rest) :
    step s = .next { s with coll := s.coll && !v.getLsbD 2, port := rest, resp := some .okay, tick := s.tick + 1 } :=
  step_write h rfl rfl

end HostAccess
end Proofs
end Sys2Proof

/-! ### BUSY, COLL and STATUS: what sets, clears and keeps the flags (spec/10_state.md R27 to R32, R47) -/

namespace Sys2Proof
namespace Proofs
namespace StatusFlags

open Sys2Proof.Machine HostAccess

/-! #### Completion -/

@[simp] theorem complete_busy (out : Except CmdError Writes) (s : State) : (complete out s).busy = false := by
  rcases Laws.Commands.complete_cases out s with ⟨_, -, h⟩ | ⟨_, _, _, _, -, h⟩ | ⟨_, -, h⟩ <;> rw [h]

@[simp] theorem complete_coll (out : Except CmdError Writes) (s : State) : (complete out s).coll = s.coll := by
  rcases Laws.Commands.complete_cases out s with ⟨_, -, h⟩ | ⟨_, _, _, _, -, h⟩ | ⟨_, -, h⟩ <;> rw [h]

/-- A completion carries COLL through and reads it nowhere. -/
theorem complete_with_coll (out : Except CmdError Writes) (s : State) (c : Bool) :
    complete out { s with coll := c } = { complete out s with coll := c } := by
  rcases out with _ | _ | _ <;> rfl

/-- What a command's pseudocode answers does not depend on COLL (spec/10_state.md R30). -/
theorem exec_with_coll_eq_complete (i : Instr) (s : State) :
    ∃ out, ∀ c, exec i { s with coll := c } = .next (complete out { s with coll := c }) := by
  cases i with
  | clmul => exact ⟨runClmul s, fun _ => rfl⟩
  | isgen => exact ⟨runIsgen s, fun _ => rfl⟩
  | build => exact ⟨runBuild s, fun _ => rfl⟩
  | add => exact ⟨fieldCommand s (fadd s.opa s.opb), fun _ => rfl⟩
  | sub => exact ⟨fieldCommand s (fsub s.opa s.opb), fun _ => rfl⟩
  | mul => exact ⟨fieldCommand s (fmul s s.opa s.opb), fun _ => rfl⟩
  | div => exact ⟨fieldCommand s (fdiv s s.opa s.opb), fun _ => rfl⟩
  | inv => exact ⟨fieldCommand s (finv s s.opa), fun _ => rfl⟩
  | interp => exact ⟨fieldCommand s (interpValue s), fun _ => rfl⟩

theorem exec_eq_complete (i : Instr) (s : State) : ∃ out, exec i s = .next (complete out s) := by
  obtain ⟨out, h⟩ := exec_with_coll_eq_complete i s
  exact ⟨out, h s.coll⟩

/-- The engine's turn is a completion, of a command or of a reserved word. -/
theorem step_engine_eq_complete {s : State} (h : engineTurn s = true) :
    ∃ out, step s = .next (complete out s) := by
  rw [Laws.Bus.step_engine h, completePending]
  cases decode s.pend with
  | command i => exact exec_eq_complete i s
  | illegal why => exact ⟨.error .illegalCommand, rfl⟩

/-- Everything a step can do: a completion, a host access, the reset input, or idling. -/
theorem step_agents (s : State) :
    (engineTurn s = true ∧ ∃ out, step s = .next (complete out s)) ∨
    (∃ op rest, HostNext s op rest ∧ step s = .next (accessBus op { s with port := rest })) ∨
    (∃ engineFirst rest, s.port = { event := .reset, engineFirst := engineFirst } :: rest ∧
      step s = .next (resetBlock { s with port := rest })) ∨
    step s = .next s := by
  rcases Laws.Bus.step_cases s with
    ⟨hturn, -⟩ | ⟨hturn, -⟩ | ⟨-, ⟨event, first⟩, rest, hp, hfirst, hs⟩ | ⟨-, -, -, hs⟩
  · exact .inl ⟨hturn, step_engine_eq_complete hturn⟩
  · exact .inl ⟨hturn, step_engine_eq_complete hturn⟩
  · cases event with
    | access op => exact .inr (.inl ⟨op, rest, ⟨first, hp, hfirst⟩, hs⟩)
    | reset => exact .inr (.inr (.inl ⟨first, rest, hp, hs⟩))
  · exact .inr (.inr (.inr hs))

/-! #### BUSY -/

theorem unlessBusy_keeps_busy {s stored : State} (h : stored.busy = s.busy) :
    (unlessBusy s stored).busy = s.busy := by
  unfold unlessBusy
  split
  · rfl
  · exact h

/-- A write changes BUSY only by acceptance. -/
theorem writeTarget_busy_cases {s t : State} {target : Target} {v : Word} (h : writeTarget s target v = some t) :
    t.busy = s.busy ∨ (target = .cmd ∧ s.busy = false) := by
  cases target with
  | cmd =>
    cases hb : s.busy with
    | true =>
      obtain ⟨_, rfl⟩ := Laws.Bus.writeTarget_busy hb h
      exact .inl hb
    | false => exact .inr ⟨rfl, rfl⟩
  | status | result | fieldPoly | fieldGen =>
    cases h
    exact .inl rfl
  | opa | opb | poly | gen | nsamp | sx i | sy i =>
    cases h
    exact .inl (unlessBusy_keeps_busy rfl)
  | exp i | log i | reserved => cases h

/-- An access changes BUSY only as a CMD write while idle. -/
theorem accessBus_busy_cases (op : BusOp) (s : State) :
    (accessBus op s).busy = s.busy ∨ (s.busy = false ∧ ∃ w, op = .write 0x000#13 4 w) := by
  rcases accessBus_cases op s with ⟨r, h⟩ | ⟨off, v, t, rfl, halign, ht, h⟩
  · exact .inl (by rw [h, respond_busy])
  · rcases writeTarget_busy_cases ht with hkept | ⟨hcmd, hidle⟩
    · exact .inl (by rw [h, respond_busy, hkept])
    · exact .inr ⟨hidle, v, by rw [eq_zero_of_targetAt_cmd halign hcmd]⟩

/-- A step keeps BUSY, or accepts a command while idle, or ends with BUSY clear by a completion or the reset input. -/
theorem step_busy_cases {s t : State} (h : step s = .next t) :
    t.busy = s.busy ∨
    (s.busy = false ∧ ∃ w rest, HostNext s (.write 0x000#13 4 w) rest) ∨
    (t.busy = false ∧ (engineTurn s = true ∨
      ∃ engineFirst rest, s.port = { event := .reset, engineFirst := engineFirst } :: rest)) := by
  rcases step_agents s with ⟨hturn, out, hs⟩ | ⟨op, rest, hnext, hs⟩ | ⟨first, rest, hp, hs⟩ | hs <;>
    rw [hs] at h <;> cases h
  · exact .inr (.inr ⟨complete_busy out s, .inl hturn⟩)
  · rcases accessBus_busy_cases op { s with port := rest } with hkept | ⟨hidle, w, rfl⟩
    · exact .inl hkept
    · exact .inr (.inl ⟨hidle, w, rest, hnext⟩)
  · exact .inr (.inr ⟨rfl, .inr ⟨first, rest, hp⟩⟩)
  · exact .inl rfl

/-- Settles O13: the step's cases for BUSY give the two "only" clauses; acceptance, completion and a STATUS write are run. -/
theorem busyIsSetByAcceptanceClearedByCompletion : Obligations.BusyIsSetByAcceptanceClearedByCompletion := by
  refine ⟨rfl, fun s t h hs ht => ?set, fun s t h hs ht => ?clear, fun s w rest hb h => ?accept, fun s h => ?complete,
    fun s v rest h => ⟨_, step_write_status h, rfl⟩⟩
  case set =>
    rcases step_busy_cases h with hkept | ⟨-, hcmd⟩ | ⟨hclear, -⟩
    · simp [hs, ht] at hkept
    · exact hcmd
    · simp [ht] at hclear
  case clear =>
    rcases step_busy_cases h with hkept | ⟨hidle, -⟩ | ⟨-, hwhy⟩
    · simp [hs, ht] at hkept
    · simp [hs] at hidle
    · exact hwhy
  case accept => exact ⟨_, step_write_cmd_idle hb h, rfl⟩
  case complete =>
    obtain ⟨out, hs⟩ := step_engine_eq_complete h
    exact ⟨_, hs, complete_busy out s⟩

/-! #### COLL -/

/-- The targets whose writes BUSY discards (spec/20_memory.md R63). -/
def discardsWhileBusy : Target → Bool
  | .cmd | .opa | .opb | .poly | .gen | .nsamp | .sx _ | .sy _ => true
  | _ => false

/-- The targets that no write changes: the read-only registers, the table windows and the reserved offsets
(spec/20_memory.md R57, R59, R61). -/
def ignoresWrites : Target → Bool
  | .result | .fieldPoly | .fieldGen | .exp _ | .log _ | .reserved => true
  | _ => false

theorem writeTarget_of_discards {s : State} {target : Target} (v : Word) (hb : s.busy = true)
    (h : discardsWhileBusy target = true) : writeTarget s target v = some (discardWrite s) := by
  cases target with
  | cmd | opa | opb | poly | gen | nsamp | sx i | sy i => exact congrArg some (unlessBusy_discards hb _)
  | status | result | fieldPoly | fieldGen | exp i | log i | reserved => cases h

theorem writeTarget_of_ignores {s t : State} {target : Target} {v : Word} (h : ignoresWrites target = true)
    (ht : writeTarget s target v = some t) : t = s := by
  cases target with
  | result | fieldPoly | fieldGen => exact (Option.some.inj ht).symm
  | exp i | log i | reserved => cases ht
  | cmd | status | opa | opb | poly | gen | nsamp | sx i | sy i => cases h

/-- The offsets of CMD, the storage registers and the sample cells. -/
theorem discardsWhileBusy_targetAt {off : Offset}
    (h : off ∈ [0x000#13, 0x008#13, 0x00C#13, 0x014#13, 0x018#13, 0x01C#13] ∨
      (0x1000 ≤ off.toNat ∧ off.toNat < 0x1800 ∧ off.toNat % 4 = 0)) :
    legalAccess off 4 = true ∧ discardsWhileBusy (targetAt off) = true := by
  rcases h with hreg | ⟨hlo, hhi, halign⟩
  · simp only [List.mem_cons, List.not_mem_nil, or_false] at hreg
    rcases hreg with rfl | rfl | rfl | rfl | rfl | rfl <;> exact ⟨rfl, rfl⟩
  · refine ⟨legalAccess_iff.2 ⟨rfl, halign⟩, ?_⟩
    simp only [targetAt]
    rw [if_neg (by omega), if_neg (by omega), if_neg (by omega), if_neg (by omega), if_pos hhi]
    split <;> rfl

/-- The offsets of the read-only registers, the table windows and the reserved ranges, aligned or not. -/
theorem ignoresWrites_targetAt {off : Offset}
    (h : off ∈ [0x010#13, 0x020#13, 0x024#13] ∨ (0x028 ≤ off.toNat ∧ off.toNat < 0x1000) ∨ 0x1800 ≤ off.toNat) :
    ignoresWrites (targetAt off) = true := by
  rcases h with hreg | ⟨hlo, hhi⟩ | hlo
  · simp only [List.mem_cons, List.not_mem_nil, or_false] at hreg
    rcases hreg with rfl | rfl | rfl <;> rfl
  · simp only [targetAt]
    rw [if_neg (by omega), if_pos hhi]
    split_ifs <;> rfl
  · simp only [targetAt]
    rw [if_neg (by omega), if_neg (by omega), if_neg (by omega), if_neg (by omega), if_neg (by omega)]
    rfl

/-- A discarded write sets COLL and does nothing else (spec/20_memory.md R63). -/
theorem step_write_discarded {s : State} {off : Offset} {v : Word} {rest : List PortEntry} (hb : s.busy = true)
    (h : HostNext s (.write off 4 v) rest) (hl : legalAccess off 4 = true)
    (ht : discardsWhileBusy (targetAt off) = true) :
    step s = .next { s with coll := true, port := rest, resp := some .okay, tick := s.tick + 1 } :=
  step_write h hl (writeTarget_of_discards v hb ht)

/-- A write that its target ignores or refuses, or that is illegal, only responds. -/
theorem step_write_ignored {s : State} {off : Offset} {v : Word} {rest : List PortEntry}
    (h : HostNext s (.write off 4 v) rest) (ht : ignoresWrites (targetAt off) = true) :
    ∃ r, step s = .next { s with port := rest, resp := some r, tick := s.tick + 1 } := by
  rw [step_access h]
  rcases accessBus_cases (.write off 4 v) { s with port := rest } with ⟨r, hr⟩ | ⟨_, _, t, hop, -, hw, hr⟩
  · exact ⟨r, by rw [hr]; rfl⟩
  · cases hop
    obtain rfl := writeTarget_of_ignores ht hw
    exact ⟨.okay, by rw [hr]; rfl⟩

/-- A write sets COLL only while BUSY. -/
theorem writeTarget_coll_idle {s t : State} {target : Target} {v : Word} (hb : s.busy = false)
    (h : writeTarget s target v = some t) (hc : s.coll = false) : t.coll = false := by
  cases target with
  | exp i | log i | reserved => cases h
  | result | fieldPoly | fieldGen =>
    cases h
    exact hc
  | status =>
    cases h
    simp [hc]
  | cmd | opa | opb | poly | gen | nsamp | sx i | sy i =>
    cases h
    exact (congrArg State.coll (unlessBusy_idle hb _)).trans hc

/-- An access that sets COLL is a word write while BUSY. -/
theorem accessBus_sets_coll {op : BusOp} {s : State} (hc : s.coll = false) (h : (accessBus op s).coll = true) :
    s.busy = true ∧ ∃ off v, op = .write off 4 v := by
  rcases accessBus_cases op s with ⟨r, hr⟩ | ⟨off, v, t, hop, -, ht, hr⟩
  · simp [hr, hc] at h
  · cases hb : s.busy with
    | true => exact ⟨rfl, off, v, hop⟩
    | false => simp [hr, writeTarget_coll_idle hb ht hc] at h

/-- A step that sets COLL is a word write while BUSY. -/
theorem step_sets_coll {s t : State} (h : step s = .next t) (hs : s.coll = false) (ht : t.coll = true) :
    s.busy = true ∧ ∃ off v rest, HostNext s (.write off 4 v) rest := by
  rcases step_agents s with ⟨-, out, hstep⟩ | ⟨op, rest, hnext, hstep⟩ | ⟨first, rest, -, hstep⟩ | hstep <;>
    rw [hstep] at h <;> cases h
  · simp [hs] at ht
  · obtain ⟨hb, off, v, rfl⟩ := accessBus_sets_coll (s := { s with port := rest }) hs ht
    exact ⟨hb, off, v, rest, hnext⟩
  · simp at ht
  · simp [hs] at ht

/-- Settles O14: discarded, STATUS and ignored writes by their targets, the "only" clause by the step's cases, and the
commands by `exec_with_coll_eq_complete`. -/
theorem collisionFlagFollowsDiscardedWrites : Obligations.CollisionFlagFollowsDiscardedWrites := by
  refine ⟨rfl, fun s off v rest hb h hoff => ?discarded, fun s v rest h => step_write_status h,
    fun s t h hs ht => step_sets_coll h hs ht, fun i s c => ?commands,
    fun s off v rest h hoff => step_write_ignored h (ignoresWrites_targetAt hoff)⟩
  case discarded =>
    obtain ⟨hl, ht⟩ := discardsWhileBusy_targetAt hoff
    exact step_write_discarded hb h hl ht
  case commands =>
    obtain ⟨out, h⟩ := exec_with_coll_eq_complete i s
    exact ⟨complete out s, h s.coll, complete_coll out s, by rw [h c, complete_with_coll]⟩

/-! #### Reset, CMD and STATUS at the bus -/

/-- Settles O1: the reset state is the record of R47, and no cell of its empty arrays is specified. -/
theorem resetHoldsTheSpecValues : Obligations.ResetHoldsTheSpecValues :=
  ⟨rfl, rfl, rfl, rfl, rfl, rfl, rfl, rfl, rfl, rfl, rfl, rfl, fun _ => ⟨rfl, rfl, rfl, rfl⟩⟩

/-- Settles O12: acceptance while idle, the discard while BUSY, and the read of zeros. -/
theorem commandWriteAcceptedOrDiscarded : Obligations.CommandWriteAcceptedOrDiscarded :=
  fun _ _ => ⟨fun _ h hb => step_write_cmd_idle hb h, fun _ h hb => step_write_discarded hb h rfl rfl,
    fun h => step_read h rfl rfl⟩

/-- The reserved bits of the STATUS word are 0, whatever flags it packs. -/
theorem packStatus_reserved_bits (err : BitVec 4) (coll fv busy : BitVec 1) {k : Nat}
    (hk : (3 ≤ k ∧ k ≤ 7) ∨ (12 ≤ k ∧ k ≤ 31)) : (packStatus err coll fv busy).getLsbD k = false := by
  simp only [packStatus, BitVec.getLsbD_append]
  rw [if_neg (by omega), if_neg (by omega), if_neg (by omega)]
  rcases hk with ⟨hlo, hhi⟩ | ⟨hlo, hhi⟩
  · rw [if_pos (by omega), BitVec.getLsbD_zero]
  · rw [if_neg (by omega), if_neg (by omega), BitVec.getLsbD_zero]

/-- Settles O22: a read packs the flags around the zero bits, and a write's effect is bit 2's. -/
theorem reservedStatusBits : Obligations.ReservedStatusBits :=
  fun s _ => ⟨fun h => ⟨statusRead s, step_read h rfl rfl, fun _ hk => packStatus_reserved_bits _ _ _ _ hk⟩,
    fun _ h => step_write_status h⟩

end StatusFlags
end Proofs
end Sys2Proof

/-! ### The address map at the bus: errors, the read-only registers, the table windows, the sample memory
(spec/20_memory.md R57 to R61) -/

namespace Sys2Proof
namespace Proofs
namespace AddressMap

open Sys2Proof.Machine HostAccess StatusFlags

/-! #### ERROR responses -/

/-- A write that its target refuses gets ERROR, whatever its width and alignment. -/
theorem accessBus_write_refused {s : State} {off : Offset} {v : Word} (n : Nat)
    (ht : writeTarget s (targetAt off) v = none) : accessBus (.write off n v) s = respond .error s := by
  cases hl : legalAccess off n with
  | false => exact Laws.Bus.accessBus_illegal_write v hl s
  | true => rw [Laws.Bus.accessBus_write v hl, ht]

/-- A read that its target refuses gets ERROR, whatever its width and alignment. -/
theorem accessBus_read_refused {s : State} {off : Offset} (n : Nat)
    (ht : readTarget s (targetAt off) = none) : accessBus (.read off n) s = respond .error s := by
  cases hl : legalAccess off n with
  | false => exact Laws.Bus.accessBus_illegal_read hl s
  | true => rw [Laws.Bus.accessBus_read hl, ht]

/-- The step of an access that gets ERROR changes nothing of the block. -/
theorem step_error {s : State} {op : BusOp} {rest : List PortEntry} (h : HostNext s op rest)
    (herr : accessBus op { s with port := rest } = respond .error { s with port := rest }) :
    step s = .next { s with port := rest, resp := some .error, tick := s.tick + 1 } := by
  rw [step_access h, herr]
  rfl

/-- The two reserved ranges of the map (spec/20_memory.md R57). -/
theorem targetAt_reserved {off : Offset}
    (h : (0x0028 ≤ off.toNat ∧ off.toNat ≤ 0x03FF) ∨ (0x1800 ≤ off.toNat ∧ off.toNat ≤ 0x1FFF)) :
    targetAt off = .reserved := by
  simp only [targetAt]
  rcases h with ⟨hlo, hhi⟩ | ⟨hlo, -⟩
  · rw [if_neg (by omega), if_pos (by omega)]
  · rw [if_neg (by omega), if_neg (by omega), if_neg (by omega), if_neg (by omega), if_neg (by omega)]

/-- Settles O15: what stands at a reserved offset refuses reads and writes alike. -/
theorem reservedOffsetsGetError : Obligations.ReservedOffsetsGetError := by
  intro s op off n rest hop hoff h
  have ht := targetAt_reserved hoff
  rcases hop with rfl | ⟨v, rfl⟩
  · exact step_error h (accessBus_read_refused n (by rw [ht]; rfl))
  · exact step_error h (accessBus_write_refused n (by rw [ht]; rfl))

/-- Settles O16: the access is not legal, so no target is asked. -/
theorem illegalWidthOrAlignmentGetsError : Obligations.IllegalWidthOrAlignmentGetsError := by
  intro s op off n rest hop hbad h
  have hl : legalAccess off n = false := by
    rw [← Bool.not_eq_true, legalAccess_iff, not_and_or]
    exact hbad
  rcases hop with rfl | ⟨v, rfl⟩
  · exact step_error h (Laws.Bus.accessBus_illegal_read hl _)
  · exact step_error h (Laws.Bus.accessBus_illegal_write v hl _)

/-! #### The read-only registers -/

/-- Settles O19: RESULT, FIELD_POLY and FIELD_GEN take the write and drop it; CMD reads as 0; STATUS by
`step_write_status`. -/
theorem readOnlyRegistersIgnoreWrites : Obligations.ReadOnlyRegistersIgnoreWrites := by
  refine fun s v rest => ⟨fun off hoff h => ?readOnly, fun h => step_read h rfl rfl, fun h => step_write_status h⟩
  case readOnly =>
    simp only [List.mem_cons, List.not_mem_nil, or_false] at hoff
    rcases hoff with rfl | rfl | rfl <;> exact step_write h rfl rfl

/-! #### Accesses of a named cell -/

/-- A word write at a name's offset, which its target takes. -/
theorem step_write_target {s t : State} {target : Target} {v : Word} {rest : List PortEntry}
    (h : HostNext s (.write target.offset 4 v) rest) (hwf : target.wf = true)
    (ht : writeTarget { s with port := rest } target v = some t) : step s = .next (respond .okay t) :=
  step_write h (Laws.Bus.legalAccess_offset hwf) (by rw [Laws.Bus.targetAt_offset hwf, ht])

/-- A word read at a name's offset, which its target answers. -/
theorem step_read_target {s : State} {target : Target} {d : Word} {rest : List PortEntry}
    (h : HostNext s (.read target.offset 4) rest) (hwf : target.wf = true)
    (hd : readTarget { s with port := rest } target = some d) :
    step s = .next { s with port := rest, resp := some (.data d), tick := s.tick + 1 } :=
  step_read h (Laws.Bus.legalAccess_offset hwf) (by rw [Laws.Bus.targetAt_offset hwf, hd])

/-! #### The table windows -/

theorem pendingBuild_iff {s : State} : pendingBuild s = true ↔ s.busy = true ∧ decode s.pend = .command .build := by
  simp [pendingBuild]

/-- With no BUILD pending a window shows the specified entry (spec/10_state.md R45). -/
theorem windowByte_specified {s : State} (hp : ¬ (s.busy = true ∧ decode s.pend = .command .build)) (v : Byte) :
    windowByte s (some v) = v := by
  rw [windowByte, if_neg (mt pendingBuild_iff.1 hp), Option.getD_some]

/-- A read of a table cell, given through `windowByte` (spec/20_memory.md R59). -/
theorem step_read_window {s : State} {target : Target} {cell : Option Byte} {rest : List PortEntry}
    (h : HostNext s (.read target.offset 4) rest) (hwf : target.wf = true)
    (hcell : readTarget { s with port := rest } target = some (zext32 (windowByte { s with port := rest } cell))) :
    ∃ d : Byte, step s = .next { s with port := rest, resp := some (.data (zext32 d)), tick := s.tick + 1 } ∧
      (¬ (s.busy = true ∧ decode s.pend = .command .build) → ∀ v, cell = some v → d = v) := by
  refine ⟨_, step_read_target h hwf hcell, fun hp v hv => ?_⟩
  rw [hv]
  exact windowByte_specified hp v

/-- The window offsets, aligned or not, reach an entry of EXP or LOG (spec/20_memory.md R55). -/
theorem targetAt_window {off : Offset} (hlo : 0x0400 ≤ off.toNat) (hhi : off.toNat < 0x1000) :
    (∃ i, targetAt off = .exp i) ∨ ∃ i, targetAt off = .log i := by
  simp only [targetAt]
  rw [if_neg (by omega), if_neg (by omega)]
  rcases Nat.lt_or_ge off.toNat 0xC00 with hexp | hlog
  · exact .inl ⟨_, if_pos hexp⟩
  · exact .inr ⟨_, by rw [if_neg (by omega), if_pos hhi]⟩

/-- Settles O17: reads show the entry through `windowByte`, and both tables refuse every write. -/
theorem tableWindowsReadOnly : Obligations.TableWindowsReadOnly := by
  refine fun s rest => ⟨fun i hi h => ?exp, fun i hi h => ?log, fun off v hlo hhi h => ?write⟩
  case exp => exact step_read_window (target := .exp i) h (decide_eq_true hi) rfl
  case log => exact step_read_window (target := .log i) h (decide_eq_true hi) rfl
  case write =>
    rcases targetAt_window hlo hhi with ⟨i, ht⟩ | ⟨i, ht⟩ <;>
      exact step_error h (accessBus_write_refused 4 (by rw [ht]; rfl))

/-! #### The sample memory -/

/-- Reading after one write, at any index. -/
theorem cells_get_set {α : Type} (j i : Nat) (v : α) (cs : Cells α) :
    Cells.get j (Cells.set i v cs) = if j = i then some v else Cells.get j cs := by
  split
  · next hji => rw [hji, Laws.Cells.get_set_same]
  · next hji => exact Laws.Cells.get_set_other hji v cs

/-- A write at a name's offset while idle has its stored effect. -/
theorem step_write_target_idle {s stored : State} {target : Target} {v : Word} {rest : List PortEntry}
    (hb : s.busy = false) (h : HostNext s (.write target.offset 4 v) rest) (hwf : target.wf = true)
    (ht : writeTarget { s with port := rest } target v = some (unlessBusy { s with port := rest } stored)) :
    step s = .next (respond .okay stored) :=
  step_write_target h hwf (by rw [ht, unlessBusy_idle (s := { s with port := rest }) hb])

theorem readSx_stored {s : State} {i : Nat} {v : Word} (position : Nat) (h : Cells.get i s.mem.sx = some v) :
    readSx s i position = v := by
  rw [readSx, h, Option.getD_some]

theorem readSy_stored {s : State} {i : Nat} {v : Word} (position : Nat) (h : Cells.get i s.mem.sy = some v) :
    readSy s i position = v := by
  rw [readSy, h, Option.getD_some]

/-- Settles O18: each cell is the name SX[i] or SY[i] of the map; its write sets one cell, its read falls back on a draw,
and BUSY discards the write. -/
theorem sampleMemoryReadsAndWrites : Obligations.SampleMemoryReadsAndWrites := by
  intro s rest i hi
  have hx : (Target.sx i).wf = true := decide_eq_true hi
  have hy : (Target.sy i).wf = true := decide_eq_true hi
  refine ⟨fun v hb h => ?writeX, fun v hb h => ?writeY, fun h => ?readX, fun h => ?readY,
    fun off v hoff hb h => ?busy⟩
  case writeX =>
    exact ⟨_, step_write_target_idle (target := .sx i) hb h hx rfl, fun j => cells_get_set j i v s.mem.sx⟩
  case writeY =>
    exact ⟨_, step_write_target_idle (target := .sy i) hb h hy rfl, fun j => cells_get_set j i v s.mem.sy⟩
  case readX => exact ⟨_, step_read_target (target := .sx i) h hx rfl, fun _ hv => readSx_stored 0 hv⟩
  case readY => exact ⟨_, step_read_target (target := .sy i) h hy rfl, fun _ hv => readSy_stored 0 hv⟩
  case busy =>
    rcases hoff with rfl | rfl
    · exact step_write_target (target := .sx i) h hx (writeTarget_of_discards v hb rfl)
    · exact step_write_target (target := .sy i) h hy (writeTarget_of_discards v hb rfl)

end AddressMap
end Proofs
end Sys2Proof

/-! ### Command words: which words decode to a command, and the completion of the others (spec/30_encoding.md R76 to R81) -/

namespace Sys2Proof
namespace Proofs
namespace CommandEncoding

open Sys2Proof.Machine

/-! #### The two fields of a word (R76) -/

@[simp] theorem fieldsOf_rsv_toNat (w : Word) : (fieldsOf w).rsv.toNat = w.toNat / 16 := by
  have hw := w.isLt
  simp only [fieldsOf, BitVec.extractLsb'_toNat, Nat.shiftRight_eq_div_pow]
  omega

@[simp] theorem fieldsOf_op_toNat (w : Word) : (fieldsOf w).op.toNat = w.toNat % 16 := by
  simp [fieldsOf, BitVec.extractLsb'_toNat]

theorem fieldsOf_rsv_eq_zero_iff {w : Word} : (fieldsOf w).rsv = 0#28 ↔ w.toNat / 16 = 0 := by
  rw [← BitVec.toNat_inj, fieldsOf_rsv_toNat, BitVec.toNat_zero]

/-! #### Decoding (R81) -/

theorem decodeOp_eq_command_iff {op : BitVec 4} {i : Instr} : decodeOp op = .command i ↔ op = i.opcode := by
  cases i <;> revert op <;> decide

theorem decodeOp_eq_illegal_iff {op : BitVec 4} {why : IllegalWord} :
    decodeOp op = .illegal why ↔ why = .reservedOp ∧ (op.toNat = 0 ∨ 0xA ≤ op.toNat) := by
  cases why <;> revert op <;> decide

theorem encode_spec (i : Instr) : Laws.CommandWord.Statement i := by
  cases i with
  | clmul => exact Laws.CommandWord.clmul
  | isgen => exact Laws.CommandWord.isgen
  | build => exact Laws.CommandWord.build
  | add => exact Laws.CommandWord.add
  | sub => exact Laws.CommandWord.sub
  | mul => exact Laws.CommandWord.mul
  | div => exact Laws.CommandWord.div
  | inv => exact Laws.CommandWord.inv
  | interp => exact Laws.CommandWord.interp

/-- A word is a command's encoding if RSV is 0 and OP is the command's. -/
theorem eq_encode_of_fields {w : Word} {i : Instr} (hrsv : (fieldsOf w).rsv = 0#28) (hop : (fieldsOf w).op = i.opcode) :
    w = encode i := by
  obtain ⟨hencode, -, -⟩ := encode_spec i
  have hhigh := fieldsOf_rsv_eq_zero_iff.1 hrsv
  have hlow : w.toNat % 16 = i.opcode.toNat := by rw [← fieldsOf_op_toNat, hop]
  exact BitVec.eq_of_toNat_eq (by omega)

/-- Each command has one word: its encoding. -/
theorem decode_eq_command_iff (w : Word) (i : Instr) : decode w = .command i ↔ w = encode i := by
  constructor
  · intro h
    unfold decode at h
    split at h
    next hrsv => exact eq_encode_of_fields hrsv (decodeOp_eq_command_iff.1 h)
    next => cases h
  · rintro rfl
    obtain ⟨-, -, hdecode⟩ := encode_spec i
    exact hdecode

/-- The reserved words of R79: a nonzero RSV, or OP 0x0 or 0xA to 0xF. -/
theorem decode_illegal_iff (w : Word) :
    (∃ why, decode w = .illegal why) ↔ w.toNat / 16 ≠ 0 ∨ w.toNat % 16 = 0 ∨ 0xA ≤ w.toNat % 16 := by
  unfold decode
  split
  next hrsv => simp [fieldsOf_rsv_eq_zero_iff.1 hrsv, decodeOp_eq_illegal_iff]
  next hrsv => simp [mt fieldsOf_rsv_eq_zero_iff.2 hrsv]

/-- Settles O8: each command's word is its encoding, and with RSV = 0 a word's number is its OP. -/
theorem exactlyNineWordsDecode : Obligations.ExactlyNineWordsDecode := fun w =>
  have hword := decode_eq_command_iff w
  ⟨hword .clmul, hword .isgen, hword .build, hword .add, hword .sub, hword .mul, hword .div, hword .inv, hword .interp,
    (decode_illegal_iff w).trans (by omega)⟩

/-! #### The completion of a reserved word (R79) -/

theorem step_completes_illegal {s : State} {why : IllegalWord} (h : engineTurn s = true)
    (hd : decode s.pend = .illegal why) : step s = .next (completeIllegal s) := by
  rw [Laws.Bus.step_engine h, completePending, hd]

/-- Settles O11: acceptance does not look at the word, and a reserved word decodes to no command. -/
theorem reservedWordsCompleteIllegal : Obligations.ReservedWordsCompleteIllegal := by
  intro w hreserved
  refine ⟨fun s rest hb h => HostAccess.step_write_cmd_idle hb h, fun s hturn hpend => ?completes⟩
  case completes =>
    obtain ⟨why, hd⟩ := (decode_illegal_iff w).2 hreserved
    exact step_completes_illegal hturn (hpend ▸ hd)

end CommandEncoding
end Proofs
end Sys2Proof

/-! ### The byte multiplier is the product in GF(2)[X] modulo X^8 + P (spec/40_multiplier.md R92 to R95) -/

namespace Sys2Proof
namespace Proofs
namespace Multiplier

open Sys2Proof.Machine Polynomial

/-! #### Bytes as polynomials -/

/-- The polynomial of the low k bits of v: bit i is the coefficient of X^i (R94). -/
noncomputable def lowPoly (k : Nat) (v : Byte) : (ZMod 2)[X] :=
  ∑ i ∈ Finset.range k, if v.getLsbD i then X ^ i else 0

/-- The polynomial of a byte (R94). -/
noncomputable def bytePoly (v : Byte) : (ZMod 2)[X] := lowPoly 8 v

/-- The modulus X^8 + P, for the polynomial P of the reduction byte r (R94). -/
noncomputable def modulus (r : Byte) : (ZMod 2)[X] := X ^ 8 + bytePoly r

@[simp] theorem coeff_lowPoly (k i : Nat) (v : Byte) :
    (lowPoly k v).coeff i = if i < k ∧ v.getLsbD i then 1 else 0 := by
  have hterm (j : Nat) : (if v.getLsbD j then (X : (ZMod 2)[X]) ^ j else 0).coeff i =
      if i = j then (if v.getLsbD i then 1 else 0) else 0 := by
    by_cases hij : i = j
    · subst hij
      split <;> simp
    · split <;> simp [coeff_X_pow, hij]
  simp only [lowPoly, finsetSum_coeff, hterm, Finset.sum_ite_eq, Finset.mem_range, ite_and]

@[simp] theorem coeff_bytePoly (i : Nat) (v : Byte) : (bytePoly v).coeff i = if v.getLsbD i then 1 else 0 := by
  by_cases hi : i < 8
  · simp [bytePoly, hi]
  · simp [bytePoly, hi, BitVec.getLsbD_of_ge v i (by omega)]

@[simp] theorem bytePoly_zero : bytePoly 0#8 = 0 := by
  ext i
  simp

@[simp] theorem bytePoly_one : bytePoly 1#8 = 1 := by
  ext i
  simp [coeff_one, BitVec.getLsbD_one]

theorem bytePoly_xor (a b : Byte) : bytePoly (a ^^^ b) = bytePoly a + bytePoly b := by
  ext i
  simp only [coeff_bytePoly, coeff_add, BitVec.getLsbD_xor]
  cases a.getLsbD i <;> cases b.getLsbD i <;> simp [CharTwo.add_self_eq_zero]

theorem bytePoly_injective : Function.Injective bytePoly := by
  intro a b h
  refine BitVec.eq_of_getLsbD_eq fun i _ => Bool.eq_iff_iff.2 ?_
  have hcoeff := congrArg (coeff · i) h
  simp only [coeff_bytePoly] at hcoeff
  by_cases ha : a.getLsbD i <;> by_cases hb : b.getLsbD i <;> simp_all

theorem degree_bytePoly_lt (v : Byte) : (bytePoly v).degree < 8 :=
  (degree_lt_iff_coeff_zero _ _).2 fun i hi => by simp [BitVec.getLsbD_of_ge v i hi]

theorem modulus_monic (r : Byte) : (modulus r).Monic := monic_X_pow_add (degree_bytePoly_lt r)

theorem degree_modulus (r : Byte) : (modulus r).degree = 8 := by
  rw [modulus, degree_add_eq_left_of_degree_lt] <;> rw [degree_X_pow]
  · rfl
  · exact degree_bytePoly_lt r

theorem bytePoly_modByMonic (r v : Byte) : bytePoly v %ₘ modulus r = bytePoly v := by
  rw [modByMonic_eq_self_iff (modulus_monic r), degree_modulus]
  exact degree_bytePoly_lt v

theorem lowPoly_succ (k : Nat) (q : Byte) :
    lowPoly (k + 1) q = (if q.getLsbD 0 then (1 : (ZMod 2)[X]) else 0) + X * lowPoly k (q >>> 1) := by
  simp only [lowPoly, Finset.sum_range_succ', Finset.mul_sum, BitVec.getLsbD_ushiftRight, pow_succ', pow_zero, mul_ite,
    mul_zero, Nat.add_comm 1]
  exact add_comm _ _

/-- A left shift within the byte multiplies by X, but for the bit it drops (R93). -/
theorem X_mul_bytePoly (m : Byte) : X * bytePoly m = bytePoly (m <<< 1) + if m.getLsbD 7 then X ^ 8 else 0 := by
  ext i
  cases i with
  | zero => split <;> simp
  | succ i =>
    have hbit : (m <<< 1).getLsbD (i + 1) = (decide (i + 1 < 8) && m.getLsbD i) := by simp
    have hcarry : (if m.getLsbD 7 then (X : (ZMod 2)[X]) ^ 8 else 0).coeff (i + 1) =
        if m.getLsbD 7 ∧ i = 7 then 1 else 0 := by
      split <;> simp_all [coeff_X_pow]
    rw [coeff_X_mul, coeff_add, coeff_bytePoly, coeff_bytePoly, hbit, hcarry]
    rcases Nat.lt_trichotomy i 7 with hi | rfl | hi
    · simp [show i + 1 < 8 by omega, hi.ne]
    · simp
    · simp [BitVec.getLsbD_of_ge m i hi, hi.ne']

/-! #### The loop in the quotient ring -/

/-- The residue of a byte modulo X^8 + P. -/
noncomputable def residue (r v : Byte) : AdjoinRoot (modulus r) := AdjoinRoot.mk (modulus r) (bytePoly v)

@[simp] theorem residue_zero (r : Byte) : residue r 0#8 = 0 := by simp [residue]

@[simp] theorem residue_one (r : Byte) : residue r 1#8 = 1 := by simp [residue]

theorem residue_xor (r a b : Byte) : residue r (a ^^^ b) = residue r a + residue r b := by
  simp [residue, bytePoly_xor]

/-- Polynomials of equal residue leave the same remainder. -/
theorem modByMonic_eq_of_mk_eq {r : Byte} {f g : (ZMod 2)[X]}
    (h : AdjoinRoot.mk (modulus r) f = AdjoinRoot.mk (modulus r) g) : f %ₘ modulus r = g %ₘ modulus r := by
  rw [← sub_eq_zero, ← sub_modByMonic, modByMonic_eq_zero_iff_dvd (modulus_monic r)]
  exact AdjoinRoot.mk_eq_mk.1 h

theorem residue_injective (r : Byte) : Function.Injective (residue r) := by
  intro a b h
  apply bytePoly_injective
  rw [← bytePoly_modByMonic r a, ← bytePoly_modByMonic r b, modByMonic_eq_of_mk_eq h]

theorem residue_add_self (r v : Byte) : residue r v + residue r v = 0 := by
  rw [← residue_xor, BitVec.xor_self, residue_zero]

/-- X^8 is congruent to P (R93). -/
theorem root_pow_eight (r : Byte) : AdjoinRoot.root (modulus r) ^ 8 = residue r r := by
  have hzero : AdjoinRoot.mk (modulus r) (X ^ 8 + bytePoly r) = 0 := AdjoinRoot.mk_self
  rw [map_add, map_pow, AdjoinRoot.mk_X] at hzero
  exact add_right_cancel (hzero.trans (residue_add_self r r).symm)

/-- A turn of the multiplicand multiplies it by X (R93). -/
theorem residue_shiftReduce (r m : Byte) : residue r (shiftReduce r m) = AdjoinRoot.root (modulus r) * residue r m := by
  have hshift : AdjoinRoot.root (modulus r) * residue r m =
      residue r (m <<< 1) + if m.getLsbD 7 then residue r r else 0 := by
    rw [← root_pow_eight, ← AdjoinRoot.mk_X, residue, ← map_mul, X_mul_bytePoly]
    split <;> simp [residue]
  rw [hshift, shiftReduce]
  split <;> simp [residue_xor]

/-- The loop adds to acc the multiplicand times the bits of q it has still to read. -/
theorem residue_mulLoop (r : Byte) (k : Nat) (acc m q : Byte) :
    residue r (mulLoop r k acc m q) = residue r acc + residue r m * AdjoinRoot.mk (modulus r) (lowPoly k q) := by
  induction k generalizing acc m q with
  | zero => simp [mulLoop, lowPoly]
  | succ k ih =>
    rw [mulLoop, ih, residue_shiftReduce, lowPoly_succ, map_add, map_mul, AdjoinRoot.mk_X]
    split
    · rw [residue_xor, map_one]
      ring
    · rw [map_zero]
      ring

theorem residue_mulbytes (a b : Byte) (p : Half) :
    residue (p.setWidth 8) (mulbytes a b p) = residue (p.setWidth 8) a * residue (p.setWidth 8) b := by
  rw [mulbytes, residue_mulLoop, residue_zero, zero_add]
  rfl

/-! #### The product and its laws (R94) -/

theorem bytePoly_mulbytes (a b : Byte) (p : Half) :
    bytePoly (mulbytes a b p) = (bytePoly a * bytePoly b) %ₘ modulus (p.setWidth 8) := by
  rw [← bytePoly_modByMonic (p.setWidth 8) (mulbytes a b p)]
  apply modByMonic_eq_of_mk_eq
  rw [map_mul]
  exact residue_mulbytes a b p

theorem mulbytes_comm (a b : Byte) (p : Half) : mulbytes a b p = mulbytes b a p := by
  apply residue_injective (p.setWidth 8)
  simp only [residue_mulbytes, mul_comm]

theorem mulbytes_assoc (a b c : Byte) (p : Half) :
    mulbytes (mulbytes a b p) c p = mulbytes a (mulbytes b c p) p := by
  apply residue_injective (p.setWidth 8)
  simp only [residue_mulbytes, mul_assoc]

theorem mulbytes_xor (a b c : Byte) (p : Half) :
    mulbytes (a ^^^ b) c p = mulbytes a c p ^^^ mulbytes b c p := by
  apply residue_injective (p.setWidth 8)
  simp only [residue_mulbytes, residue_xor, add_mul]

@[simp] theorem mulbytes_one (a : Byte) (p : Half) : mulbytes a 1#8 p = a := by
  apply residue_injective (p.setWidth 8)
  rw [residue_mulbytes, residue_one, mul_one]

@[simp] theorem one_mulbytes (a : Byte) (p : Half) : mulbytes 1#8 a p = a := by
  rw [mulbytes_comm, mulbytes_one]

@[simp] theorem mulbytes_zero (a : Byte) (p : Half) : mulbytes a 0#8 p = 0#8 := by
  apply residue_injective (p.setWidth 8)
  rw [residue_mulbytes, residue_zero, mul_zero]

@[simp] theorem zero_mulbytes (a : Byte) (p : Half) : mulbytes 0#8 a p = 0#8 := by
  rw [mulbytes_comm, mulbytes_zero]

/-- Settles O29: bytes are the remainders modulo X^8 + P, so the laws are those of the quotient ring. -/
theorem mulbytesIsThePolynomialProduct : Obligations.MulbytesIsThePolynomialProduct := by
  intro p poly
  exact ⟨fun a b => bytePoly_mulbytes a b p, fun a b => mulbytes_comm a b p, fun a b c => mulbytes_assoc a b c p,
    fun a b c => mulbytes_xor a b c p, fun a => mulbytes_one a p⟩

/-! #### Only the reduction byte matters (R95) -/

section ReductionByte

variable {p q : Half} (h : (p.setWidth 8 : Byte) = q.setWidth 8)
include h

theorem mulbytes_eq_of_low_byte (a b : Byte) : mulbytes a b p = mulbytes a b q := by
  rw [mulbytes, mulbytes, h]

theorem isgenLoop_eq_of_low_byte (c : Byte) (k : Nat) (x : Byte) (seen : ByteSet) :
    isgenLoop p c k x seen = isgenLoop q c k x seen := by
  induction k generalizing x seen with
  | zero => rfl
  | succ k ih => rw [isgenLoop, isgenLoop, ih, mulbytes_eq_of_low_byte h]

theorem isgen_eq_of_low_byte (c : Byte) : isgen p c = isgen q c := isgenLoop_eq_of_low_byte h c 255 1#8 0#256

theorem powersFrom_eq_of_low_byte (g : Byte) (n : Nat) (x : Byte) : powersFrom p g n x = powersFrom q g n x := by
  induction n generalizing x with
  | zero => rfl
  | succ n ih => rw [powersFrom, powersFrom, ih, mulbytes_eq_of_low_byte h]

theorem fillTables_eq_of_low_byte (g : Byte) (exp log : Cells Byte) :
    fillTables p g exp log = fillTables q g exp log := by
  simp only [fillTables, powers, powersFrom_eq_of_low_byte h]

end ReductionByte

/-- A completion carries POLY through and reads it nowhere. -/
theorem complete_with_poly (out : Except CmdError Writes) (s : State) (q : Word) :
    complete out { s with poly := q } = { complete out s with poly := q } := by
  rcases out with _ | _ | _ <;> rfl

section PolyRegister

variable {s : State} {q : Word} (hs : s.poly.toNat ≤ 0xFFFF) (hq : q.toNat ≤ 0xFFFF)
  (h : ((s.poly.setWidth 16 : Half).setWidth 8 : Byte) = (q.setWidth 16 : Half).setWidth 8)
include hs hq h

theorem runClmul_eq_of_low_byte : runClmul { s with poly := q } = runClmul s := by
  simp only [runClmul, operandA, operandB, operandPoly, Laws.Commands.checkU16_ok hs, Laws.Commands.checkU16_ok hq,
    Laws.Commands.bind_ok, mulbytes_eq_of_low_byte h]

theorem runIsgen_eq_of_low_byte : runIsgen { s with poly := q } = runIsgen s := by
  simp only [runIsgen, operandGen, operandPoly, Laws.Commands.checkU16_ok hs, Laws.Commands.checkU16_ok hq,
    Laws.Commands.bind_ok, isgen_eq_of_low_byte h]

/-- BUILD fails alike or commits the same tables; FIELD_POLY keeps the whole of POLY (R106). -/
theorem runBuild_of_low_byte :
    (∃ e, runBuild s = .error e ∧ runBuild { s with poly := q } = .error e) ∨
    ∃ p p' g exp log, runBuild s = .ok (.field p g exp log) ∧
      runBuild { s with poly := q } = .ok (.field p' g exp log) := by
  simp only [runBuild, operandGen, operandPoly, Laws.Commands.checkU16_ok hs, Laws.Commands.checkU16_ok hq,
    Laws.Commands.bind_ok, isgen_eq_of_low_byte h, fillTables_eq_of_low_byte h]
  cases checkByte s.gen with
  | error e => exact .inl ⟨e, rfl, rfl⟩
  | ok g =>
    rw [Laws.Commands.bind_ok, Laws.Commands.bind_ok]
    split
    · exact .inr ⟨_, _, _, _, _, rfl, rfl⟩
    · exact .inl ⟨_, rfl, rfl⟩

end PolyRegister

/-- Settles O30: of POLY's 16 bits the multiplier reads the low byte, and the three commands read POLY through it. -/
theorem onlyTheReductionByteMatters : Obligations.OnlyTheReductionByteMatters := by
  intro s q hs hq h
  have hlow : ((s.poly.setWidth 16 : Half).setWidth 8 : Byte) = (q.setWidth 16 : Half).setWidth 8 := by
    simpa using h
  refine ⟨⟨_, _, rfl, rfl, ?_⟩, ⟨_, _, rfl, rfl, ?_⟩, ⟨_, _, rfl, rfl, ?_⟩⟩
  · rw [runClmul_eq_of_low_byte hs hq hlow, complete_with_poly _ s q]
    exact ⟨rfl, rfl⟩
  · rw [runIsgen_eq_of_low_byte hs hq hlow, complete_with_poly _ s q]
    exact ⟨rfl, rfl⟩
  · rcases runBuild_of_low_byte hs hq hlow with ⟨e, hr, hr'⟩ | ⟨p, p', g, exp, log, hr, hr'⟩ <;> rw [hr, hr']
    · exact ⟨rfl, rfl⟩
    · exact ⟨rfl, rfl⟩

end Multiplier
end Proofs
end Sys2Proof

/-! ### A generator's powers are the nonzero bytes (spec/41_generator_validator.md R98, R99) -/

namespace Sys2Proof
namespace Proofs
namespace GeneratorPowers

open Sys2Proof.Machine Multiplier

/-! #### The generator test -/

@[simp] theorem mem_insert (x y : Byte) (S : ByteSet) :
    ByteSet.mem y (ByteSet.insert x S) = (ByteSet.mem y S || decide (y = x)) := by
  have hbit : (1#256 <<< x.toNat).getLsbD y.toNat = decide (y = x) := by
    have hx : x.toNat < 256 := x.isLt
    have htwoPow := BitVec.getLsbD_twoPow (w := 256) x.toNat y.toNat
    simpa only [BitVec.twoPow, hx, decide_true, Bool.true_and, eq_comm, BitVec.toNat_inj] using htwoPow
  rw [ByteSet.mem, ByteSet.insert, BitVec.getLsbD_or, hbit, ByteSet.mem]

/-- The loop passes if the values it visits are distinct, new and not 0. -/
theorem isgenLoop_iff (p : Half) (c : Byte) (k : Nat) (x : Byte) (seen : ByteSet) :
    isgenLoop p c k x seen = true ↔
      (powersFrom p c k x).Nodup ∧ (∀ y ∈ powersFrom p c k x, ByteSet.mem y seen = false ∧ y ≠ 0#8) ∧
        ByteSet.mem 0#8 seen = false := by
  induction k generalizing x seen with
  | zero => simp [isgenLoop, powersFrom]
  | succ k ih =>
    simp only [isgenLoop, powersFrom, List.nodup_cons, List.forall_mem_cons]
    cases hx : ByteSet.mem x seen with
    | true => simp
    | false =>
      simp only [Bool.false_eq_true, if_false, ih, mem_insert, Bool.or_eq_false_iff, decide_eq_false_iff_not]
      grind

theorem isgen_iff (p : Half) (c : Byte) : isgen p c = true ↔ (powers p c).Nodup ∧ 0#8 ∉ powers p c := by
  have hempty (y : Byte) : ByteSet.mem y 0#256 = false := BitVec.getLsbD_zero
  simp only [isgen, isgenLoop_iff, hempty, true_and, and_true]
  exact and_congr_right fun _ => List.forall_mem_ne'

/-! #### The powers as a list -/

theorem powersFrom_fieldPow (p : Half) (g : Byte) (n i : Nat) :
    powersFrom p g n (fieldPow p g i) = (List.range' i n).map (fieldPow p g) := by
  induction n generalizing i with
  | zero => rfl
  | succ n ih => rw [powersFrom, ← fieldPow, ih, List.range'_succ, List.map_cons]

theorem powers_eq_map (p : Half) (g : Byte) : powers p g = (List.range 255).map (fieldPow p g) := by
  rw [List.range_eq_range', ← powersFrom_fieldPow]
  rfl

@[simp] theorem getElem_powers (p : Half) (g : Byte) {k : Nat} (hk : k < (powers p g).length) :
    (powers p g)[k] = fieldPow p g k := by
  simp only [powers_eq_map, List.getElem_map, List.getElem_range]

theorem residue_fieldPow (p : Half) (g : Byte) (k : Nat) :
    residue (p.setWidth 8) (fieldPow p g k) = residue (p.setWidth 8) g ^ k := by
  induction k with
  | zero => simp [fieldPow]
  | succ k ih => rw [fieldPow, residue_mulbytes, ih, pow_succ]

theorem fieldPow_add (p : Half) (g : Byte) (i j : Nat) :
    fieldPow p g (i + j) = mulbytes (fieldPow p g i) (fieldPow p g j) p := by
  apply residue_injective (p.setWidth 8)
  simp only [residue_mulbytes, residue_fieldPow, pow_add]

section Generator

variable {p : Half} {g : Byte} (h : isgen p g = true)
include h

theorem fieldPow_injOn {i j : Nat} (hi : i < 255) (hj : j < 255) (heq : fieldPow p g i = fieldPow p g j) : i = j := by
  have hnodup := ((isgen_iff p g).1 h).1
  rw [powers_eq_map] at hnodup
  exact List.inj_on_of_nodup_map hnodup (List.mem_range.2 hi) (List.mem_range.2 hj) heq

theorem fieldPow_ne_zero {i : Nat} (hi : i < 255) : fieldPow p g i ≠ 0#8 := by
  have hzero := ((isgen_iff p g).1 h).2
  rw [powers_eq_map] at hzero
  exact fun heq => hzero (heq ▸ List.mem_map_of_mem (List.mem_range.2 hi))

/-- 255 distinct powers, none of them 0, are all the nonzero bytes (R99). -/
theorem exists_fieldPow {b : Byte} (hb : b ≠ 0#8) : ∃ i < 255, fieldPow p g i = b := by
  obtain ⟨hnodup, hzero⟩ := (isgen_iff p g).1 h
  have hcard : (powers p g).toFinset.card = 255 := by
    rw [List.toFinset_card_of_nodup hnodup, Laws.Memory.length_powers]
  have hall : (powers p g).toFinset = Finset.univ.erase 0#8 := by
    refine Finset.eq_of_subset_of_card_le (fun y hy => ?_) ?_
    · rw [List.mem_toFinset] at hy
      exact Finset.mem_erase.2 ⟨fun hy0 => hzero (hy0 ▸ hy), Finset.mem_univ y⟩
    · rw [hcard, Finset.card_erase_of_mem (Finset.mem_univ _), Finset.card_univ,
        ← FinEnum.card_eq_fintypeCard, FinEnum.card_bitVec]
      decide
  have hmem : b ∈ powers p g := by
    rw [← List.mem_toFinset, hall]
    exact Finset.mem_erase.2 ⟨hb, Finset.mem_univ b⟩
  simpa [powers_eq_map] using hmem

theorem generator_ne_zero : g ≠ 0#8 := by
  simpa [fieldPow] using fieldPow_ne_zero h (i := 1) (by decide)

theorem generator_ne_one : g ≠ 1#8 := by
  intro hg
  have hindex : 1 = 0 := fieldPow_injOn h (by decide) (by decide) (by simpa [fieldPow] using hg)
  exact absurd hindex (by decide)

/-- A generator has an inverse, whatever p is: 1 + g is a power g^m·g, so (1 + g^m)·g = 1. -/
theorem exists_inverse : ∃ b, mulbytes b g p = 1#8 := by
  have hsum : (1#8 ^^^ g : Byte) ≠ 0#8 := by
    simpa [BitVec.xor_eq_zero_iff] using (generator_ne_one h).symm
  obtain ⟨m, -, hm⟩ := exists_fieldPow h hsum
  cases m with
  | zero =>
    have hg : g = 0#8 := by
      rw [← BitVec.zero_xor (x := g), ← BitVec.xor_self (x := 1#8), BitVec.xor_assoc, ← hm, fieldPow]
    exact absurd hg (generator_ne_zero h)
  | succ m =>
    rw [fieldPow] at hm
    refine ⟨1#8 ^^^ fieldPow p g m, ?_⟩
    rw [mulbytes_xor, one_mulbytes, hm, BitVec.xor_comm 1#8, ← BitVec.xor_assoc, BitVec.xor_self, BitVec.zero_xor]

theorem mulbytes_generator_injective {a b : Byte} (heq : mulbytes a g p = mulbytes b g p) : a = b := by
  obtain ⟨c, hc⟩ := exists_inverse h
  rw [mulbytes_comm] at hc
  rw [← mulbytes_one a p, ← hc, ← mulbytes_assoc, heq, mulbytes_assoc, hc, mulbytes_one]

theorem fieldPow_255 : fieldPow p g 255 = 1#8 := by
  have hne : fieldPow p g 255 ≠ 0#8 := fun hzero =>
    fieldPow_ne_zero h (i := 254) (by decide)
      (mulbytes_generator_injective h (hzero.trans (zero_mulbytes g p).symm))
  obtain ⟨j, hj, heq⟩ := exists_fieldPow h hne
  cases j with
  | zero => exact heq.symm
  | succ j =>
    have hindex : j = 254 :=
      fieldPow_injOn h (by omega) (by decide) (mulbytes_generator_injective h heq)
    omega

/-- Powers repeat with period 255 (R109). -/
theorem fieldPow_mod (i : Nat) : fieldPow p g (i % 255) = fieldPow p g i := by
  have hperiodic : Function.Periodic (fieldPow p g) 255 := fun i => by
    rw [fieldPow_add, fieldPow_255 h, mulbytes_one]
  exact hperiodic.map_mod_nat i

end Generator

end GeneratorPowers
end Proofs
end Sys2Proof

/-! ### A built field: its tables and MUL (spec/42_table_builder.md R107, spec/43_field_arithmetic.md R122) -/

namespace Sys2Proof
namespace Proofs
namespace BuiltField

open Sys2Proof.Machine Multiplier GeneratorPowers

/-! #### What the fill leaves in the tables (R107) -/

/-- EXP[0..510] after a fill: the powers, and from 255 on the powers again. -/
theorem get_fillExp (p : Half) (g : Byte) (exp : Cells Byte) {i : Nat} (hi : i ≤ 510) :
    Cells.get i (fillExp (powers p g) exp) = some (fieldPow p g (i % 255)) := by
  rw [fillExp, Config.groupOrder, Laws.Cells.get_setRun, Laws.Cells.get_setRun, powers_eq_map]
  by_cases hlow : i < 255
  · simp [hlow, Nat.mod_eq_of_lt]
  · obtain ⟨j, rfl⟩ := Nat.exists_eq_add_of_le' (Nat.not_lt.1 hlow)
    rcases (show j ≤ 255 by omega).lt_or_eq with hj | rfl
    · simp [hj, show j < 256 by omega, Nat.mod_eq_of_lt]
    · simp

theorem get_fillLog_unvisited {xs : List Byte} {v : Byte} (hv : v ∉ xs) (i : Nat) (log : Cells Byte) :
    Cells.get v.toNat (fillLog xs i log) = Cells.get v.toNat log := by
  induction xs generalizing i log with
  | nil => rfl
  | cons x xs ih =>
    obtain ⟨hne, htail⟩ := List.ne_and_not_mem_of_not_mem_cons hv
    rw [fillLog, ih htail, Laws.Cells.get_set_other (mt BitVec.eq_of_toNat_eq hne)]

/-- LOG[x] after a fill is the turn that visited x. -/
theorem get_fillLog_visited {xs : List Byte} (hnodup : xs.Nodup) (i : Nat) (log : Cells Byte) {k : Nat}
    (hk : k < xs.length) : Cells.get xs[k].toNat (fillLog xs i log) = some (BitVec.ofNat 8 (i + k)) := by
  induction xs generalizing i log k with
  | nil => simp at hk
  | cons x xs ih =>
    obtain ⟨hx, htail⟩ := List.nodup_cons.1 hnodup
    cases k with
    | zero => rw [fillLog, List.getElem_cons_zero, get_fillLog_unvisited hx, Laws.Cells.get_set_same, Nat.add_zero]
    | succ k =>
      rw [fillLog, List.getElem_cons_succ, ih htail, Nat.add_right_comm]
      rfl

/-! #### The tables of a built field -/

section Built

variable {s : State} (h : FieldBuilt s)
include h

theorem tables_of_built : s.mem.exp = fillExp (powers s.fpoly s.fgen) [] ∧
    s.mem.log = fillLog (powers s.fpoly s.fgen) 0 [] := by
  obtain ⟨-, htables⟩ := h
  rw [fillTables, Prod.mk.injEq] at htables
  exact ⟨htables.1.symm, htables.2.symm⟩

/-- EXP[i] is g^i, also above 254, where the copy repeats the powers (R109). -/
theorem get_exp {i : Nat} (hi : i ≤ 510) : Cells.get i s.mem.exp = some (fieldPow s.fpoly s.fgen i) := by
  rw [(tables_of_built h).1, get_fillExp _ _ _ hi, fieldPow_mod h.1]

theorem get_log {k : Nat} (hk : k < 255) :
    Cells.get (fieldPow s.fpoly s.fgen k).toNat s.mem.log = some (BitVec.ofNat 8 k) := by
  have hlen : k < (powers s.fpoly s.fgen).length := hk.trans_eq (Laws.Memory.length_powers _ _).symm
  have hvisited := get_fillLog_visited ((isgen_iff _ _).1 h.1).1 0 [] hlen
  rwa [getElem_powers, Nat.zero_add, ← (tables_of_built h).2] at hvisited

theorem readExp_eq {i : Nat} (hi : i ≤ 510) : readExp s i = fieldPow s.fpoly s.fgen i := by
  rw [readExp, get_exp h hi, Option.getD_some]

theorem readLog_fieldPow {k : Nat} (hk : k < 255) :
    (readLog s (fieldPow s.fpoly s.fgen k).toNat).toNat = k := by
  rw [readLog, get_log h hk, Option.getD_some, BitVec.toNat_ofNat, Nat.mod_eq_of_lt (by omega)]

/-- R122: adding logarithms multiplies, g^i·g^j being g^(i + j). -/
theorem mulBody_eq_mulbytes (a b : Byte) : mulBody s a b = mulbytes a b s.fpoly := by
  have hgen := h.1
  unfold mulBody
  split
  next hzero =>
    rcases hzero with rfl | rfl
    · rw [zero_mulbytes]
    · rw [mulbytes_zero]
  next hzero =>
    obtain ⟨ha, hb⟩ := not_or.1 hzero
    obtain ⟨i, hi, rfl⟩ := exists_fieldPow hgen ha
    obtain ⟨j, hj, rfl⟩ := exists_fieldPow hgen hb
    rw [readLog_fieldPow h hi, readLog_fieldPow h hj, readExp_eq h (by omega), fieldPow_add]

end Built

/-! #### MUL and CLMUL (spec/40_multiplier.md R96) -/

section ByteOperands

variable {s : State} (ha : s.opa.toNat ≤ 255) (hb : s.opb.toNat ≤ 255)
include ha hb

theorem fieldCommand_fmul_of_built (h : FieldBuilt s) (hfv : s.fv = true) :
    fieldCommand s (fmul s (operandA s) (operandB s)) =
      .ok (.result (mulbytes (s.opa.setWidth 8) (s.opb.setWidth 8) s.fpoly)) := by
  rw [fieldCommand, Laws.Commands.requireField_ok hfv, fmul, operandA, operandB, Laws.Commands.checkByte_ok ha,
    Laws.Commands.checkByte_ok hb]
  simp only [Laws.Commands.bind_ok, mulBody_eq_mulbytes h]
  rfl

theorem runClmul_of_poly_eq (hp : s.poly = zext32 s.fpoly) :
    runClmul s = .ok (.result (mulbytes (s.opa.setWidth 8) (s.opb.setWidth 8) s.fpoly)) := by
  have hrange : s.poly.toNat ≤ 0xFFFF := by
    rw [hp, Laws.Commands.zext32_toNat (by decide)]
    exact Nat.le_of_lt_succ s.fpoly.isLt
  rcases Laws.Commands.runClmul_cases s with ⟨-, -, -, hrun⟩ | ⟨hbad, -⟩
  · rw [hrun, hp, Laws.Commands.zext32_setWidth (by decide)]
  · omega

end ByteOperands

/-- Settles O43: both commands write the product under FIELD_POLY, one from the tables and one from the multiplier. -/
theorem clmulAndMulAgree : Obligations.ClmulAndMulAgree := by
  intro s hinv hfv ha hb hp
  refine ⟨complete (.ok (.result (mulbytes (s.opa.setWidth 8) (s.opb.setWidth 8) s.fpoly))) s, ?_, ?_, rfl, rfl⟩
  · rw [exec, execMul, fieldCommand_fmul_of_built ha hb (hinv.field hfv) hfv]
  · rw [exec, execClmul, runClmul_of_poly_eq ha hb hp]

end BuiltField
end Proofs
end Sys2Proof

/-! ### The generator test and the multiplicative order (spec/41_generator_validator.md R99) -/

namespace Sys2Proof
namespace Proofs
namespace GeneratorOrder

open Sys2Proof.Machine Multiplier GeneratorPowers

theorem nodup_powers_iff (p : Half) (c : Byte) :
    (powers p c).Nodup ↔ ∀ i j, i < j → j < 255 → fieldPow p c i ≠ fieldPow p c j := by
  simp only [List.Nodup, List.pairwise_iff_getElem, getElem_powers, Laws.Memory.length_powers]
  exact ⟨fun h i j hij hj => h i j (hij.trans hj) hj hij, fun h i j _ hj hij => h i j hij hj⟩

theorem zero_notMem_powers_iff (p : Half) (c : Byte) :
    0#8 ∉ powers p c ↔ ∀ i, i < 255 → fieldPow p c i ≠ 0#8 := by
  simp [powers_eq_map]

/-- The first reading of R99. -/
theorem isgen_iff_distinct_nonzero (p : Half) (c : Byte) :
    isgen p c = true ↔ (∀ i, i < 255 → fieldPow p c i ≠ 0#8) ∧
      ∀ i j, i < j → j < 255 → fieldPow p c i ≠ fieldPow p c j := by
  rw [isgen_iff, nodup_powers_iff, zero_notMem_powers_iff, and_comm]

theorem fieldPow_ne_one {p : Half} {c : Byte} (h : isgen p c = true) {k : Nat} (hpos : 0 < k) (hk : k < 255) :
    fieldPow p c k ≠ 1#8 :=
  fun hone => hpos.ne' (fieldPow_injOn h hk (by decide) hone)

section OrderDivides255

variable {p : Half} {c : Byte} (h255 : fieldPow p c 255 = 1#8)
include h255

/-- Below exponent 255 each power has the complementary one as its inverse. -/
theorem mulbytes_fieldPow_complement {i : Nat} (hi : i < 255) :
    mulbytes (fieldPow p c i) (fieldPow p c (255 - i)) p = 1#8 := by
  rw [← fieldPow_add, Nat.add_sub_of_le hi.le, h255]

theorem fieldPow_ne_zero_of_pow_255 {i : Nat} (hi : i < 255) : fieldPow p c i ≠ 0#8 := by
  intro hzero
  have hinverse := mulbytes_fieldPow_complement h255 hi
  rw [hzero, zero_mulbytes] at hinverse
  exact absurd hinverse (by decide)

/-- Equal powers cancel: multiplied by the inverse of the lower one, they give 1 and the power of the difference. -/
theorem fieldPow_sub_eq_one {i j : Nat} (hij : i < j) (hj : j < 255) (heq : fieldPow p c i = fieldPow p c j) :
    fieldPow p c (j - i) = 1#8 := by
  have hinverse := mulbytes_fieldPow_complement h255 (hij.trans hj)
  calc fieldPow p c (j - i)
      = mulbytes (fieldPow p c (j - i)) (mulbytes (fieldPow p c i) (fieldPow p c (255 - i)) p) p := by
        rw [hinverse, mulbytes_one]
    _ = mulbytes (fieldPow p c j) (fieldPow p c (255 - i)) p := by
        rw [← mulbytes_assoc, ← fieldPow_add, Nat.sub_add_cancel hij.le]
    _ = 1#8 := by rw [← heq, hinverse]

end OrderDivides255

/-- The second reading of R99. -/
theorem isgen_iff_order_255 (p : Half) (c : Byte) :
    isgen p c = true ↔ fieldPow p c 255 = 1#8 ∧ ∀ k, 0 < k → k < 255 → fieldPow p c k ≠ 1#8 := by
  constructor
  · exact fun h => ⟨fieldPow_255 h, fun k hpos hk => fieldPow_ne_one h hpos hk⟩
  · rintro ⟨h255, hleast⟩
    refine (isgen_iff_distinct_nonzero p c).2 ⟨fun i hi => fieldPow_ne_zero_of_pow_255 h255 hi, ?_⟩
    intro i j hij hj heq
    exact hleast (j - i) (by omega) (by omega) (fieldPow_sub_eq_one h255 hij hj heq)

/-- Settles O32: 255 distinct nonzero powers are all the nonzero bytes, so the next one is 1; and an element of order 255 is a
unit, whose equal powers cancel. -/
theorem generatorTestMeansOrder255 : Obligations.GeneratorTestMeansOrder255 :=
  fun p c => ⟨isgen_iff_distinct_nonzero p c, isgen_iff_order_255 p c⟩

end GeneratorOrder
end Proofs
end Sys2Proof

/-! ### BUILD and the tables it leaves (spec/42_table_builder.md R105 to R112) -/

namespace Sys2Proof
namespace Proofs
namespace TableBuilder

open Sys2Proof.Machine Multiplier GeneratorPowers BuiltField

/-! #### The loops, unfolded on their first turns (R98, R107, R109) -/

example (p : Half) (g : Byte) : powersFrom p g 3 1#8 = [fieldPow p g 0, fieldPow p g 1, fieldPow p g 2] := by
  simp only [powersFrom, fieldPow]

example (x y : Byte) (log : Cells Byte) :
    fillLog [x, y] 0 log = Cells.set y.toNat 1#8 (Cells.set x.toNat 0#8 log) := by
  simp only [fillLog]

example (p : Half) (c x : Byte) (seen : ByteSet) (hx : ByteSet.mem x seen = false) :
    isgenLoop p c 1 x seen = !ByteSet.mem 0#8 (ByteSet.insert x seen) := by
  simp [isgenLoop, hx]

/-! #### What BUILD does (R105, R106, R108) -/

/-- The state that a successful BUILD of the operands POLY and GEN commits (R106). -/
def commitBuild (s : State) : State :=
  { s with
    mem := { s.mem with
      exp := fillExp (powers (s.poly.setWidth 16) (s.gen.setWidth 8)) s.mem.exp
      log := fillLog (powers (s.poly.setWidth 16) (s.gen.setWidth 8)) 0 s.mem.log }
    fpoly := s.poly.setWidth 16, fgen := s.gen.setWidth 8, fv := true
    err := 0#4, busy := false, tick := s.tick + 1 }

theorem commitBuild_err (s : State) : (commitBuild s).err = 0#4 := rfl

/-- BUILD's three outcomes, with the condition of each. -/
theorem exec_build_cases (s : State) :
    (s.poly.toNat ≤ 0xFFFF ∧ s.gen.toNat ≤ 255 ∧ isgen (s.poly.setWidth 16) (s.gen.setWidth 8) = true ∧
      exec .build s = .next (commitBuild s)) ∨
    (s.poly.toNat ≤ 0xFFFF ∧ s.gen.toNat ≤ 255 ∧ isgen (s.poly.setWidth 16) (s.gen.setWidth 8) = false ∧
      exec .build s = .next (raiseError .invalidGenerator s)) ∨
    ((0xFFFF < s.poly.toNat ∨ 255 < s.gen.toNat) ∧ exec .build s = .next (raiseError .outOfRange s)) := by
  have hexec : exec .build s = .next (complete (runBuild s) s) := rfl
  rcases Laws.Commands.runBuild_cases s with ⟨hp, hg, hgen, hrun⟩ | ⟨hp, hg, hgen, hrun⟩ | ⟨hrange, hrun⟩ <;>
    rw [hrun] at hexec
  · exact .inl ⟨hp, hg, hgen, by rw [hexec, Laws.Commands.complete_field, fillTables, commitBuild]⟩
  · exact .inr (.inl ⟨hp, hg, hgen, hexec⟩)
  · exact .inr (.inr ⟨hrange, hexec⟩)

theorem exec_build_success {s : State} (hp : s.poly.toNat ≤ 0xFFFF) (hg : s.gen.toNat ≤ 255)
    (hgen : isgen (s.poly.setWidth 16) (s.gen.setWidth 8) = true) : exec .build s = .next (commitBuild s) := by
  rcases exec_build_cases s with ⟨-, -, -, hs⟩ | ⟨-, -, hfalse, -⟩ | ⟨hrange, -⟩
  · exact hs
  · simp [hgen] at hfalse
  · omega

theorem exec_build_invalidGenerator {s : State} (hp : s.poly.toNat ≤ 0xFFFF) (hg : s.gen.toNat ≤ 255)
    (hgen : isgen (s.poly.setWidth 16) (s.gen.setWidth 8) = false) :
    exec .build s = .next (raiseError .invalidGenerator s) := by
  rcases exec_build_cases s with ⟨-, -, htrue, -⟩ | ⟨-, -, -, hs⟩ | ⟨hrange, -⟩
  · simp [hgen] at htrue
  · exact hs
  · omega

theorem exec_build_outOfRange {s : State} (hrange : 0xFFFF < s.poly.toNat ∨ 255 < s.gen.toNat) :
    exec .build s = .next (raiseError .outOfRange s) := by
  rcases exec_build_cases s with ⟨hp, hg, -⟩ | ⟨hp, hg, -⟩ | ⟨-, hs⟩
  · omega
  · omega
  · exact hs

/-- Settles O35: both failures only take the error. -/
theorem buildFailureKeepsTheField : Obligations.BuildFailureKeepsTheField := by
  refine ⟨fun s hrange => exec_build_outOfRange hrange, fun s hp hg hgen => exec_build_invalidGenerator hp hg hgen,
    fun s t hexec herr => ?_⟩
  rcases exec_build_cases s with ⟨-, -, -, hs⟩ | ⟨-, -, -, hs⟩ | ⟨-, hs⟩ <;> rw [hs] at hexec <;> cases hexec
  · exact absurd (commitBuild_err s) herr
  · exact ⟨rfl, rfl, rfl, rfl, rfl⟩
  · exact ⟨rfl, rfl, rfl, rfl, rfl⟩

/-! #### What the fill leaves in the tables (R107, R109) -/

/-- The fill stops at EXP[510]. -/
theorem get_fillExp_above (p : Half) (g : Byte) (exp : Cells Byte) {i : Nat} (hi : 511 ≤ i) :
    Cells.get i (fillExp (powers p g) exp) = Cells.get i exp := by
  have hlen := Laws.Memory.length_powers p g
  have hcopy : ¬ i - 255 < (powers p g ++ (powers p g).take 1).length := by simp [hlen]; omega
  have hloop : ¬ i - 0 < (powers p g).length := by omega
  rw [fillExp, Config.groupOrder, Laws.Cells.get_setRun, if_neg (by omega), dif_neg hcopy, Laws.Cells.get_setRun,
    if_neg (by omega), dif_neg hloop]

/-- No power is 0, so the fill does not write LOG[0]. -/
theorem get_zero_fillLog {p : Half} {g : Byte} (h : isgen p g = true) (log : Cells Byte) :
    Cells.get 0 (fillLog (powers p g) 0 log) = Cells.get 0 log :=
  get_fillLog_unvisited ((isgen_iff p g).1 h).2 0 log

theorem get_fillLog_fieldPow {p : Half} {g : Byte} (h : isgen p g = true) (log : Cells Byte) {k : Nat} (hk : k < 255) :
    Cells.get (fieldPow p g k).toNat (fillLog (powers p g) 0 log) = some (BitVec.ofNat 8 k) := by
  have hlen : k < (powers p g).length := hk.trans_eq (Laws.Memory.length_powers p g).symm
  have hvisited := get_fillLog_visited ((isgen_iff p g).1 h).1 0 log hlen
  rwa [getElem_powers, Nat.zero_add] at hvisited

/-- The tables hold the powers of g and their logarithms (R109). -/
def PowerTables (p : Half) (g : Byte) (exp log : Cells Byte) : Prop :=
  isgen p g = true ∧ (∀ i, i ≤ 510 → Cells.get i exp = some (fieldPow p g i)) ∧
    ∀ k, k < 255 → Cells.get (fieldPow p g k).toNat log = some (BitVec.ofNat 8 k)

/-- The fill of a generator gives its tables, whatever they held before. -/
theorem powerTables_fill {p : Half} {g : Byte} (h : isgen p g = true) (exp log : Cells Byte) :
    PowerTables p g (fillExp (powers p g) exp) (fillLog (powers p g) 0 log) :=
  ⟨h, fun _ hi => (get_fillExp p g exp hi).trans (congrArg some (fieldPow_mod h _)),
    fun _ hk => get_fillLog_fieldPow h log hk⟩

theorem powerTables_of_built {s : State} (h : FieldBuilt s) :
    PowerTables s.fpoly s.fgen s.mem.exp s.mem.log :=
  ⟨h.1, fun _ hi => BuiltField.get_exp h hi, fun _ hk => BuiltField.get_log h hk⟩

/-- A BUILD with ERR = 0 leaves the tables of its FIELD_POLY and FIELD_GEN. -/
theorem powerTables_of_exec_build {s t : State} (hexec : exec .build s = .next t) (herr : t.err = 0#4) :
    PowerTables t.fpoly t.fgen t.mem.exp t.mem.log := by
  rcases exec_build_cases s with ⟨-, -, hgen, hs⟩ | ⟨-, -, -, hs⟩ | ⟨-, hs⟩ <;> rw [hs] at hexec <;> cases hexec
  · simp only [commitBuild, powerTables_fill hgen]
  · exact absurd herr (Laws.Commands.code_ne_zero .invalidGenerator)
  · exact absurd herr (Laws.Commands.code_ne_zero .outOfRange)

/-- Settles O34: the fill visits every nonzero byte at the turn of its logarithm, and neither EXP[511] nor LOG[0]. -/
theorem buildCommitsTheField : Obligations.BuildCommitsTheField := by
  intro s hp hg hgen
  refine ⟨_, _, exec_build_success hp hg hgen, fun i hi => get_fillExp _ _ _ hi,
    fun i hi => get_fillExp_above _ _ _ hi, fun y hy => ?_, get_zero_fillLog hgen _⟩
  obtain ⟨k, hk, rfl⟩ := exists_fieldPow hgen hy
  refine ⟨k, by omega, get_fillLog_fieldPow hgen _ hk, fun m hm => ⟨fun heq => ?_, fun heq => by rw [heq]⟩⟩
  exact fieldPow_injOn hgen (by omega) hk heq

/-! #### The table invariants (R110) -/

theorem fieldPow_one (p : Half) (g : Byte) : fieldPow p g 1 = g := one_mulbytes g p

theorem toNat_ofNat_of_lt_255 {k : Nat} (hk : k < 255) : (BitVec.ofNat 8 k).toNat = k :=
  Nat.mod_eq_of_lt (by omega)

namespace PowerTables

variable {p : Half} {g : Byte} {exp log : Cells Byte} (h : PowerTables p g exp log)
include h

theorem generator : isgen p g = true := h.1

theorem get_exp {i : Nat} (hi : i ≤ 510) : Cells.get i exp = some (fieldPow p g i) := h.2.1 i hi

theorem get_log {k : Nat} (hk : k < 255) : Cells.get (fieldPow p g k).toNat log = some (BitVec.ofNat 8 k) := h.2.2 k hk

theorem exp_log {y : Byte} (hy : y ≠ 0#8) :
    ∃ k : Byte, Cells.get y.toNat log = some k ∧ k.toNat ≤ 254 ∧ Cells.get k.toNat exp = some y := by
  obtain ⟨k, hk, rfl⟩ := exists_fieldPow h.generator hy
  refine ⟨BitVec.ofNat 8 k, h.get_log hk, ?_, ?_⟩ <;> rw [toNat_ofNat_of_lt_255 hk]
  · omega
  · exact h.get_exp (by omega)

theorem log_exp {i : Nat} (hi : i ≤ 254) :
    ∃ x : Byte, Cells.get i exp = some x ∧ Cells.get x.toNat log = some (BitVec.ofNat 8 i) :=
  ⟨_, h.get_exp (by omega), h.get_log (by omega)⟩

theorem exp_periodic {i : Nat} (hi : i ≤ 255) : Cells.get (i + 255) exp = Cells.get i exp := by
  rw [h.get_exp (by omega), h.get_exp (by omega), ← fieldPow_mod h.generator (i + 255), Nat.add_mod_right,
    fieldPow_mod h.generator]

theorem exp_ne_zero {i : Nat} (hi : i ≤ 510) : ∃ x : Byte, x ≠ 0#8 ∧ Cells.get i exp = some x := by
  refine ⟨fieldPow p g i, ?_, h.get_exp hi⟩
  rw [← fieldPow_mod h.generator]
  exact fieldPow_ne_zero h.generator (Nat.mod_lt i (by decide))

theorem exp_zero : Cells.get 0 exp = some 1#8 := h.get_exp (by decide)

theorem log_one : Cells.get 1 log = some 0#8 := h.get_log (k := 0) (by decide)

theorem log_generator : Cells.get g.toNat log = some 1#8 := by
  simpa [fieldPow_one] using h.get_log (k := 1) (by decide)

end PowerTables

/-- Settles O36: after a BUILD with ERR = 0 the tables hold the powers of a generator, whose period is 255. -/
theorem builtTablesAreMutualInverses : Obligations.BuiltTablesAreMutualInverses := by
  intro s t hexec herr
  have h := powerTables_of_exec_build hexec herr
  have h255 := h.exp_periodic (i := 0) (by decide)
  have h510 := h.exp_periodic (i := 255) (by decide)
  rw [h.exp_zero] at h255
  rw [h255] at h510
  exact ⟨fun y hy => h.exp_log hy, fun i hi => h.log_exp hi, fun i hi => h.exp_periodic hi, fun i hi => h.exp_ne_zero hi,
    h.exp_zero, h255, h510, h.log_one, h.log_generator⟩

/-! #### The indices that the commands read (R111) -/

/-- The index of DIV is the difference of the logarithms modulo 255, in [0, 254]. -/
theorem divIndex_spec {la lb : Byte} (ha : la.toNat ≤ 254) (hb : lb.toNat ≤ 254) :
    divIndex la lb ≤ 254 ∧ (divIndex la lb + lb.toNat) % 255 = la.toNat := by
  simp only [divIndex]
  split <;> omega

/-- Settles O37: logarithms are at most 254, and EXP is specified up to 510. -/
theorem tableReadsStayInRange : Obligations.TableReadsStayInRange := by
  intro s a b hinv hfv ha hb
  have h := powerTables_of_built (hinv.field hfv)
  obtain ⟨la, hla, hla254, -⟩ := h.exp_log ha
  obtain ⟨lb, hlb, hlb254, -⟩ := h.exp_log hb
  have hdiv := (divIndex_spec hla254 hlb254).1
  have hspecified {i : Nat} (hi : i ≤ 510) : (Cells.get i s.mem.exp).isSome := by rw [h.get_exp hi, Option.isSome_some]
  exact ⟨la, lb, hla, hlb, by omega, hdiv, by omega, by omega, hspecified (by omega), hspecified (by omega),
    hspecified (by omega)⟩

/-! #### Products, quotients and inverses by the tables (R112) -/

/-- What a field command gives on bytes is its value, none on an error. -/
theorem commandValue_eq_toOption {i : Instr} {s : State} {a b : Byte} {value : Except CmdError Byte} (hfv : s.fv = true)
    (hexec : exec i { s with opa := zext32 a, opb := zext32 b } =
      .next (complete (fieldCommand { s with opa := zext32 a, opb := zext32 b } value)
        { s with opa := zext32 a, opb := zext32 b })) :
    commandValue i s a b = value.toOption := by
  rw [commandValue, hexec, fieldCommand, Laws.Commands.requireField_ok (by exact hfv)]
  cases value with
  | ok v => rfl
  | error e => exact if_neg (Laws.Commands.code_ne_zero e)

section CommandValue

variable {s : State} (hfv : s.fv = true) (a b : Byte)
include hfv

theorem commandValue_mul : commandValue .mul s a b = some (mulBody s a b) :=
  commandValue_eq_toOption hfv (value := .ok (mulBody s a b)) (by rw [← Laws.Commands.fmul_zext32]; rfl)

theorem commandValue_div : commandValue .div s a b = (divBody s a b).toOption :=
  commandValue_eq_toOption hfv (by rw [← Laws.Commands.fdiv_zext32]; rfl)

theorem commandValue_inv : commandValue .inv s a b = (invBody s a).toOption :=
  commandValue_eq_toOption hfv (by rw [← Laws.Commands.finv_zext32]; rfl)

end CommandValue

/-- A nonzero byte is a power of the generator, which the complementary power cancels. -/
theorem mulbytes_right_cancel {p : Half} {g : Byte} (h : isgen p g = true) {a b c : Byte} (hb : b ≠ 0#8)
    (heq : mulbytes a b p = mulbytes c b p) : a = c := by
  obtain ⟨j, hj, rfl⟩ := exists_fieldPow h hb
  have hinverse := GeneratorOrder.mulbytes_fieldPow_complement (fieldPow_255 h) hj
  rw [← mulbytes_one a p, ← hinverse, ← mulbytes_assoc, heq, mulbytes_assoc, hinverse, mulbytes_one]

section Built

variable {s : State} (h : FieldBuilt s)
include h

/-- LOG of a nonzero byte is its logarithm. -/
theorem readLog_spec {a : Byte} (ha : a ≠ 0#8) :
    (readLog s a.toNat).toNat ≤ 254 ∧ fieldPow s.fpoly s.fgen (readLog s a.toNat).toNat = a := by
  obtain ⟨i, hi, rfl⟩ := exists_fieldPow h.1 ha
  rw [readLog_fieldPow h hi]
  exact ⟨by omega, rfl⟩

/-- DIV's table lookup is the quotient: g^(la - lb)·g^lb = g^la, the exponents modulo 255 (R125). -/
theorem exists_divBody (a : Byte) {b : Byte} (hb : b ≠ 0#8) :
    ∃ q, divBody s a b = .ok q ∧ mulbytes q b s.fpoly = a := by
  by_cases ha : a = 0#8
  · exact ⟨0#8, (if_neg hb).trans (if_pos ha), by rw [zero_mulbytes, ha]⟩
  · refine ⟨_, (if_neg hb).trans (if_neg ha), ?_⟩
    obtain ⟨hla, hpowA⟩ := readLog_spec h ha
    obtain ⟨hlb, hpowB⟩ := readLog_spec h hb
    generalize readLog s a.toNat = la at *
    generalize readLog s b.toNat = lb at *
    obtain ⟨hindex, hmod⟩ := divIndex_spec hla hlb
    rw [readExp_eq h (by omega), ← hpowB, ← fieldPow_add, ← fieldPow_mod h.1, hmod, hpowA]

/-- INV's table lookup is the inverse: g^(255 - la)·g^la = 1 (R128). -/
theorem exists_invBody {a : Byte} (ha : a ≠ 0#8) : ∃ q, invBody s a = .ok q ∧ mulbytes q a s.fpoly = 1#8 := by
  refine ⟨_, if_neg ha, ?_⟩
  obtain ⟨hla, hpow⟩ := readLog_spec h ha
  generalize readLog s a.toNat = la at *
  rw [readExp_eq h (by omega), ← hpow, ← fieldPow_add, Nat.sub_add_cancel (by omega), fieldPow_255 h.1]

end Built

section TwoFields

variable {s t : State} (hs : FieldBuilt s) (ht : FieldBuilt t) (hp : (s.fpoly.setWidth 8 : Byte) = t.fpoly.setWidth 8)
include hs ht hp

theorem mulBody_eq_of_low_byte (a b : Byte) : mulBody s a b = mulBody t a b := by
  rw [mulBody_eq_mulbytes hs, mulBody_eq_mulbytes ht, mulbytes_eq_of_low_byte hp]

/-- The quotient by a nonzero byte is unique. -/
theorem divBody_eq_of_low_byte (a b : Byte) : divBody s a b = divBody t a b := by
  by_cases hb : b = 0#8
  · exact (if_pos hb).trans (if_pos hb).symm
  · obtain ⟨q, hq, hqb⟩ := exists_divBody hs a hb
    obtain ⟨r, hr, hrb⟩ := exists_divBody ht a hb
    rw [hq, hr, mulbytes_right_cancel hs.1 hb (hqb.trans (hrb.symm.trans (mulbytes_eq_of_low_byte hp r b).symm))]

/-- The inverse of a nonzero byte is unique. -/
theorem invBody_eq_of_low_byte (a : Byte) : invBody s a = invBody t a := by
  by_cases ha : a = 0#8
  · exact (if_pos ha).trans (if_pos ha).symm
  · obtain ⟨q, hq, hqa⟩ := exists_invBody hs ha
    obtain ⟨r, hr, hra⟩ := exists_invBody ht ha
    rw [hq, hr, mulbytes_right_cancel hs.1 ha (hqa.trans (hra.symm.trans (mulbytes_eq_of_low_byte hp r a).symm))]

end TwoFields

/-! #### Different generators have different tables (R112) -/

section TwoGenerators

variable {p q : Half} {g c : Byte} {expS logS expT logT : Cells Byte}
  (hs : PowerTables p g expS logS) (ht : PowerTables q c expT logT) (hne : g ≠ c)
include hs ht hne

/-- EXP[1] is the generator. -/
theorem exp_one_ne : Cells.get 1 expS ≠ Cells.get 1 expT := by
  rw [hs.get_exp (by decide), ht.get_exp (by decide), fieldPow_one, fieldPow_one]
  exact fun heq => hne (Option.some.inj heq)

/-- The generator is the one byte whose logarithm is 1. -/
theorem log_generator_ne : Cells.get g.toNat logS ≠ Cells.get g.toNat logT := by
  obtain ⟨k, hk, -, hexp⟩ := ht.exp_log (generator_ne_zero hs.generator)
  rw [hs.log_generator, hk]
  rintro ⟨⟩
  rw [BitVec.toNat_ofNat, ht.get_exp (by decide), fieldPow_one] at hexp
  exact hne (Option.some.inj hexp).symm

end TwoGenerators

/-- Settles O49: the product of bytes is the multiplier's under the reduction byte, and quotients and inverses by a nonzero
byte are determined by it; the generators stand at EXP[1] and are the bytes of logarithm 1. -/
theorem productsDependOnThePolynomialAlone : Obligations.ProductsDependOnThePolynomialAlone := by
  refine ⟨fun s t hinvS hinvT hfvS hfvT hp => ⟨fun a b => ?_, fun hne => ?_⟩, fun s hinv hfv hp _ => ?_⟩
  · have hs := hinvS.field hfvS
    have ht := hinvT.field hfvT
    rw [commandValue_mul hfvS, commandValue_mul hfvT, commandValue_div hfvS, commandValue_div hfvT, commandValue_inv hfvS,
      commandValue_inv hfvT, mulBody_eq_of_low_byte hs ht hp, divBody_eq_of_low_byte hs ht hp,
      invBody_eq_of_low_byte hs ht hp]
    exact ⟨rfl, rfl, rfl⟩
  · have hs := powerTables_of_built (hinvS.field hfvS)
    have ht := powerTables_of_built (hinvT.field hfvT)
    have hzero : s.fgen.toNat ≠ 0 := fun h0 => generator_ne_zero hs.generator (BitVec.eq_of_toNat_eq h0)
    exact ⟨⟨1, by decide, exp_one_ne hs ht hne⟩,
      ⟨s.fgen.toNat, by omega, by omega, log_generator_ne hs ht hne⟩⟩
  · rw [commandValue_mul hfv, mulBody_eq_mulbytes (hinv.field hfv), hp]
    decide

end TableBuilder
end Proofs
end Sys2Proof

/-! ### ADD, SUB, MUL, DIV and INV: their completions and their laws (spec/43_field_arithmetic.md R115 to R128) -/

namespace Sys2Proof
namespace Proofs
namespace FieldArithmetic

open Sys2Proof.Machine CommandEncoding Multiplier GeneratorPowers BuiltField TableBuilder

/-! #### The completion of a field command (R115) -/

theorem fieldCommand_eq_bind (s : State) (value : Except CmdError Byte) :
    fieldCommand s value = requireField s >>= fun _ => value >>= fun v => .ok (.result v) := rfl

section Completion

variable {i : Instr} {s : State} {value : Except CmdError Byte}
  (hexec : exec i s = .next (complete (fieldCommand s value) s))
include hexec

/-- NoField comes before any operand is read (R115). -/
theorem exec_noField (hfv : s.fv = false) : exec i s = .next (raiseError .noField s) := by
  rw [hexec, fieldCommand_eq_bind, Laws.Commands.requireField_error hfv]
  rfl

theorem exec_error {e : CmdError} (hfv : s.fv = true) (hv : value = .error e) : exec i s = .next (raiseError e s) := by
  subst hv
  rw [hexec, fieldCommand_eq_bind, Laws.Commands.requireField_ok hfv]
  rfl

theorem exec_result {v : Byte} (hfv : s.fv = true) (hv : value = .ok v) :
    exec i s = .next { s with result := v, err := 0#4, busy := false, tick := s.tick + 1 } := by
  subst hv
  rw [hexec, fieldCommand_eq_bind, Laws.Commands.requireField_ok hfv]
  rfl

end Completion

theorem exec_add (s : State) : exec .add s = .next (complete (fieldCommand s (fadd s.opa s.opb)) s) := rfl

theorem exec_mul (s : State) : exec .mul s = .next (complete (fieldCommand s (fmul s s.opa s.opb)) s) := rfl

theorem exec_div (s : State) : exec .div s = .next (complete (fieldCommand s (fdiv s s.opa s.opb)) s) := rfl

theorem exec_inv (s : State) : exec .inv s = .next (complete (fieldCommand s (finv s s.opa)) s) := rfl

/-- SUB completes as ADD does (R119). -/
theorem exec_sub_eq_exec_add (s : State) : exec .sub s = exec .add s := rfl

theorem commandValue_sub_eq_add (s : State) (a b : Byte) : commandValue .sub s a b = commandValue .add s a b := rfl

/-! #### The range checks of the operands (R14) -/

/-- A function of two operands after their range checks: the form of fadd, fmul and fdiv (R15). -/
def checkedBinary (f : Byte → Byte → Except CmdError Byte) (a b : Word) : Except CmdError Byte := do
  let a ← checkByte a
  let b ← checkByte b
  f a b

theorem fadd_eq (a b : Word) : fadd a b = checkedBinary (fun a b => .ok (a ^^^ b)) a b := rfl

theorem fmul_eq (s : State) (a b : Word) : fmul s a b = checkedBinary (fun a b => .ok (mulBody s a b)) a b := rfl

theorem fdiv_eq (s : State) (a b : Word) : fdiv s a b = checkedBinary (divBody s) a b := rfl

section Checks

variable {f : Byte → Byte → Except CmdError Byte} {a b : Word}

theorem checkedBinary_eq_bind : checkedBinary f a b = checkByte a >>= fun a => checkByte b >>= fun b => f a b := rfl

theorem checkedBinary_ok (ha : a.toNat ≤ 255) (hb : b.toNat ≤ 255) :
    checkedBinary f a b = f (a.setWidth 8) (b.setWidth 8) := by
  rw [checkedBinary_eq_bind, Laws.Commands.checkByte_ok ha, Laws.Commands.checkByte_ok hb]
  rfl

theorem checkedBinary_outOfRange (h : 255 < a.toNat ∨ 255 < b.toNat) :
    checkedBinary f a b = .error .outOfRange := by
  rcases Laws.Commands.checkByte_cases a with ⟨ha, hok⟩ | ⟨-, herr⟩
  · rw [checkedBinary_eq_bind, hok, Laws.Commands.checkByte_error (by omega)]
    rfl
  · rw [checkedBinary_eq_bind, herr]
    rfl

end Checks

theorem finv_eq_bind (s : State) (a : Word) : finv s a = checkByte a >>= invBody s := rfl

theorem finv_ok (s : State) {a : Word} (ha : a.toNat ≤ 255) : finv s a = invBody s (a.setWidth 8) := by
  rw [finv_eq_bind, Laws.Commands.checkByte_ok ha]
  rfl

theorem finv_outOfRange (s : State) {a : Word} (ha : 255 < a.toNat) : finv s a = .error .outOfRange := by
  rw [finv_eq_bind, Laws.Commands.checkByte_error ha]
  rfl

theorem toNat_lowByte {a : Word} (ha : a.toNat ≤ 255) : (a.setWidth 8 : Byte).toNat = a.toNat := by
  rw [BitVec.toNat_setWidth, Nat.mod_eq_of_lt (by omega)]

theorem lowByte_ne_zero {a : Word} (ha : a.toNat ≤ 255) (hne : a ≠ 0#32) : (a.setWidth 8 : Byte) ≠ 0#8 := by
  intro hzero
  rw [← BitVec.toNat_inj, toNat_lowByte ha] at hzero
  exact hne (BitVec.eq_of_toNat_eq hzero)

/-! #### The table lookups (R121, R124, R127) -/

section Bodies

variable {s : State} {a b : Byte}

theorem mulBody_of_zero (h : a = 0#8 ∨ b = 0#8) : mulBody s a b = 0#8 := if_pos h

theorem mulBody_of_ne_zero (ha : a ≠ 0#8) (hb : b ≠ 0#8) :
    mulBody s a b = readExp s ((readLog s a.toNat).toNat + (readLog s b.toNat).toNat) := if_neg (not_or.2 ⟨ha, hb⟩)

theorem divBody_by_zero : divBody s a 0#8 = .error .divisionByZero := if_pos rfl

theorem zero_divBody (hb : b ≠ 0#8) : divBody s 0#8 b = .ok 0#8 := (if_neg hb).trans (if_pos rfl)

theorem divBody_of_ne_zero (ha : a ≠ 0#8) (hb : b ≠ 0#8) :
    divBody s a b = .ok (readExp s (divIndex (readLog s a.toNat) (readLog s b.toNat))) :=
  (if_neg hb).trans (if_neg ha)

theorem invBody_zero : invBody s 0#8 = .error .noInverseForZero := if_pos rfl

theorem invBody_of_ne_zero (ha : a ≠ 0#8) : invBody s a = .ok (readExp s (255 - (readLog s a.toNat).toNat)) := if_neg ha

end Bodies

theorem readExp_of_get {s : State} {i : Nat} {v : Byte} (h : Cells.get i s.mem.exp = some v) : readExp s i = v :=
  congrArg (Option.getD · _) h

theorem readLog_of_get {s : State} {a : Word} {v : Byte} (ha : a.toNat ≤ 255)
    (h : Cells.get a.toNat s.mem.log = some v) : readLog s (a.setWidth 8 : Byte).toNat = v := by
  rw [toNat_lowByte ha]
  exact congrArg (Option.getD · _) h

section Lookup

variable {s : State} {a b : Word} {la lb v : Byte} (ha : a.toNat ≤ 255) (hb : b.toNat ≤ 255)
  (ha0 : a ≠ 0#32) (hb0 : b ≠ 0#32) (hla : Cells.get a.toNat s.mem.log = some la)
  (hlb : Cells.get b.toNat s.mem.log = some lb)
include ha ha0 hla

theorem finv_lookup (hv : Cells.get (255 - la.toNat) s.mem.exp = some v) : finv s a = .ok v := by
  rw [finv_ok s ha, invBody_of_ne_zero (lowByte_ne_zero ha ha0), readLog_of_get ha hla, readExp_of_get hv]

include hb hb0 hlb

theorem fmul_lookup (hv : Cells.get (la.toNat + lb.toNat) s.mem.exp = some v) : fmul s a b = .ok v := by
  rw [fmul_eq, checkedBinary_ok ha hb, mulBody_of_ne_zero (lowByte_ne_zero ha ha0) (lowByte_ne_zero hb hb0),
    readLog_of_get ha hla, readLog_of_get hb hlb, readExp_of_get hv]

theorem fdiv_lookup (hv : Cells.get (divIndex la lb) s.mem.exp = some v) : fdiv s a b = .ok v := by
  rw [fdiv_eq, checkedBinary_ok ha hb, divBody_of_ne_zero (lowByte_ne_zero ha ha0) (lowByte_ne_zero hb hb0),
    readLog_of_get ha hla, readLog_of_get hb hlb, readExp_of_get hv]

end Lookup

theorem fmul_zero {s : State} {a b : Word} (ha : a.toNat ≤ 255) (hb : b.toNat ≤ 255) (h : a = 0#32 ∨ b = 0#32) :
    fmul s a b = .ok 0#8 := by
  have hzero : (a.setWidth 8 : Byte) = 0#8 ∨ (b.setWidth 8 : Byte) = 0#8 :=
    h.imp (fun h => by rw [h, BitVec.setWidth_zero]) (fun h => by rw [h, BitVec.setWidth_zero])
  rw [fmul_eq, checkedBinary_ok ha hb, mulBody_of_zero hzero]

theorem fdiv_by_zero {s : State} {a : Word} (ha : a.toNat ≤ 255) : fdiv s a 0#32 = .error .divisionByZero := by
  rw [fdiv_eq, checkedBinary_ok ha (by decide)]
  exact divBody_by_zero

theorem zero_fdiv {s : State} {b : Word} (hb : b.toNat ≤ 255) (hb0 : b ≠ 0#32) : fdiv s 0#32 b = .ok 0#8 := by
  rw [fdiv_eq, checkedBinary_ok (by decide) hb]
  exact zero_divBody (lowByte_ne_zero hb hb0)

theorem finv_zero (s : State) : finv s 0#32 = .error .noInverseForZero := by
  rw [finv_ok s (by decide)]
  exact invBody_zero

/-- R124 in the form without an integer: 255 is added before the subtraction when the difference is negative. -/
theorem divIndex_eq (la lb : Byte) :
    divIndex la lb = if la.toNat < lb.toNat then la.toNat + 255 - lb.toNat else la.toNat - lb.toNat := by
  have hindex : divIndex la lb = (if (la.toNat : Int) - lb.toNat < 0 then (la.toNat : Int) - lb.toNat + 255
    else (la.toNat : Int) - lb.toNat).toNat := rfl
  rw [hindex]
  split <;> split <;> omega

/-! #### Products, quotients and inverses of bytes in a built field -/

theorem commandValue_add {s : State} (hfv : s.fv = true) (a b : Byte) : commandValue .add s a b = some (a ^^^ b) :=
  commandValue_eq_toOption hfv (value := .ok (a ^^^ b)) (by rw [← Laws.Commands.fadd_zext32]; rfl)

/-- A built field has no zero divisors (R123). -/
theorem mulbytes_eq_zero {p : Half} {g : Byte} (h : isgen p g = true) {a b : Byte} (hab : mulbytes a b p = 0#8) :
    a = 0#8 ∨ b = 0#8 := by
  by_cases hb : b = 0#8
  · exact .inr hb
  · exact .inl (mulbytes_right_cancel h hb (hab.trans (zero_mulbytes b p).symm))

/-- Only 1 squares to 1: the generator's order 255 is odd (R127). -/
theorem eq_one_of_mulbytes_self {p : Half} {g : Byte} (h : isgen p g = true) {a : Byte} (ha : mulbytes a a p = 1#8) :
    a = 1#8 := by
  have hne : a ≠ 0#8 := by
    rintro rfl
    rw [mulbytes_zero] at ha
    exact absurd ha (by decide)
  obtain ⟨k, hk, rfl⟩ := exists_fieldPow h hne
  rw [← fieldPow_add, ← fieldPow_mod h] at ha
  have hdouble : (k + k) % 255 = 0 := fieldPow_injOn h (Nat.mod_lt _ (by decide)) (by decide) ha
  obtain rfl : k = 0 := by omega
  rfl

/-- LOG of a nonzero byte is at most 254 (R110). -/
theorem log_le {p : Half} {g : Byte} {exp log : Cells Byte} (h : PowerTables p g exp log) {a la : Byte} (ha : a ≠ 0#8)
    (hla : Cells.get a.toNat log = some la) : la.toNat ≤ 254 := by
  obtain ⟨k, hk, hk254, -⟩ := h.exp_log ha
  rwa [Option.some.inj (hla.symm.trans hk)]

section Built

variable {s : State} (hinv : Inv s) (hfv : s.fv = true)
include hinv hfv

theorem isgen_of_inv : isgen s.fpoly s.fgen = true := (hinv.field hfv).1

/-- R122. -/
theorem commandValue_mul_eq (a b : Byte) : commandValue .mul s a b = some (mulbytes a b s.fpoly) := by
  rw [commandValue_mul hfv, mulBody_eq_mulbytes (hinv.field hfv)]

/-- The quotient is the byte whose product with the divisor is the dividend (R125). -/
theorem commandValue_div_eq {a b q : Byte} (hb : b ≠ 0#8) (hq : mulbytes q b s.fpoly = a) :
    commandValue .div s a b = some q := by
  obtain ⟨r, hr, hrb⟩ := exists_divBody (hinv.field hfv) a hb
  rw [commandValue_div hfv, hr, mulbytes_right_cancel (isgen_of_inv hinv hfv) hb (hrb.trans hq.symm)]
  rfl

theorem exists_quotient (a : Byte) {b : Byte} (hb : b ≠ 0#8) : ∃ q, mulbytes q b s.fpoly = a := by
  obtain ⟨q, -, hq⟩ := exists_divBody (hinv.field hfv) a hb
  exact ⟨q, hq⟩

/-- The inverse is the byte whose product with the operand is 1 (R128). -/
theorem commandValue_inv_iff {a q : Byte} : commandValue .inv s a 0#8 = some q ↔ mulbytes q a s.fpoly = 1#8 := by
  rw [commandValue_inv hfv]
  by_cases ha : a = 0#8
  · rw [ha, invBody_zero, mulbytes_zero]
    exact iff_of_false (Option.some_ne_none q).symm (by decide)
  · obtain ⟨r, hr, hra⟩ := exists_invBody (hinv.field hfv) ha
    rw [hr]
    exact Option.some_inj.trans
      ⟨fun h => h ▸ hra, fun hq => mulbytes_right_cancel (isgen_of_inv hinv hfv) ha (hra.trans hq.symm)⟩

end Built

/-! #### The statements -/

/-- Settles O38: ADD's value is the exclusive or of its checked operands. -/
theorem addIsXor : Obligations.AddIsXor := by
  refine ⟨(decode_eq_command_iff _ .add).2 rfl, fun s hfv => exec_noField (exec_add s) hfv, fun s hfv hrange => ?_,
    fun s hfv ha hb => ?_, fun s hfv => commandValue_add hfv _ _⟩
  · exact exec_error (exec_add s) hfv (by rw [fadd_eq, checkedBinary_outOfRange hrange])
  · exact exec_result (exec_add s) hfv (by rw [fadd_eq, checkedBinary_ok ha hb])

/-- Settles O39: SUB completes as ADD does, in every state. -/
theorem subIsXorAsAdd : Obligations.SubIsXorAsAdd := by
  obtain ⟨-, hnoField, hrange, hxor, -⟩ := addIsXor
  refine ⟨(decode_eq_command_iff _ .sub).2 rfl, fun s => ?_, fun s => ?_, fun s => ?_, exec_sub_eq_exec_add,
    fun s hfv => (commandValue_sub_eq_add s _ _).trans (commandValue_add hfv _ _)⟩ <;> rw [exec_sub_eq_exec_add]
  · exact hnoField s
  · exact hrange s
  · exact hxor s

/-- Settles O40: the laws of exclusive or. -/
theorem addLaws : Obligations.AddLaws := by
  intro s a b c hfv
  simp only [commandValue_add hfv, BitVec.xor_self, BitVec.xor_zero, BitVec.xor_comm b a, true_and]
  exact ⟨_, _, rfl, rfl, congrArg some (BitVec.xor_assoc a b c), rfl⟩

/-- Settles O41: the lookup is the table's, and in a built field its value is the multiplier's. -/
theorem mulLooksUpLogarithms : Obligations.MulLooksUpLogarithms := by
  refine ⟨(decode_eq_command_iff _ .mul).2 rfl, fun s hfv => exec_noField (exec_mul s) hfv, fun s hfv hrange => ?_,
    fun s hfv ha hb hzero => exec_result (exec_mul s) hfv (fmul_zero ha hb hzero),
    fun s la lb v hfv ha hb ha0 hb0 hla hlb hv => exec_result (exec_mul s) hfv (fmul_lookup ha hb ha0 hb0 hla hlb hv),
    fun s b hinv hfv => ?_, fun s hinv hfv hp _ => ?_⟩
  · exact exec_error (exec_mul s) hfv (by rw [fmul_eq, checkedBinary_outOfRange hrange])
  · rw [commandValue_mul_eq hinv hfv, one_mulbytes]
  · rw [commandValue_mul_eq hinv hfv, commandValue_mul_eq hinv hfv, hp]
    decide

/-- Settles O42: adding logarithms multiplies. -/
theorem mulAgreesWithTheMultiplier : Obligations.MulAgreesWithTheMultiplier := fun s hinv hfv ha hb =>
  exec_result (exec_mul s) hfv (by rw [fmul_eq, checkedBinary_ok ha hb, mulBody_eq_mulbytes (hinv.field hfv)])

/-- Settles O44: MUL is the multiplier's product, whose laws are those of the quotient ring, and powers of the generator are
not 0. -/
theorem mulLaws : Obligations.MulLaws := by
  intro s a b c hinv hfv
  simp only [commandValue_mul_eq hinv hfv, commandValue_add hfv, mulbytes_one, mulbytes_zero, mulbytes_comm b a,
    Option.some_inj, true_and]
  exact ⟨⟨_, _, _, rfl, rfl, rfl, (mulbytes_assoc a b c s.fpoly).symm⟩,
    ⟨_, _, _, rfl, rfl, rfl, mulbytes_xor a b c s.fpoly⟩, mulbytes_eq_zero (isgen_of_inv hinv hfv)⟩

/-- Settles O45: the checks come in the order range, divisor, dividend; in a built field the quotient is the one byte whose
product with the divisor is the dividend. -/
theorem divSubtractsLogarithms : Obligations.DivSubtractsLogarithms := by
  refine ⟨(decode_eq_command_iff _ .div).2 rfl, fun s hfv => exec_noField (exec_div s) hfv, fun s hfv hrange => ?_,
    fun s hfv ha hb0 => ?_, fun s hfv ha0 hb hb0 => ?_, fun s la lb v hfv ha hb ha0 hb0 hla hlb hv => ?_,
    fun s a b hinv hfv hb => ⟨commandValue_div_eq hinv hfv hb (one_mulbytes b _),
      commandValue_div_eq hinv hfv (by decide) (mulbytes_one a _)⟩, fun s hinv hfv hp _ => ?_⟩
  · exact exec_error (exec_div s) hfv (by rw [fdiv_eq, checkedBinary_outOfRange hrange])
  · exact exec_error (exec_div s) hfv (by rw [hb0, fdiv_by_zero ha])
  · exact exec_result (exec_div s) hfv (by rw [ha0, zero_fdiv hb hb0])
  · rw [← divIndex_eq] at hv
    exact exec_result (exec_div s) hfv (fdiv_lookup ha hb ha0 hb0 hla hlb hv)
  · exact commandValue_div_eq hinv hfv (by decide) (by rw [hp]; decide)

/-- Settles O46: with ib the inverse of b, a·ib is the quotient, since (a·ib)·b = a. -/
theorem divLaws : Obligations.DivLaws := by
  intro s a b hinv hfv hb
  obtain ⟨ib, hib⟩ := exists_quotient hinv hfv 1#8 hb
  obtain ⟨q, hq⟩ := exists_quotient hinv hfv a hb
  have hproduct : mulbytes (mulbytes a ib s.fpoly) b s.fpoly = a := by rw [mulbytes_assoc, hib, mulbytes_one]
  have hinverse : commandValue .inv s b 0#8 = some ib := (commandValue_inv_iff hinv hfv).2 hib
  refine ⟨⟨ib, hinverse, ?_⟩, ⟨_, commandValue_mul_eq hinv hfv a b, commandValue_div_eq hinv hfv hb rfl⟩,
    ⟨q, commandValue_div_eq hinv hfv hb hq, ?_⟩, commandValue_div_eq hinv hfv (by decide) (mulbytes_one a _), ?_,
    commandValue_div_eq hinv hfv hb (one_mulbytes b _), fun la lb hla hlb ha => ?_⟩
  · rw [commandValue_mul_eq hinv hfv, commandValue_div_eq hinv hfv hb hproduct]
  · rw [commandValue_mul_eq hinv hfv, hq]
  · rw [hinverse, commandValue_div_eq hinv hfv hb hib]
  · have htables := powerTables_of_built (hinv.field hfv)
    have hla254 := log_le htables ha hla
    have hlb254 := log_le htables hb hlb
    obtain ⟨hindex, hmod⟩ := divIndex_spec hla254 hlb254
    omega

/-- A completion carries OPB through and reads it nowhere. -/
theorem complete_with_opb (out : Except CmdError Writes) (s : State) (b : Word) :
    complete out { s with opb := b } = { complete out s with opb := b } := by
  rcases out with _ | _ | _ <;> rfl

/-- Settles O47: INV's value depends on OPA and the tables; in a built field it is the one byte whose product with the
operand is 1. -/
theorem invLooksUpTheInverse : Obligations.InvLooksUpTheInverse := by
  refine ⟨(decode_eq_command_iff _ .inv).2 rfl, fun s hfv => exec_noField (exec_inv s) hfv,
    fun s hfv ha => exec_error (exec_inv s) hfv (finv_outOfRange s ha), fun s hfv ha0 => ?_,
    fun s la v hfv ha ha0 hla hv => exec_result (exec_inv s) hfv (finv_lookup ha ha0 hla hv),
    fun s b => ⟨_, exec_inv s, ?_⟩, fun s a hinv hfv => ?_, fun s hinv hfv hp _ => ?_⟩
  · exact exec_error (exec_inv s) hfv (by rw [ha0, finv_zero])
  · rw [exec_inv, complete_with_opb _ s b]
    rfl
  · rw [commandValue_inv_iff hinv hfv]
    exact ⟨eq_one_of_mulbytes_self (isgen_of_inv hinv hfv), fun ha => by rw [ha, mulbytes_one]⟩
  · exact (commandValue_inv_iff hinv hfv).2 (by rw [hp]; decide)

/-- Settles O48: the product of the inverses is the inverse of the product. -/
theorem invLaws : Obligations.InvLaws := by
  intro s a b hinv hfv ha hb
  obtain ⟨ia, hia⟩ := exists_quotient hinv hfv 1#8 ha
  obtain ⟨ib, hib⟩ := exists_quotient hinv hfv 1#8 hb
  have hright : mulbytes a ia s.fpoly = 1#8 := by rw [mulbytes_comm, hia]
  have hproduct : mulbytes (mulbytes ia ib s.fpoly) (mulbytes a b s.fpoly) s.fpoly = 1#8 := by
    rw [mulbytes_comm a b, mulbytes_assoc, ← mulbytes_assoc ib, hib, one_mulbytes, hia]
  refine ⟨ia, ib, _, (commandValue_inv_iff hinv hfv).2 hia, (commandValue_inv_iff hinv hfv).2 hib,
    commandValue_mul_eq hinv hfv a b, ?_, (commandValue_inv_iff hinv hfv).2 hright, ?_⟩
  · rw [commandValue_mul_eq hinv hfv, hright]
  · rw [commandValue_mul_eq hinv hfv, (commandValue_inv_iff hinv hfv).2 hproduct]

end FieldArithmetic
end Proofs
end Sys2Proof

/-! ### The residue field of a built field, and polynomials with byte coefficients (spec/45_interpolator.md R147) -/

namespace Sys2Proof
namespace Proofs
namespace ResidueField

open Sys2Proof.Machine Multiplier GeneratorPowers FieldArithmetic Polynomial

/-! #### Every residue is a byte's -/

theorem residue_xor_eq_sub (r a b : Byte) : residue r (a ^^^ b) = residue r a - residue r b := by
  rw [residue_xor, sub_eq_add_neg, neg_eq_of_add_eq_zero_left (residue_add_self r b)]

theorem residue_two (r : Byte) : residue r 2#8 = AdjoinRoot.root (modulus r) := by
  have hshift : residue r 2#8 = AdjoinRoot.root (modulus r) * residue r 1#8 := residue_shiftReduce r 1#8
  rw [hshift, residue_one, mul_one]

/-- X is the residue of 2, so every polynomial's residue is a sum of powers of it. -/
theorem residue_surjective (p : Half) : Function.Surjective (residue (p.setWidth 8)) := by
  intro z
  induction z using AdjoinRoot.induction_on with
  | ih f =>
    induction f using Polynomial.induction_on' with
    | add f g hf hg =>
      obtain ⟨a, ha⟩ := hf
      obtain ⟨b, hb⟩ := hg
      exact ⟨a ^^^ b, by rw [residue_xor, ha, hb, map_add]⟩
    | monomial k c =>
      obtain rfl | rfl : c = 0 ∨ c = 1 := by decide +revert
      · exact ⟨0#8, by simp⟩
      · exact ⟨fieldPow p 2#8 k, by
          rw [residue_fieldPow, residue_two, monomial_one_right_eq_X_pow, map_pow, AdjoinRoot.mk_X]⟩

/-- Under a generator X^8 + P is irreducible: the residues are the bytes, which have no zero divisors (R101). -/
theorem irreducible_modulus {p : Half} {g : Byte} (h : isgen p g = true) : Irreducible (modulus (p.setWidth 8)) := by
  have hnontrivial : Nontrivial (AdjoinRoot (modulus (p.setWidth 8))) :=
    ⟨_, _, (residue_injective (p.setWidth 8)).ne (show (0#8 : Byte) ≠ 1#8 by decide)⟩
  have hzero : NoZeroDivisors (AdjoinRoot (modulus (p.setWidth 8))) := ⟨fun {y z} hyz => by
    obtain ⟨a, rfl⟩ := residue_surjective p y
    obtain ⟨b, rfl⟩ := residue_surjective p z
    rw [← residue_mulbytes, ← residue_zero] at hyz
    exact (mulbytes_eq_zero h (residue_injective _ hyz)).imp (fun ha => by rw [ha, residue_zero])
      (fun hb => by rw [hb, residue_zero])⟩
  have hdomain : IsDomain ((ZMod 2)[X] ⧸ Ideal.span {modulus (p.setWidth 8)}) :=
    NoZeroDivisors.to_isDomain (AdjoinRoot (modulus (p.setWidth 8)))
  have hprime := (Ideal.Quotient.isDomain_iff_prime _).1 hdomain
  exact ((Ideal.span_singleton_prime (modulus_monic _).ne_zero).1 hprime).irreducible

/-! #### Polynomials with byte coefficients -/

/-- The polynomial over the residues with the given coefficients, from the constant term up. -/
noncomputable def coeffPoly (r : Byte) : List Byte → (AdjoinRoot (modulus r))[X]
  | [] => 0
  | c :: cs => C (residue r c) + X * coeffPoly r cs

@[simp] theorem coeffPoly_nil (r : Byte) : coeffPoly r [] = 0 := rfl

@[simp] theorem coeffPoly_cons (r c : Byte) (cs : List Byte) :
    coeffPoly r (c :: cs) = C (residue r c) + X * coeffPoly r cs := rfl

@[simp] theorem polyEval_nil (p : Half) (x : Byte) : polyEval p x [] = 0#8 := rfl

@[simp] theorem polyEval_cons (p : Half) (x c : Byte) (cs : List Byte) :
    polyEval p x (c :: cs) = c ^^^ mulbytes (polyEval p x cs) x p := rfl

theorem coeff_coeffPoly (r : Byte) (cs : List Byte) (i : Nat) :
    (coeffPoly r cs).coeff i = residue r (cs.getD i 0#8) := by
  induction cs generalizing i with
  | nil => simp
  | cons c cs ih => cases i <;> simp [ih, coeff_C_succ]

/-- Horner's method evaluates the polynomial. -/
theorem eval_coeffPoly (p : Half) (x : Byte) (cs : List Byte) :
    (coeffPoly (p.setWidth 8) cs).eval (residue (p.setWidth 8) x) = residue (p.setWidth 8) (polyEval p x cs) := by
  induction cs with
  | nil => simp
  | cons c cs ih =>
    rw [coeffPoly_cons, eval_add, eval_C, eval_mul, eval_X, ih, polyEval_cons, residue_xor, residue_mulbytes, mul_comm]

theorem degree_coeffPoly_lt (r : Byte) (cs : List Byte) : (coeffPoly r cs).degree < cs.length := by
  refine (degree_lt_iff_coeff_zero _ _).2 fun i hi => ?_
  rw [coeff_coeffPoly, List.getD_eq_default _ _ hi, residue_zero]

theorem coeffPoly_injective {r : Byte} {cs ds : List Byte} (hlength : cs.length = ds.length)
    (heq : coeffPoly r cs = coeffPoly r ds) : cs = ds := by
  refine List.ext_getElem hlength fun i hc hd => residue_injective r ?_
  rw [← List.getD_eq_getElem _ 0#8 hc, ← List.getD_eq_getElem _ 0#8 hd, ← coeff_coeffPoly, heq, coeff_coeffPoly]

/-- Every polynomial of degree below n is one of n byte coefficients. -/
theorem exists_coeffPoly (p : Half) {n : Nat} {f : (AdjoinRoot (modulus (p.setWidth 8)))[X]} (hf : f.degree < n) :
    ∃ cs : List Byte, cs.length = n ∧ coeffPoly (p.setWidth 8) cs = f := by
  choose b hb using fun i => residue_surjective p (f.coeff i)
  refine ⟨(List.range n).map b, by simp, ext fun i => ?_⟩
  rw [coeff_coeffPoly]
  rcases Nat.lt_or_ge i n with hi | hi
  · simp [hi, hb]
  · simp [hi, (degree_lt_iff_coeff_zero _ _).1 hf i hi]

end ResidueField
end Proofs
end Sys2Proof

/-! ### INTERP: its checks, its loops and the interpolant (spec/45_interpolator.md R142 to R149) -/

namespace Sys2Proof
namespace Proofs
namespace Interpolator

open Sys2Proof.Machine CommandEncoding Multiplier BuiltField TableBuilder FieldArithmetic ResidueField Polynomial

/-! #### The count checks (R143) -/

theorem exec_interp (s : State) : exec .interp s = .next (complete (fieldCommand s (interpValue s)) s) := rfl

theorem interpValue_emptyInput {s : State} (hn : s.nsamp.toNat = 0) : interpValue s = .error .emptyInput := if_pos hn

theorem interpValue_tooMany {s : State} (hn : 256 < s.nsamp.toNat) : interpValue s = .error .outOfRange :=
  (if_neg (Nat.ne_zero_of_lt hn)).trans (if_pos hn)

theorem interpValue_eq_interpSum {s : State} (hpos : 1 ≤ s.nsamp.toNat) (hn : s.nsamp.toNat ≤ 256) :
    interpValue s = interpSum s s.nsamp.toNat :=
  (if_neg (Nat.ne_zero_of_lt hpos)).trans (if_neg (Nat.not_lt.2 hn))

/-- Settles O50: NoField comes before the value, whose count checks come before the loops. -/
theorem interpChecksItsCount : Obligations.InterpChecksItsCount :=
  ⟨(decode_eq_command_iff _ .interp).2 rfl, fun s hfv => exec_noField (exec_interp s) hfv,
    fun s hfv hn => exec_error (exec_interp s) hfv (interpValue_emptyInput (congrArg BitVec.toNat hn)),
    fun s hfv hn => exec_error (exec_interp s) hfv (interpValue_tooMany hn)⟩

/-! #### One turn of each loop on written cells (R142) -/

section Turns

variable {s : State}

theorem readSx_of_get {i : Nat} {v : Word} (h : Cells.get i s.mem.sx = some v) (position : Nat) :
    readSx s i position = v :=
  congrArg (Option.getD · _) h

theorem readSy_of_get {i : Nat} {v : Word} (h : Cells.get i s.mem.sy = some v) (position : Nat) :
    readSy s i position = v :=
  congrArg (Option.getD · _) h

theorem interpTerm_eq_bind (s : State) (i j : Nat) (basis : Byte) :
    interpTerm s i j basis = fadd s.opa (readSx s j (interpRead i j 0)) >>= fun num =>
      fadd (readSx s i (interpRead i j 1)) (readSx s j (interpRead i j 2)) >>= fun den =>
      fdiv s (zext32 num) (zext32 den) >>= fun t => fmul s (zext32 basis) (zext32 t) := rfl

theorem interpAdd_eq_bind (s : State) (n i : Nat) (result : Byte) :
    interpAdd s n i result = interpBasis s n i >>= fun basis =>
      fmul s (readSy s i (interpRead i i 3)) (zext32 basis) >>= fun t => fadd (zext32 result) (zext32 t) := rfl

theorem interpTerm_eq {i j : Nat} {x xi xj : Byte} (hx : s.opa = zext32 x) (hi : Cells.get i s.mem.sx = some (zext32 xi))
    (hj : Cells.get j s.mem.sx = some (zext32 xj)) (basis : Byte) :
    interpTerm s i j basis = divBody s (x ^^^ xj) (xi ^^^ xj) >>= fun t => .ok (mulBody s basis t) := by
  simp only [interpTerm_eq_bind, hx, readSx_of_get hi, readSx_of_get hj, Laws.Commands.fadd_zext32,
    Laws.Commands.fdiv_zext32, Laws.Commands.fmul_zext32, Laws.Commands.bind_ok]

theorem interpAdd_outOfRange {n i : Nat} {basis : Byte} {v : Word} (hbasis : interpBasis s n i = .ok basis)
    (hy : Cells.get i s.mem.sy = some v) (hv : 255 < v.toNat) (result : Byte) :
    interpAdd s n i result = .error .outOfRange := by
  simp only [interpAdd_eq_bind, hbasis, readSy_of_get hy, fmul_eq, checkedBinary_outOfRange (.inl hv), Laws.Commands.bind_ok,
    Laws.Commands.bind_error]

theorem interpAdd_eq (h : FieldBuilt s) {n i : Nat} {basis y : Byte} (hbasis : interpBasis s n i = .ok basis)
    (hy : Cells.get i s.mem.sy = some (zext32 y)) (result : Byte) :
    interpAdd s n i result = .ok (result ^^^ mulbytes y basis s.fpoly) := by
  simp only [interpAdd_eq_bind, hbasis, readSy_of_get hy, Laws.Commands.fmul_zext32, Laws.Commands.fadd_zext32,
    mulBody_eq_mulbytes h, Laws.Commands.bind_ok]

end Turns

/-! #### One sample (R145) -/

theorem interpBasis_one (s : State) : interpBasis s 1 0 = .ok 1#8 := rfl

theorem interpSum_one (s : State) : interpSum s 1 = interpAdd s 1 0 0#8 := bind_pure _

/-- Settles O51: the basis value of the only sample is the empty product 1. -/
theorem interpOfOneSample : Obligations.InterpOfOneSample := by
  intro s v hinv hfv hn hy
  have hcount : s.nsamp.toNat = 1 := congrArg BitVec.toNat hn
  have hvalue : interpValue s = interpAdd s 1 0 0#8 := by
    rw [interpValue_eq_interpSum (by omega) (by omega), hcount, interpSum_one]
  refine ⟨fun hv => exec_result (exec_interp s) hfv ?_, fun hv => exec_error (e := .outOfRange) (exec_interp s) hfv ?_⟩
  · rw [← Laws.Commands.setWidth_zext32 (n := 8) (w := v) (by omega)] at hy
    rw [hvalue, interpAdd_eq (hinv.field hfv) (interpBasis_one s) hy, mulbytes_one, BitVec.zero_xor]
  · rw [hvalue, interpAdd_outOfRange (interpBasis_one s) hy hv]

/-! #### The loops compute Lagrange's sum (R147) -/

/-- An invariant of the turns before n that every turn keeps, without an error, holds after n turns. -/
theorem foldlM_range_invariant {α ε : Type} {f : α → Nat → Except ε α} {P : Nat → α → Prop} {a : α} {n : Nat}
    (hstart : P 0 a) (hturn : ∀ m < n, ∀ b, P m b → ∃ c, f b m = .ok c ∧ P (m + 1) c) :
    ∃ c, (List.range n).foldlM f a = .ok c ∧ P n c := by
  induction n with
  | zero => exact ⟨a, rfl, hstart⟩
  | succ n ih =>
    obtain ⟨b, hb, hPb⟩ := ih fun m hm => hturn m (hm.trans n.lt_succ_self)
    obtain ⟨c, hc, hPc⟩ := hturn n n.lt_succ_self b hPb
    refine ⟨c, ?_, hPc⟩
    rw [List.range_succ, List.foldlM_append, hb, Laws.Commands.bind_ok, List.foldlM_cons, hc, Laws.Commands.bind_ok]
    rfl

/-- The first n samples hold the bytes X i and Y i. -/
def SamplesAre (s : State) (n : Nat) (X Y : Nat → Byte) : Prop :=
  ∀ i < n, Cells.get i s.mem.sx = some (zext32 (X i)) ∧ Cells.get i s.mem.sy = some (zext32 (Y i))

theorem zext32_byte_injective : Function.Injective (zext32 : Byte → Word) := fun a b h => by
  rw [← Laws.Commands.zext32_setWidth (by decide) a, h, Laws.Commands.zext32_setWidth (by decide)]

theorem basis_eq_prod {F : Type} [Field F] (s : Finset Nat) (v : Nat → F) (i : Nat) :
    Lagrange.basis s v i = ∏ j ∈ s.erase i, Lagrange.basisDivisor (v i) (v j) := rfl

theorem basis_range_succ_self {F : Type} [Field F] (v : Nat → F) (i : Nat) :
    Lagrange.basis (Finset.range (i + 1)) v i = Lagrange.basis (Finset.range i) v i := by
  rw [basis_eq_prod, basis_eq_prod, Finset.range_add_one, Finset.erase_insert_eq_erase]

theorem basis_range_succ_of_ne {F : Type} [Field F] (v : Nat → F) {i j : Nat} (hne : j ≠ i) :
    Lagrange.basis (Finset.range (j + 1)) v i =
      Lagrange.basis (Finset.range j) v i * Lagrange.basisDivisor (v i) (v j) := by
  have herase : (Finset.range (j + 1)).erase i = insert j ((Finset.range j).erase i) := by
    rw [Finset.range_add_one, Finset.erase_insert_of_ne hne]
  rw [basis_eq_prod, basis_eq_prod, herase, Finset.prod_insert (by simp), mul_comm]

theorem eval_basisDivisor {F : Type} [Field F] (x a b : F) :
    (Lagrange.basisDivisor a b).eval x = (x - b) / (a - b) := by
  rw [Lagrange.basisDivisor, eval_mul, eval_C, eval_sub, eval_X, eval_C, div_eq_inv_mul]

/-- The polynomial with coefficients d takes the y of each of the first n samples at its x. -/
def TakesSamples (s : State) (n : Nat) (d : List Byte) : Prop :=
  ∀ (i : Nat) (x y : Byte), i < n → Cells.get i s.mem.sx = some (zext32 x) → Cells.get i s.mem.sy = some (zext32 y) →
    polyEval s.fpoly x d = y

section Interpolant

variable {s : State} {n : Nat} {X Y : Nat → Byte}

theorem exists_samplesAre (hrange : SamplesInRange s n) : ∃ X Y, SamplesAre s n X Y := by
  choose! X hX using fun i hi => (hrange i hi).1
  choose! Y hY using fun i hi => (hrange i hi).2
  exact ⟨X, Y, fun i hi => ⟨hX i hi, hY i hi⟩⟩

theorem samples_ne (hsamples : SamplesAre s n X Y) (hdistinct : SamplesDistinct s n) {i j : Nat} (hi : i < n) (hj : j < n)
    (hne : i ≠ j) : X i ≠ X j := by
  intro heq
  have hcells : Cells.get i s.mem.sx = Cells.get j s.mem.sx := by rw [(hsamples i hi).1, (hsamples j hj).1, heq]
  rcases Nat.lt_or_gt_of_ne hne with hlt | hlt
  · exact hdistinct i j hlt hj hcells
  · exact hdistinct j i hlt hi hcells.symm

/-- The sample abscissas and ordinates as residues. -/
noncomputable def residues (p : Half) (X : Nat → Byte) (i : Nat) : AdjoinRoot (modulus (p.setWidth 8)) :=
  residue (p.setWidth 8) (X i)

theorem residues_injOn (p : Half) (hsamples : SamplesAre s n X Y) (hdistinct : SamplesDistinct s n) :
    Set.InjOn (residues p X) (Finset.range n) := by
  intro i hi j hj heq
  by_contra hne
  exact samples_ne hsamples hdistinct (by simpa using hi) (by simpa using hj) hne (residue_injective _ heq)

theorem takesSamples_iff_forall (hsamples : SamplesAre s n X Y) {d : List Byte} :
    TakesSamples s n d ↔ ∀ i < n, polyEval s.fpoly (X i) d = Y i := by
  constructor
  · exact fun h i hi => h i (X i) (Y i) hi (hsamples i hi).1 (hsamples i hi).2
  · intro h i x y hi hx hy
    obtain rfl : X i = x := zext32_byte_injective (Option.some.inj ((hsamples i hi).1.symm.trans hx))
    exact (h i hi).trans (zext32_byte_injective (Option.some.inj ((hsamples i hi).2.symm.trans hy)))

variable [Fact (Irreducible (modulus (s.fpoly.setWidth 8)))]

/-- Of the lists of n coefficients, the interpolant's takes the samples and no other (R147). -/
theorem takesSamples_iff (hsamples : SamplesAre s n X Y) (hdistinct : SamplesDistinct s n) {d : List Byte}
    (hlength : d.length = n) : TakesSamples s n d ↔ coeffPoly (s.fpoly.setWidth 8) d =
      Lagrange.interpolate (Finset.range n) (residues s.fpoly X) (residues s.fpoly Y) := by
  have hdegree : (coeffPoly (s.fpoly.setWidth 8) d).degree < (Finset.range n).card := by
    rw [Finset.card_range, ← hlength]
    exact degree_coeffPoly_lt _ d
  have heval (i : Nat) : (coeffPoly (s.fpoly.setWidth 8) d).eval (residues s.fpoly X i) = residues s.fpoly Y i ↔
      polyEval s.fpoly (X i) d = Y i := by
    rw [← (residue_injective (s.fpoly.setWidth 8)).eq_iff, ← eval_coeffPoly]
    rfl
  refine Iff.trans ?_ (Lagrange.eq_interpolate_iff (residues s.fpoly Y) (residues_injOn _ hsamples hdistinct))
  simp only [takesSamples_iff_forall hsamples, ← heval, Finset.mem_range]
  exact (and_iff_right hdegree).symm

variable (h : FieldBuilt s) (hsamples : SamplesAre s n X Y) (hdistinct : SamplesDistinct s n) {x : Byte}
  (hx : s.opa = zext32 x)
include h hsamples hdistinct hx

/-- A turn of the inner loop multiplies by (x - xj)/(xi - xj), the value at x of Lagrange's factor. -/
theorem interpTerm_ok {i j : Nat} (hi : i < n) (hj : j < n) (hne : i ≠ j) (basis : Byte) :
    ∃ v, interpTerm s i j basis = .ok v ∧ residue (s.fpoly.setWidth 8) v = residue (s.fpoly.setWidth 8) basis *
      (Lagrange.basisDivisor (residues s.fpoly X i) (residues s.fpoly X j)).eval (residue (s.fpoly.setWidth 8) x) := by
  have hX := samples_ne hsamples hdistinct hi hj hne
  obtain ⟨q, hq, hqden⟩ := exists_divBody h (x ^^^ X j) (mt BitVec.xor_eq_zero_iff.1 hX)
  refine ⟨mulBody s basis q, ?_, ?_⟩
  · rw [interpTerm_eq hx (hsamples i hi).1 (hsamples j hj).1, hq, Laws.Commands.bind_ok]
  · have hden : residues s.fpoly X i - residues s.fpoly X j ≠ 0 := sub_ne_zero.2 ((residue_injective _).ne hX)
    have hquot := congrArg (residue (s.fpoly.setWidth 8)) hqden
    rw [residue_mulbytes, residue_xor_eq_sub, residue_xor_eq_sub] at hquot
    rw [mulBody_eq_mulbytes h, residue_mulbytes, eval_basisDivisor, (eq_div_iff hden).2 hquot]
    rfl

/-- The inner loop computes the value at x of Lagrange's basis polynomial of sample i. -/
theorem interpBasis_ok {i : Nat} (hi : i < n) :
    ∃ v, interpBasis s n i = .ok v ∧ residue (s.fpoly.setWidth 8) v =
      (Lagrange.basis (Finset.range n) (residues s.fpoly X) i).eval (residue (s.fpoly.setWidth 8) x) := by
  refine foldlM_range_invariant (P := fun m v => residue (s.fpoly.setWidth 8) v =
    (Lagrange.basis (Finset.range m) (residues s.fpoly X) i).eval (residue (s.fpoly.setWidth 8) x))
    (by simp) fun j hj basis hbasis => ?_
  by_cases hji : j = i
  · subst hji
    exact ⟨basis, if_pos rfl, by rw [hbasis, basis_range_succ_self]⟩
  · obtain ⟨v, hv, hres⟩ := interpTerm_ok h hsamples hdistinct hx hi hj (Ne.symm hji) basis
    exact ⟨v, (if_neg hji).trans hv, by rw [hres, hbasis, basis_range_succ_of_ne _ hji, eval_mul]⟩

/-- The outer loop computes the value at x of the interpolant. -/
theorem interpSum_ok :
    ∃ v, interpSum s n = .ok v ∧ residue (s.fpoly.setWidth 8) v =
      (Lagrange.interpolate (Finset.range n) (residues s.fpoly X) (residues s.fpoly Y)).eval
        (residue (s.fpoly.setWidth 8) x) := by
  simp only [Lagrange.interpolate_apply, eval_finsetSum, eval_mul, eval_C]
  refine foldlM_range_invariant (P := fun m v => residue (s.fpoly.setWidth 8) v = ∑ i ∈ Finset.range m,
    residues s.fpoly Y i * (Lagrange.basis (Finset.range n) (residues s.fpoly X) i).eval
      (residue (s.fpoly.setWidth 8) x)) (by simp) fun i hi result hresult => ?_
  obtain ⟨basis, hbasis, hres⟩ := interpBasis_ok h hsamples hdistinct hx hi
  refine ⟨_, interpAdd_eq h hbasis (hsamples i hi).2 result, ?_⟩
  rw [residue_xor, residue_mulbytes, hres, hresult, Finset.sum_range_succ]
  rfl

end Interpolant

/-! #### The statements -/

/-- Settles O54: the interpolant takes at each sample's abscissa that sample's ordinate. -/
theorem interpAtASampleReturnsItsY : Obligations.InterpAtASampleReturnsItsY := by
  intro s k y hinv hfv hn hk hrange hdistinct hxk hyk
  have h := hinv.field hfv
  obtain ⟨X, Y, hsamples⟩ := exists_samplesAre hrange
  have : Fact (Irreducible (modulus (s.fpoly.setWidth 8))) := ⟨irreducible_modulus h.1⟩
  have hx : s.opa = zext32 (X k) := Option.some.inj (hxk.symm.trans (hsamples k hk).1)
  obtain rfl : Y k = y := zext32_byte_injective (Option.some.inj ((hsamples k hk).2.symm.trans hyk))
  obtain ⟨v, hv, hres⟩ := interpSum_ok h hsamples hdistinct hx
  have hnode : residue (s.fpoly.setWidth 8) v = residues s.fpoly Y k :=
    hres.trans (Lagrange.eval_interpolate_at_node _ (residues_injOn _ hsamples hdistinct) (Finset.mem_range.2 hk))
  rw [residue_injective _ hnode] at hv
  exact exec_result (exec_interp s) hfv ((interpValue_eq_interpSum (by omega) hn).trans hv)

/-- Settles O55: INTERP computes Lagrange's interpolant over the residue field, whose coefficients are the residues of n
bytes; Horner's method evaluates it. -/
theorem interpEvaluatesTheInterpolant : Obligations.InterpEvaluatesTheInterpolant := by
  intro s hinv hfv hpos hn hopa hrange hdistinct
  have h := hinv.field hfv
  obtain ⟨X, Y, hsamples⟩ := exists_samplesAre hrange
  have : Fact (Irreducible (modulus (s.fpoly.setWidth 8))) := ⟨irreducible_modulus h.1⟩
  have hx : s.opa = zext32 (s.opa.setWidth 8 : Byte) := (Laws.Commands.setWidth_zext32 (n := 8) (by omega)).symm
  obtain ⟨v, hv, hres⟩ := interpSum_ok h hsamples hdistinct hx
  obtain ⟨c, hlength, hc⟩ := exists_coeffPoly s.fpoly
    ((Lagrange.degree_interpolate_lt (residues s.fpoly Y) (residues_injOn _ hsamples hdistinct)).trans_eq
      (congrArg _ (Finset.card_range _)))
  have hvalue : v = polyEval s.fpoly (s.opa.setWidth 8) c :=
    residue_injective _ (by rw [hres, ← hc, eval_coeffPoly])
  refine ⟨c, hlength, (takesSamples_iff hsamples hdistinct hlength).2 hc, fun d hd htakes => ?_,
    exec_result (exec_interp s) hfv ?_⟩
  · exact coeffPoly_injective (hd.trans hlength.symm)
      (((takesSamples_iff hsamples hdistinct hd).1 htakes).trans hc.symm)
  · rw [interpValue_eq_interpSum hpos hn, hv, hvalue]

end Interpolator
end Proofs
end Sys2Proof

/-! ### Exceptions: what a completion with ERR ≠ 0 leaves unchanged (spec/60_exceptions.md R158, R159) -/

namespace Sys2Proof
namespace Proofs
namespace Exceptions

open Sys2Proof.Machine

/-- Settles O26: RESULT's write and BUILD's commit both end with ERR = 0, so a completion with ERR ≠ 0 took an error. -/
theorem errorChangesOnlyErrAndBusy : Obligations.ErrorChangesOnlyErrAndBusy := by
  intro i s t h herr
  rcases Laws.Commands.exec_cases i s with ⟨-, v, hresult⟩ | ⟨-, -, hbuild⟩ | ⟨e, herror⟩
  · cases hresult.symm.trans h
    exact absurd rfl herr
  · cases hbuild.symm.trans h
    exact absurd rfl herr
  · cases herror.symm.trans h
    rfl

end Exceptions
end Proofs
end Sys2Proof

/-! ### The reset input (spec/70_reset_and_hazards.md R177, R178) -/

namespace Sys2Proof
namespace Proofs
namespace ResetInput

open Sys2Proof.Machine

/-- The step of a reset input that is next: no completion comes before it, so a pending command is abandoned. -/
theorem step_reset {s : State} {engineFirst : Bool} {rest : List PortEntry}
    (hp : s.port = { event := .reset, engineFirst := engineFirst } :: rest)
    (h : s.busy = false ∨ engineFirst = false) : step s = .next (resetBlock { s with port := rest }) :=
  Laws.Bus.step_event hp h

/-- Settles O2: the step is `resetBlock`, which keeps of the old state only what lies outside the block; every field of the
block is the reset state's, whose values O1 gives. -/
theorem resetInputRestoresEverything : Obligations.ResetInputRestoresEverything :=
  fun _ _ _ hp h => ⟨_, step_reset hp h, StatusFlags.resetHoldsTheSpecValues⟩

end ResetInput
end Proofs
end Sys2Proof

/-! ### The invariant: reset has it and every step keeps it (spec/10_state.md R29, R41, R42; spec/42_table_builder.md R106,
R109; spec/60_exceptions.md R155) -/

namespace Sys2Proof
namespace Proofs
namespace Invariant

-- One proof of this part at a time: beside the tests, whose evaluations hold a thread each, the check's memory has no room
-- for the threads of several.
set_option deprecated.oldSectionVars true

open Sys2Proof.Machine GeneratorPowers BuiltField TableBuilder HostAccess FieldContext

/-- Settles O3: the arrays of reset are empty, ERR is 0, and FV = 0. -/
theorem resetSatisfiesTheInvariant : Obligations.ResetSatisfiesTheInvariant where
  memory := Laws.Memory.wf_reset
  code := Nat.zero_le 7
  empty := fun _ => ⟨rfl, rfl⟩
  field := fun hfv => absurd hfv Bool.false_ne_true

/-! #### A fill over older tables is the fill of empty ones (R107, R109) -/

theorem mem_of_get {α : Type} {i : Nat} {v : α} {cs : Cells α} (h : Cells.get i cs = some v) : (i, v) ∈ cs := by
  induction cs with
  | nil => cases h
  | cons c cs ih =>
    rw [Laws.Cells.get_cons] at h
    split at h
    next hi =>
      cases h
      exact hi ▸ List.mem_cons_self
    next => exact List.mem_cons_of_mem c (ih h)

/-- No cell at or above the depth is specified. -/
theorem get_eq_none_of_depth_le {α : Type} {depth i : Nat} {cs : Cells α} (hwf : Cells.wf depth cs = true)
    (hi : depth ≤ i) : Cells.get i cs = none := by
  obtain ⟨-, hlt⟩ := (Laws.Cells.wf_iff depth cs).1 hwf
  exact Option.eq_none_iff_forall_ne_some.2 fun v hv => absurd (hlt _ (mem_of_get hv)) (Nat.not_lt.2 hi)

/-- Arrays in canonical form with the same cells below the depth are the same. -/
theorem cells_ext {α : Type} {depth : Nat} {as bs : Cells α} (ha : Cells.wf depth as = true)
    (hb : Cells.wf depth bs = true) (h : ∀ i < depth, Cells.get i as = Cells.get i bs) : as = bs := by
  refine Laws.Cells.ext_get ((Laws.Cells.wf_iff _ _).1 ha).1 ((Laws.Cells.wf_iff _ _).1 hb).1 fun i => ?_
  rcases Nat.lt_or_ge i depth with hi | hi
  · exact h i hi
  · rw [get_eq_none_of_depth_le ha hi, get_eq_none_of_depth_le hb hi]

/-- EXP[511] is the one entry of EXP that a fill leaves. -/
theorem fillExp_eq_of_gap (p : Half) (g : Byte) {exp : Cells Byte} (hwf : Cells.wf Config.expDepth exp = true)
    (hgap : Cells.get 511 exp = none) : fillExp (powers p g) exp = fillExp (powers p g) [] := by
  have hlength := Laws.Memory.length_powers p g
  refine cells_ext (Laws.Memory.wf_fillExp hlength hwf) (Laws.Memory.wf_fillExp hlength rfl) fun i hi => ?_
  rcases (Nat.le_of_lt_succ hi : i ≤ 511).lt_or_eq with hlow | rfl
  · rw [get_fillExp p g exp (Nat.le_of_lt_succ hlow), get_fillExp p g [] (Nat.le_of_lt_succ hlow)]
  · rw [get_fillExp_above p g exp le_rfl, get_fillExp_above p g [] le_rfl, hgap, Laws.Cells.get_nil]

/-- LOG[0] is the one entry of LOG that the fill of a generator leaves. -/
theorem fillLog_eq_of_gap {p : Half} {g : Byte} (h : isgen p g = true) {log : Cells Byte}
    (hwf : Cells.wf Config.logDepth log = true) (hgap : Cells.get 0 log = none) :
    fillLog (powers p g) 0 log = fillLog (powers p g) 0 [] := by
  refine cells_ext (Laws.Memory.wf_fillLog _ 0 hwf) (Laws.Memory.wf_fillLog _ 0 rfl) fun i hi => ?_
  have hbyte : (BitVec.ofNat 8 i).toNat = i := Nat.mod_eq_of_lt hi
  by_cases hzero : BitVec.ofNat 8 i = 0#8
  · obtain rfl : i = 0 := by rw [← hbyte, hzero]; rfl
    rw [get_zero_fillLog h, get_zero_fillLog h, hgap, Laws.Cells.get_nil]
  · obtain ⟨k, hk, hpow⟩ := exists_fieldPow h hzero
    rw [← hbyte, ← hpow, get_fillLog_fieldPow h log hk, get_fillLog_fieldPow h [] hk]

/-- Under the invariant EXP[511] and LOG[0] are unspecified (spec/42_table_builder.md R109). -/
theorem gaps_of_inv {s : State} (h : Inv s) : Cells.get 511 s.mem.exp = none ∧ Cells.get 0 s.mem.log = none := by
  cases hfv : s.fv with
  | false =>
    obtain ⟨hexp, hlog⟩ := h.empty hfv
    rw [hexp, hlog]
    exact ⟨rfl, rfl⟩
  | true =>
    obtain ⟨hexp, hlog⟩ := tables_of_built (h.field hfv)
    rw [hexp, hlog, get_fillExp_above _ _ _ le_rfl, get_zero_fillLog (h.field hfv).1]
    exact ⟨rfl, rfl⟩

/-- BUILD's fill under the invariant does not depend on the tables before it. -/
theorem fillTables_eq_of_inv {s : State} (h : Inv s) {p : Half} {g : Byte} (hgen : isgen p g = true) :
    fillTables p g s.mem.exp s.mem.log = fillTables p g [] [] := by
  obtain ⟨hexp, hlog⟩ := gaps_of_inv h
  obtain ⟨hwfExp, hwfLog, -, -⟩ := (Laws.Memory.wf_iff s.mem).1 h.memory
  rw [fillTables, fillTables, fillExp_eq_of_gap p g hwfExp hexp, fillLog_eq_of_gap hgen hwfLog hlog]

/-! #### Completions -/

/-- A command's completion keeps the invariant: BUILD's commit is the only one that touches what it speaks of but ERR. -/
theorem inv_exec {i : Instr} {s t : State} (h : Inv s) (hexec : exec i s = .next t) : Inv t := by
  rcases Laws.Commands.exec_cases i s with ⟨-, v, hs⟩ | ⟨-, hgen, hs⟩ | ⟨e, hs⟩ <;> rw [hs] at hexec <;> cases hexec
  · exact ⟨h.memory, Nat.zero_le 7, h.empty, h.field⟩
  · refine ⟨Laws.Memory.wf_fillTables _ _ h.memory, Nat.zero_le 7, fun hfv => absurd hfv Bool.false_ne_true.symm,
      fun _ => ⟨hgen, ?_⟩⟩
    simp only [fillTables_eq_of_inv h hgen]
  · exact ⟨h.memory, Laws.Commands.code_le e, h.empty, h.field⟩

/-! #### Events at the port -/

theorem inv_unlessBusy {s stored : State} (h : Inv s) (hstored : Inv stored) : Inv (unlessBusy s stored) := by
  unfold unlessBusy
  split
  · exact ⟨h.memory, h.code, h.empty, h.field⟩
  · exact hstored

/-- A write reaches of what the invariant speaks of only the sample cells, each within its array. -/
theorem inv_writeTarget {s t : State} {target : Target} {v : Word} (h : Inv s)
    (hwf : target = .reserved ∨ target.wf = true) (ht : writeTarget s target v = some t) : Inv t := by
  cases target with
  | status | result | fieldPoly | fieldGen =>
    cases ht
    exact ⟨h.memory, h.code, h.empty, h.field⟩
  | cmd | opa | opb | poly | gen | nsamp =>
    cases ht
    exact inv_unlessBusy h ⟨h.memory, h.code, h.empty, h.field⟩
  | sx i =>
    have hi : i < Config.sampleDepth := of_decide_eq_true (hwf.resolve_left Target.noConfusion)
    cases ht
    exact inv_unlessBusy h ⟨Laws.Memory.wf_writeSx v hi h.memory, h.code, h.empty, h.field⟩
  | sy i =>
    have hi : i < Config.sampleDepth := of_decide_eq_true (hwf.resolve_left Target.noConfusion)
    cases ht
    exact inv_unlessBusy h ⟨Laws.Memory.wf_writeSy v hi h.memory, h.code, h.empty, h.field⟩
  | exp i | log i | reserved => cases ht

theorem inv_accessBus {s : State} (h : Inv s) (op : BusOp) : Inv (accessBus op s) := by
  rcases accessBus_cases op s with ⟨r, hs⟩ | ⟨off, v, t, -, -, ht, hs⟩ <;> rw [hs]
  · exact ⟨h.memory, h.code, h.empty, h.field⟩
  · obtain ⟨hmemory, hcode, hempty, hfield⟩ := inv_writeTarget h (Laws.Bus.targetAt_wf off) ht
    exact ⟨hmemory, hcode, hempty, hfield⟩

theorem inv_resetBlock (s : State) : Inv (resetBlock s) := by
  obtain ⟨hmemory, hcode, hempty, hfield⟩ := resetSatisfiesTheInvariant
  exact ⟨hmemory, hcode, hempty, hfield⟩

/-- Settles O4: a completion, an access, the reset input and idling each keep the invariant; the only new tables are those of a
successful BUILD, whose fill covers every entry that an older fill specified. -/
theorem stepKeepsTheInvariant : Obligations.StepKeepsTheInvariant := by
  intro s t h hstep
  rcases Laws.Bus.step_cases s with
    ⟨-, -, i, -, hs⟩ | ⟨-, -, why, -, hs⟩ | ⟨-, ⟨event, first⟩, rest, -, -, hs⟩ | ⟨-, -, -, hs⟩ <;> rw [hs] at hstep
  · exact inv_exec h hstep
  · cases hstep
    exact ⟨h.memory, Laws.Commands.code_le .illegalCommand, h.empty, h.field⟩
  · cases hstep
    cases event with
    | access op => exact inv_accessBus (s := { s with port := rest }) ⟨h.memory, h.code, h.empty, h.field⟩ op
    | reset => exact inv_resetBlock _
  · cases hstep
    exact h

end Invariant
end Proofs
end Sys2Proof

/-! ### The pending command: its word, what stays while it waits, and that it completes (spec/10_state.md R44,
spec/30_encoding.md R78 to R81, spec/70_reset_and_hazards.md R191) -/

namespace Sys2Proof
namespace Proofs
namespace PendingCommand

-- One proof of this part at a time: beside the tests, whose evaluations hold a thread each, the check's memory has no room
-- for the threads of several.
set_option deprecated.oldSectionVars true

open Sys2Proof.Machine HostAccess StatusFlags CommandEncoding

/-! #### Command words -/

theorem wf_eq_true (i : Instr) : i.wf = true := by cases i <;> rfl

/-- Settles O9: every instruction is well formed, and its encoding is its one word. -/
theorem decodeAndEncodeAgree : Obligations.DecodeAndEncodeAgree := fun w i =>
  (decode_eq_command_iff w i).trans (eq_comm.trans (and_iff_right (wf_eq_true i)).symm)

/-- Settles O10: the words are written out, and the decoder runs on them. -/
theorem tableWordsDecode : Obligations.TableWordsDecode := by
  unfold Obligations.TableWordsDecode
  decide

theorem tableWord_toNat (w : Word) : tableWord 32 w.toNat = w := by
  rw [tableWord, Nat.mod_eq_of_lt w.isLt, BitVec.ofNat_toNat, BitVec.setWidth_eq]

/-! #### The completion step -/

theorem step_runs_command {i : Instr} {s : State} (hturn : engineTurn s = true) (hd : decode s.pend = .command i) :
    step s = exec i s := by
  rw [Laws.Bus.step_engine hturn, completePending, hd]

theorem engineTurn_of_first {s : State} (hb : s.busy = true)
    (h : s.port = [] ∨ ∃ event rest, s.port = { event := event, engineFirst := true } :: rest) : engineTurn s = true := by
  rcases h with hp | ⟨event, rest, hp⟩ <;> simp only [engineTurn, hb, hp, Bool.and_self]

/-- Settles O5: the completion that is next runs the decoded word, and a placed word is such a completion. -/
theorem stepRunsThePendingCommand : Obligations.StepRunsThePendingCommand := by
  refine ⟨fun i s hb hd hp => step_runs_command (engineTurn_of_first hb hp) hd, fun i s => ?_⟩
  obtain ⟨-, -, hdecode⟩ := encode_spec i
  rw [State.withFetchWord, tableWord_toNat]
  exact step_runs_command (Laws.Bus.engineTurn_withPending _ s) hdecode

/-! #### While a command is pending (R44, R63) -/

/-- An access while BUSY changes COLL at most, and responds. -/
theorem accessBus_busy (op : BusOp) {s : State} (hb : s.busy = true) :
    ∃ c r, accessBus op s = { s with coll := c, resp := some r, tick := s.tick + 1 } := by
  rcases accessBus_cases op s with ⟨r, hs⟩ | ⟨off, v, t, -, -, ht, hs⟩
  · exact ⟨s.coll, r, hs⟩
  · obtain ⟨c, rfl⟩ := Laws.Bus.writeTarget_busy hb ht
    exact ⟨c, .okay, hs⟩

/-- Settles O6: a step after which a command is still pending is an access while BUSY, or no change at all. -/
theorem operandsStayWhileBusy : Obligations.OperandsStayWhileBusy := by
  intro s t hb hstep ht
  rcases step_agents s with ⟨-, out, hs⟩ | ⟨op, rest, -, hs⟩ | ⟨first, rest, -, hs⟩ | hs <;> rw [hs] at hstep <;> cases hstep
  · simp at ht
  · obtain ⟨c, r, haccess⟩ := accessBus_busy op (s := { s with port := rest }) hb
    rw [haccess]
  · cases ht
  · rfl

/-! #### The pending command completes (R191) -/

theorem run_succ_of_step (M : Host.Core) {s t : M.State} (h : M.step s = .next t) (k : Nat) :
    M.run (k + 1) s = M.run k t := by
  rw [Host.Core.run, h]

/-- An access that comes before the pending completion leaves the command pending, with one event fewer at the port. -/
theorem step_access_keeps_pending {s : State} {op : BusOp} {rest : List PortEntry} (hb : s.busy = true)
    (h : HostNext s op rest) : ∃ t, step s = .next t ∧ t.busy = true ∧ t.pend = s.pend ∧ t.port = rest := by
  obtain ⟨c, r, haccess⟩ := accessBus_busy op (s := { s with port := rest }) hb
  exact ⟨_, step_access h, by rw [haccess]; exact hb, by rw [haccess], by rw [haccess]⟩

/-- With a command pending and no reset input queued, its completion is next, or an access that comes before it. -/
theorem engineTurn_or_access {s : State} (hb : s.busy = true) (hnoReset : ∀ e ∈ s.port, e.event ≠ .reset) :
    engineTurn s = true ∨ ∃ op rest, s.port = { event := .access op, engineFirst := false } :: rest := by
  rcases hp : s.port with _ | ⟨⟨event, first⟩, rest⟩
  · exact .inl (engineTurn_of_first hb (.inl hp))
  · cases first with
    | true => exact .inl (engineTurn_of_first hb (.inr ⟨event, rest, hp⟩))
    | false =>
      cases event with
      | access op => exact .inr ⟨op, rest, rfl⟩
      | reset => exact absurd rfl (hnoReset _ (hp ▸ List.mem_cons_self))

/-- Settles O7: by induction on the number of events at the port, the next of which is an access that leaves the command
pending or comes after its completion. -/
theorem pendingCommandCompletes : Obligations.PendingCommandCompletes := by
  intro s hb hnoReset
  induction hlength : s.port.length generalizing s with
  | zero =>
    have hturn := engineTurn_of_first hb (.inl (List.length_eq_zero_iff.1 hlength))
    obtain ⟨out, hs⟩ := step_engine_eq_complete hturn
    exact ⟨0, s, _, le_rfl, rfl, hb, rfl, hturn, hs, complete_busy out s⟩
  | succ n ih =>
    rcases engineTurn_or_access hb hnoReset with hturn | ⟨op, rest, hp⟩
    · obtain ⟨out, hs⟩ := step_engine_eq_complete hturn
      exact ⟨0, s, _, Nat.zero_le _, rfl, hb, rfl, hturn, hs, complete_busy out s⟩
    · obtain ⟨s', hs, hb', hpend, hport⟩ := step_access_keeps_pending hb ⟨false, hp, .inr rfl⟩
      have hrest : rest.length = n := by rw [hp] at hlength; exact Nat.succ.inj hlength
      obtain ⟨k, t, u, hk, hrun, htb, htpend, hlast⟩ := ih s' hb'
        (fun e he => hnoReset e (hp ▸ List.mem_cons_of_mem _ (hport ▸ he))) (by rw [hport, hrest])
      exact ⟨k + 1, t, u, Nat.succ_le_succ hk, (run_succ_of_step Sys2Proof.core hs k).trans hrun, htb,
        htpend.trans hpend, hlast⟩

end PendingCommand
end Proofs
end Sys2Proof

/-! ### Reads and the storage registers, BUSY or not (spec/20_memory.md sections 2 and 3; spec/10_state.md R28 to R40, R45) -/

namespace Sys2Proof
namespace Proofs
namespace Registers

-- One proof of this part at a time: beside the tests, whose evaluations hold a thread each, the check's memory has no room
-- for the threads of several.
set_option deprecated.oldSectionVars true

open Sys2Proof.Machine HostAccess AddressMap

/-- Settles O20: an access that reads only responds, whatever its offset and width. -/
theorem readsChangeNothing : Obligations.ReadsChangeNothing := by
  intro s off n rest h
  obtain ⟨r, hr⟩ := Laws.Bus.accessBus_read_cases off n { s with port := rest }
  exact ⟨r, by rw [step_access h, hr]; rfl⟩

/-! #### The STATUS word (R28 to R31) -/

theorem packStatus_toNat (err : BitVec 4) (coll fv busy : BitVec 1) :
    (packStatus err coll fv busy).toNat = 256 * err.toNat + 4 * coll.toNat + 2 * fv.toNat + busy.toNat := by
  decide +revert

theorem packStatus_flags (err : BitVec 4) (coll fv busy : BitVec 1) :
    (packStatus err coll fv busy).getLsbD 1 = fv.getLsbD 0 ∧ (packStatus err coll fv busy).getLsbD 2 = coll.getLsbD 0 := by
  simp only [packStatus, BitVec.getLsbD_append]
  exact ⟨rfl, rfl⟩

theorem flagBit_getLsbD (b : Bool) : (flagBit b).getLsbD 0 = b := by cases b <;> rfl

theorem flagBit_toNat (b : Bool) : (flagBit b).toNat = b.toNat := by cases b <;> rfl

/-- Idle, STATUS shows the stored flags. -/
theorem statusRead_toNat_idle {s : State} (hb : s.busy = false) :
    (statusRead s).toNat = 256 * s.err.toNat + 4 * s.coll.toNat + 2 * s.fv.toNat := by
  rw [statusRead, packStatus_toNat, errRead, fvRead, pendingBuild, hb]
  simp only [Bool.false_and, Bool.false_eq_true, if_false, flagBit_toNat, Bool.toNat_false, Nat.add_zero]

/-- STATUS bit 2 is COLL (R30). -/
theorem statusRead_coll (s : State) : (statusRead s).getLsbD 2 = s.coll := by
  rw [statusRead, (packStatus_flags _ _ _ _).2, flagBit_getLsbD]

/-- STATUS bit 1 is the stored FV, unless a BUILD is pending (R29, R45). -/
theorem statusRead_fv {s : State} (hp : ¬ (s.busy = true ∧ decode s.pend = .command .build)) :
    (statusRead s).getLsbD 1 = s.fv := by
  rw [statusRead, (packStatus_flags _ _ _ _).1, fvRead, if_neg (mt pendingBuild_iff.1 hp), flagBit_getLsbD]

/-! #### Idle (spec/20_memory.md section 2) -/

theorem resultRead_idle {s : State} (hb : s.busy = false) : resultRead s = s.result := if_neg (by simp [hb])

/-- Settles O21: with BUSY = 0 no write is discarded, and of the reads RESULT and STATUS alone look at BUSY. -/
theorem idleRegistersReadAndWrite : Obligations.IdleRegistersReadAndWrite := by
  intro s v rest hb
  have hidle (stored : State) := unlessBusy_idle (s := { s with port := rest }) hb stored
  refine ⟨fun h => step_write h rfl (congrArg some (hidle _)), fun h => step_write h rfl (congrArg some (hidle _)),
    fun h => step_write h rfl (congrArg some (hidle _)), fun h => step_write h rfl (congrArg some (hidle _)),
    fun h => step_write h rfl (congrArg some (hidle _)), fun off d h hmem => ?reads, fun h => ?status⟩
  case reads =>
    simp only [List.mem_cons, Prod.mk.injEq, List.not_mem_nil, or_false] at hmem
    rcases hmem with ⟨rfl, rfl⟩ | ⟨rfl, rfl⟩ | ⟨rfl, rfl⟩ | ⟨rfl, rfl⟩ | ⟨rfl, rfl⟩ | ⟨rfl, rfl⟩ | ⟨rfl, rfl⟩ | ⟨rfl, rfl⟩
    case inr.inr.inl =>
      exact step_read h rfl (congrArg (fun r => some (zext32 r)) (resultRead_idle (s := { s with port := rest }) hb))
    all_goals exact step_read h rfl rfl
  case status => exact ⟨_, step_read h rfl rfl, statusRead_toNat_idle (s := { s with port := rest }) hb⟩

/-! #### While a command is pending (R45) -/

/-- Settles O23: the storage registers read as stored, BUSY or not; STATUS shows its flags bit by bit; written cells need no
draw, and the table windows draw only for a pending BUILD. -/
theorem busyReadsOfStoredValues : Obligations.BusyReadsOfStoredValues := by
  intro s rest hb
  refine ⟨fun off d h hmem => ?registers, fun h => ⟨_, step_read h rfl rfl, ?result⟩,
    fun h => ⟨_, step_read h rfl rfl, ?busy, statusRead_coll _, fun hp => statusRead_fv fun hbuild => hp hbuild.2⟩,
    fun i v hi hv h => ?sx, fun i v hi hv h => ?sy, fun i v hi hp hv h => ?exp, fun i v hi hp hv h => ?log⟩
  case registers =>
    simp only [List.mem_cons, Prod.mk.injEq, List.not_mem_nil, or_false] at hmem
    rcases hmem with ⟨rfl, rfl⟩ | ⟨rfl, rfl⟩ | ⟨rfl, rfl⟩ | ⟨rfl, rfl⟩ | ⟨rfl, rfl⟩ | ⟨rfl, rfl⟩ | ⟨rfl, rfl⟩
    all_goals exact step_read h rfl rfl
  case result =>
    rw [Laws.Commands.zext32_toNat (by decide)]
    exact Nat.le_of_lt_succ (BitVec.isLt _)
  case busy => exact (Laws.HostSide.statusRead_busy _).trans hb
  case sx =>
    exact step_read_target (target := .sx i) h (decide_eq_true hi)
      (congrArg some (readSx_stored (s := { s with port := rest }) 0 hv))
  case sy =>
    exact step_read_target (target := .sy i) h (decide_eq_true hi)
      (congrArg some (readSy_stored (s := { s with port := rest }) 0 hv))
  case exp =>
    obtain ⟨d, hs, hd⟩ := step_read_window (target := .exp i) h (decide_eq_true hi) rfl
    rw [hs, hd (fun hbuild => hp hbuild.2) v hv]
  case log =>
    obtain ⟨d, hs, hd⟩ := step_read_window (target := .log i) h (decide_eq_true hi) rfl
    rw [hs, hd (fun hbuild => hp hbuild.2) v hv]

end Registers
end Proofs
end Sys2Proof

/-! ### Every command: its frame, its error codes; CLMUL and ISGEN; the irreducible modulus (spec/60_exceptions.md R155 to
R159, spec/40_multiplier.md R91, spec/41_generator_validator.md R97, R101) -/

namespace Sys2Proof
namespace Proofs
namespace CommandCompletion

-- One proof of this part at a time: beside the tests, whose evaluations hold a thread each, the check's memory has no room
-- for the threads of several.
set_option deprecated.oldSectionVars true

open Sys2Proof.Machine CommandEncoding Multiplier GeneratorPowers TableBuilder FieldArithmetic Interpolator

/-- Settles O25: of the three completions only BUILD's commit writes the field context, and its fill stops at EXP[510]. -/
theorem commandsCompleteAndKeepTheirFrame : Obligations.CommandsCompleteAndKeepTheirFrame := by
  intro i s
  rcases Laws.Commands.exec_cases i s with ⟨hi, v, hs⟩ | ⟨hi, -, hs⟩ | ⟨e, hs⟩
  · exact ⟨_, hs, rfl, rfl, rfl, rfl, rfl, rfl, rfl, rfl, rfl, rfl, fun _ => rfl, fun _ => rfl,
      fun _ => ⟨rfl, rfl, rfl, fun _ => rfl, fun _ => rfl⟩, fun hbuild => absurd hbuild hi⟩
  · exact ⟨_, hs, rfl, rfl, rfl, rfl, rfl, rfl, rfl, rfl, rfl, rfl, fun _ => rfl, fun _ => rfl,
      fun hother => absurd hi hother, fun _ => ⟨rfl, get_fillExp_above _ _ _ le_rfl⟩⟩
  · exact ⟨_, hs, rfl, rfl, rfl, rfl, rfl, rfl, rfl, rfl, rfl, rfl, fun _ => rfl, fun _ => rfl,
      fun _ => ⟨rfl, rfl, rfl, fun _ => rfl, fun _ => rfl⟩, fun _ => ⟨rfl, rfl⟩⟩

/-! #### The errors a computation can raise (R155) -/

/-- Every error of x is one of `es`. -/
def RaisesOnly {α : Type} (es : List CmdError) (x : Except CmdError α) : Prop := ∀ e, x = .error e → e ∈ es

namespace RaisesOnly

variable {α β : Type} {es : List CmdError}

theorem ok (a : α) : RaisesOnly es (.ok a) := nofun

theorem error {e : CmdError} (he : e ∈ es) : RaisesOnly (α := α) es (.error e) := by
  intro e' h
  cases h
  exact he

theorem bind {x : Except CmdError α} {f : α → Except CmdError β} (hx : RaisesOnly es x) (hf : ∀ a, RaisesOnly es (f a)) :
    RaisesOnly es (x >>= f) := by
  cases x with
  | ok a => exact hf a
  | error e => exact fun e' h => hx e' (congrArg Except.error (Except.error.inj h))

theorem mono {es' : List CmdError} {x : Except CmdError α} (h : RaisesOnly es x) (hsub : es ⊆ es') : RaisesOnly es' x :=
  fun e he => hsub (h e he)

/-- A loop raises what its turns raise. -/
theorem foldlM_range {f : α → Nat → Except CmdError α} {n : Nat} (h : ∀ m < n, ∀ b, RaisesOnly es (f b m)) (a : α) :
    RaisesOnly es ((List.range n).foldlM f a) := by
  induction n with
  | zero => exact ok a
  | succ n ih =>
    rw [List.range_succ, List.foldlM_append]
    exact (ih fun m hm => h m (hm.trans n.lt_succ_self)).bind fun b => (h n n.lt_succ_self b).bind ok

end RaisesOnly

theorem checkByte_raises (v : Word) : RaisesOnly [.outOfRange] (checkByte v) := by
  rcases Laws.Commands.checkByte_cases v with ⟨-, h⟩ | ⟨-, h⟩ <;> rw [h]
  · exact .ok _
  · exact .error List.mem_cons_self

theorem checkedBinary_raises {es : List CmdError} {f : Byte → Byte → Except CmdError Byte}
    (hf : ∀ a b, RaisesOnly es (f a b)) (a b : Word) : RaisesOnly (.outOfRange :: es) (checkedBinary f a b) := by
  have hcheck (v : Word) : RaisesOnly (.outOfRange :: es) (checkByte v) := (checkByte_raises v).mono (by simp)
  rw [checkedBinary_eq_bind]
  exact (hcheck a).bind fun a => (hcheck b).bind fun b => (hf a b).mono (List.subset_cons_self _ _)

theorem fadd_raises (a b : Word) : RaisesOnly [.outOfRange] (fadd a b) := by
  rw [fadd_eq]
  exact checkedBinary_raises (fun _ _ => .ok _) a b

theorem fmul_raises (s : State) (a b : Word) : RaisesOnly [.outOfRange] (fmul s a b) := by
  rw [fmul_eq]
  exact checkedBinary_raises (fun _ _ => .ok _) a b

theorem divBody_raises (s : State) (a b : Byte) : RaisesOnly [.divisionByZero] (divBody s a b) := by
  unfold divBody
  split_ifs
  · exact .error List.mem_cons_self
  · exact .ok _
  · exact .ok _

theorem fdiv_raises (s : State) (a b : Word) : RaisesOnly [.outOfRange, .divisionByZero] (fdiv s a b) := by
  rw [fdiv_eq]
  exact checkedBinary_raises (divBody_raises s) a b

theorem invBody_raises (s : State) (a : Byte) : RaisesOnly [.noInverseForZero] (invBody s a) := by
  unfold invBody
  split
  · exact .error List.mem_cons_self
  · exact .ok _

theorem finv_raises (s : State) (a : Word) : RaisesOnly [.outOfRange, .noInverseForZero] (finv s a) := by
  rw [finv_eq_bind]
  exact ((checkByte_raises a).mono (by simp)).bind fun a => (invBody_raises s a).mono (by simp)

theorem interpTerm_raises (s : State) (i j : Nat) (basis : Byte) :
    RaisesOnly [.outOfRange, .divisionByZero] (interpTerm s i j basis) := by
  rw [interpTerm_eq_bind]
  exact ((fadd_raises _ _).mono (by simp)).bind fun _ => ((fadd_raises _ _).mono (by simp)).bind fun _ =>
    (fdiv_raises s _ _).bind fun _ => (fmul_raises s _ _).mono (by simp)

theorem interpBasis_raises (s : State) (n i : Nat) : RaisesOnly [.outOfRange, .divisionByZero] (interpBasis s n i) := by
  refine .foldlM_range (fun j _ basis => ?_) 1#8
  split
  · exact .ok _
  · exact interpTerm_raises s i j basis

theorem interpAdd_raises (s : State) (n i : Nat) (result : Byte) :
    RaisesOnly [.outOfRange, .divisionByZero] (interpAdd s n i result) := by
  rw [interpAdd_eq_bind]
  exact (interpBasis_raises s n i).bind fun _ => ((fmul_raises s _ _).mono (by simp)).bind fun _ =>
    (fadd_raises _ _).mono (by simp)

theorem interpValue_raises (s : State) : RaisesOnly [.outOfRange, .divisionByZero, .emptyInput] (interpValue s) := by
  unfold interpValue
  split_ifs
  · exact .error (by simp)
  · exact .error (by simp)
  · exact RaisesOnly.mono (.foldlM_range (fun i _ result => interpAdd_raises s _ i result) 0#8) (by simp)

/-- A field command raises NoField beside what its value raises (R115). -/
theorem fieldCommand_raises {es : List CmdError} {value : Except CmdError Byte} (s : State) (h : RaisesOnly es value) :
    RaisesOnly (es ++ [CmdError.noField]) (fieldCommand s value) := by
  rcases Laws.Commands.fieldCommand_cases s value with ⟨-, hs⟩ | ⟨-, e, hv, hs⟩ | ⟨-, v, -, hs⟩ <;> rw [hs]
  · exact .error (List.mem_append_right _ List.mem_cons_self)
  · exact .error (List.mem_append_left _ (h e hv))
  · exact .ok _

/-- ERR after a completion is 0 or the code of an error that was raised (R158). -/
theorem complete_err_mem {es : List CmdError} {out : Except CmdError Writes} (h : RaisesOnly es out) (s : State) :
    (complete out s).err.toNat ∈ 0 :: es.map (fun e => e.code.toNat) := by
  rcases Laws.Commands.complete_cases out s with ⟨v, -, hs⟩ | ⟨p, g, E, L, -, hs⟩ | ⟨e, he, hs⟩ <;> rw [hs]
  · exact List.mem_cons_self
  · exact List.mem_cons_self
  · exact List.mem_cons_of_mem _ (List.mem_map_of_mem (h e he))

theorem exec_err_mem {es : List CmdError} {i : Instr} {s t : State} {out : Except CmdError Writes}
    (hexec : exec i s = .next (complete out s)) (h : RaisesOnly es out) (ht : exec i s = .next t) :
    t.err.toNat ∈ 0 :: es.map (fun e => e.code.toNat) := by
  cases hexec.symm.trans ht
  exact complete_err_mem h s

theorem exec_clmul (s : State) : exec .clmul s = .next (complete (runClmul s) s) := rfl

theorem exec_isgen (s : State) : exec .isgen s = .next (complete (runIsgen s) s) := rfl

theorem exec_build (s : State) : exec .build s = .next (complete (runBuild s) s) := rfl

theorem runClmul_raises (s : State) : RaisesOnly [.outOfRange] (runClmul s) := by
  rcases Laws.Commands.runClmul_cases s with ⟨-, -, -, h⟩ | ⟨-, h⟩ <;> rw [h]
  · exact .ok _
  · exact .error List.mem_cons_self

theorem runIsgen_raises (s : State) : RaisesOnly [.outOfRange] (runIsgen s) := by
  rcases Laws.Commands.runIsgen_cases s with ⟨-, -, h⟩ | ⟨-, h⟩ <;> rw [h]
  · exact .ok _
  · exact .error List.mem_cons_self

theorem runBuild_raises (s : State) : RaisesOnly [.outOfRange, .invalidGenerator] (runBuild s) := by
  rcases Laws.Commands.runBuild_cases s with ⟨-, -, -, h⟩ | ⟨-, -, -, h⟩ | ⟨-, h⟩ <;> rw [h]
  · exact .ok _
  · exact .error (by simp)
  · exact .error (by simp)

/-- Settles O27: the codes of what each command's computation can raise, NoField the last of them. -/
theorem errorCodesPerCommand : Obligations.ErrorCodesPerCommand := by
  refine ⟨fun i s t ht => ?_, fun s why hturn hd => ⟨_, step_completes_illegal hturn hd, rfl⟩⟩
  cases i with
  | clmul => exact exec_err_mem (exec_clmul s) (runClmul_raises s) ht
  | isgen => exact exec_err_mem (exec_isgen s) (runIsgen_raises s) ht
  | build => exact exec_err_mem (exec_build s) (runBuild_raises s) ht
  | add => exact exec_err_mem (exec_add s) (fieldCommand_raises s (fadd_raises _ _)) ht
  | sub => exact exec_err_mem (exec_add s) (fieldCommand_raises s (fadd_raises _ _)) ht
  | mul => exact exec_err_mem (exec_mul s) (fieldCommand_raises s (fmul_raises s _ _)) ht
  | div => exact exec_err_mem (exec_div s) (fieldCommand_raises s (fdiv_raises s _ _)) ht
  | inv => exact exec_err_mem (exec_inv s) (fieldCommand_raises s (finv_raises s _)) ht
  | interp => exact exec_err_mem (exec_interp s) (fieldCommand_raises s (interpValue_raises s)) ht

/-! #### CLMUL and ISGEN (R91, R97) -/

/-- Settles O28: the checks decide between the product and OutOfRange; the corner cases are laws of the product. -/
theorem clmulMultipliesBytes : Obligations.ClmulMultipliesBytes := by
  refine ⟨(decode_eq_command_iff _ .clmul).2 rfl, fun s ha hb hp => ?_, fun s hrange => ?_,
    fun a p => ⟨zero_mulbytes a p, mulbytes_zero a p, mulbytes_one a p, one_mulbytes a p⟩, by decide⟩
  · rcases Laws.Commands.runClmul_cases s with ⟨-, -, -, h⟩ | ⟨hbad, -⟩
    · rw [exec_clmul, h, Laws.Commands.complete_result]
    · omega
  · rcases Laws.Commands.runClmul_cases s with ⟨ha, hb, hp, -⟩ | ⟨-, h⟩
    · omega
    · rw [exec_clmul, h, Laws.Commands.complete_error]
      rfl

/-- Settles O31: the checks decide between the verdict and OutOfRange; a generator is neither 0 nor 1. -/
theorem isgenAnswersTheGeneratorTest : Obligations.IsgenAnswersTheGeneratorTest := by
  refine ⟨(decode_eq_command_iff _ .isgen).2 rfl, fun s hp hg => ?_, fun s hrange => ?_, fun p => ⟨?_, ?_⟩,
    (Inv.field Tests.aes_inv rfl).1⟩
  · rcases Laws.Commands.runIsgen_cases s with ⟨-, -, h⟩ | ⟨hbad, -⟩
    · rw [exec_isgen, h, Laws.Commands.complete_result]
    · omega
  · rcases Laws.Commands.runIsgen_cases s with ⟨hp, hg, -⟩ | ⟨-, h⟩
    · omega
    · rw [exec_isgen, h, Laws.Commands.complete_error]
      rfl
  · exact Bool.eq_false_iff.2 fun h => generator_ne_zero h rfl
  · exact Bool.eq_false_iff.2 fun h => generator_ne_one h rfl

/-! #### The modulus of a generator (R101) -/

/-- Bits 15:8 of p are not in the modulus (spec/40_multiplier.md R95). -/
theorem bytePoly_lowByte (p : Half) : bytePoly (p.setWidth 8) =
    ∑ i ∈ Finset.range 8, if p.getLsbD i then (Polynomial.X : Polynomial (ZMod 2)) ^ i else 0 := by
  rw [bytePoly, lowPoly]
  refine Finset.sum_congr rfl fun i hi => ?_
  rw [BitVec.getLsbD_setWidth, decide_eq_true (Finset.mem_range.1 hi), Bool.true_and]

/-- Settles O33: the residues modulo X^8 + P are the bytes, which have no zero divisors under a generator. -/
theorem generatorNeedsIrreducibleModulus : Obligations.GeneratorNeedsIrreducibleModulus := by
  intro p c h
  rw [← bytePoly_lowByte]
  exact ResidueField.irreducible_modulus h

end CommandCompletion
end Proofs
end Sys2Proof

/-! ### INTERP: the first failing check, duplicates, and what it reads (spec/45_interpolator.md R144, R146, R149) -/

namespace Sys2Proof
namespace Proofs
namespace InterpErrors

-- One proof of this part at a time: beside the tests, whose evaluations hold a thread each, the check's memory has no room
-- for the threads of several.
set_option deprecated.oldSectionVars true

open Sys2Proof.Machine GeneratorPowers BuiltField TableBuilder FieldArithmetic Interpolator CommandCompletion

/-! #### The loops stop at the first error (R144) -/

/-- A loop whose turn m fails with e, and whose turns before m raise nothing but e, fails with e. -/
theorem foldlM_range_error {α : Type} {f : α → Nat → Except CmdError α} {e : CmdError} {m n : Nat} (hm : m < n)
    (hbefore : ∀ k < m, ∀ b, RaisesOnly [e] (f b k)) (herr : ∀ b, f b m = .error e) (a : α) :
    (List.range n).foldlM f a = .error e := by
  induction n with
  | zero => exact absurd hm m.not_lt_zero
  | succ n ih =>
    rw [List.range_succ, List.foldlM_append]
    rcases (Nat.le_of_lt_succ hm).lt_or_eq with hlt | rfl
    · rw [ih hlt, Laws.Commands.bind_error]
    · cases hprefix : (List.range m).foldlM f a with
      | ok b => rw [Laws.Commands.bind_ok, List.foldlM_cons, herr, Laws.Commands.bind_error]
      | error e' =>
        rw [Laws.Commands.bind_error, List.mem_singleton.1 (RaisesOnly.foldlM_range hbefore a e' hprefix)]

section Loops

variable {s : State} {n i j : Nat} {e : CmdError}

/-- The inner loop fails at the turn (i, j). -/
theorem interpBasis_error (hj : j < n) (hji : j ≠ i) (hbefore : ∀ k < j, k ≠ i → ∀ b, RaisesOnly [e] (interpTerm s i k b))
    (herr : ∀ b, interpTerm s i j b = .error e) : interpBasis s n i = .error e := by
  refine foldlM_range_error hj (fun k hk b => ?_) (fun b => (if_neg hji).trans (herr b)) 1#8
  split
  next => exact .ok b
  next hki => exact hbefore k hk hki b

theorem interpAdd_error (h : interpBasis s n i = .error e) (result : Byte) : interpAdd s n i result = .error e := by
  rw [interpAdd_eq_bind, h, Laws.Commands.bind_error]

theorem interpBasis_raises_of_turns (h : ∀ k < n, k ≠ i → ∀ b, RaisesOnly [e] (interpTerm s i k b)) :
    RaisesOnly [e] (interpBasis s n i) := by
  refine .foldlM_range (fun k hk b => ?_) 1#8
  split
  next => exact .ok b
  next hki => exact h k hk hki b

/-- A turn of the outer loop on a written byte SY[i] raises what its inner loop raises. -/
theorem interpAdd_raises_of_turns {y : Byte} (h : ∀ k < n, k ≠ i → ∀ b, RaisesOnly [e] (interpTerm s i k b))
    (hy : Cells.get i s.mem.sy = some (zext32 y)) (result : Byte) : RaisesOnly [e] (interpAdd s n i result) := by
  rw [interpAdd_eq_bind, readSy_of_get hy]
  refine (interpBasis_raises_of_turns h).bind fun basis => ?_
  rw [Laws.Commands.fmul_zext32, Laws.Commands.bind_ok, Laws.Commands.fadd_zext32]
  exact .ok _

/-- INTERP fails at the turn i of the outer loop. -/
theorem exec_interp_error (hfv : s.fv = true) (hn : s.nsamp.toNat ≤ 256) (hi : i < s.nsamp.toNat)
    (hbefore : ∀ k < i, ∀ r, RaisesOnly [e] (interpAdd s s.nsamp.toNat k r))
    (herr : ∀ r, interpAdd s s.nsamp.toNat i r = .error e) : exec .interp s = .next (raiseError e s) :=
  exec_error (exec_interp s) hfv
    ((interpValue_eq_interpSum (by omega) hn).trans (foldlM_range_error hi hbefore herr 0#8))

end Loops

/-! #### One turn -/

section Turn

variable {s : State} {i j : Nat} (basis : Byte)

theorem interpTerm_x_outOfRange (hx : 255 < s.opa.toNat) : interpTerm s i j basis = .error .outOfRange := by
  rw [interpTerm_eq_bind, fadd_eq, checkedBinary_outOfRange (.inl hx), Laws.Commands.bind_error]

theorem interpTerm_xj_outOfRange {v : Word} (hv : 255 < v.toNat) (hj : Cells.get j s.mem.sx = some v) :
    interpTerm s i j basis = .error .outOfRange := by
  rw [interpTerm_eq_bind, readSx_of_get hj, fadd_eq, checkedBinary_outOfRange (.inr hv), Laws.Commands.bind_error]

section ByteX

variable {x : Byte} (hx : s.opa = zext32 x)
include hx

theorem interpTerm_xi_outOfRange {v : Word} {xj : Byte} (hv : 255 < v.toNat) (hi : Cells.get i s.mem.sx = some v)
    (hj : Cells.get j s.mem.sx = some (zext32 xj)) : interpTerm s i j basis = .error .outOfRange := by
  rw [interpTerm_eq_bind, readSx_of_get hj, readSx_of_get hi, hx, Laws.Commands.fadd_zext32, Laws.Commands.bind_ok, readSx_of_get hj,
    fadd_eq, checkedBinary_outOfRange (.inl hv), Laws.Commands.bind_error]

theorem interpTerm_equal {xi : Byte} (hi : Cells.get i s.mem.sx = some (zext32 xi))
    (hj : Cells.get j s.mem.sx = some (zext32 xi)) : interpTerm s i j basis = .error .divisionByZero := by
  rw [interpTerm_eq hx hi hj, BitVec.xor_self, divBody_by_zero, Laws.Commands.bind_error]

/-- Written bytes raise nothing but DivisionByZero. -/
theorem interpTerm_raises_divisionByZero {xi xj : Byte} (hi : Cells.get i s.mem.sx = some (zext32 xi))
    (hj : Cells.get j s.mem.sx = some (zext32 xj)) : RaisesOnly [.divisionByZero] (interpTerm s i j basis) := by
  rw [interpTerm_eq hx hi hj]
  exact (divBody_raises s _ _).bind fun _ => .ok _

/-- A turn that passes raises nothing. -/
theorem interpTerm_raises_of_passes {es : List CmdError} (h : TurnPasses s i j) :
    RaisesOnly es (interpTerm s i j basis) := by
  obtain ⟨xi, xj, hne, hi, hj⟩ := h
  rw [interpTerm_eq hx hi hj]
  refine .bind ?_ fun _ => .ok _
  unfold divBody
  rw [if_neg (mt BitVec.xor_eq_zero_iff.1 hne)]
  split <;> exact .ok _

end ByteX

end Turn

/-! #### The statements -/

theorem opa_eq_zext32 {s : State} (h : s.opa.toNat ≤ 255) : s.opa = zext32 (s.opa.setWidth 8 : Byte) :=
  (Laws.Commands.setWidth_zext32 (n := 8) (by omega)).symm

/-- Settles O52: on written bytes every turn raises DivisionByZero or nothing, and the turn (i, j) raises it. -/
theorem interpOfDuplicatesDividesByZero : Obligations.InterpOfDuplicatesDividesByZero := by
  intro s i j _ hfv hn hopa hrange hij hj heq
  have hx := opa_eq_zext32 hopa
  have hturn (k : Nat) (hk : k < s.nsamp.toNat) (l : Nat) (hl : l < s.nsamp.toNat) (b : Byte) :
      RaisesOnly [.divisionByZero] (interpTerm s k l b) := by
    obtain ⟨⟨xk, hxk⟩, -⟩ := hrange k hk
    obtain ⟨⟨xl, hxl⟩, -⟩ := hrange l hl
    exact interpTerm_raises_divisionByZero b hx hxk hxl
  have hi := hij.trans hj
  obtain ⟨⟨xi, hxi⟩, -⟩ := hrange i hi
  refine exec_interp_error (e := .divisionByZero) hfv hn hi (fun k hk => ?_) fun r => interpAdd_error
    (interpBasis_error hj hij.ne' (fun l hl _ => hturn i hi l (hl.trans hj))
      fun b => interpTerm_equal b hx hxi (heq ▸ hxi)) r
  obtain ⟨-, y, hy⟩ := hrange k (hk.trans hi)
  exact interpAdd_raises_of_turns (fun l hl _ => hturn k (hk.trans hi) l hl) hy

section Reached

variable {s : State} {i j : Nat} {e : CmdError} (hopa : s.opa.toNat ≤ 255)
include hopa

/-- The turns of the outer loop before a turn that is reached raise nothing. -/
theorem interpAdd_raises_of_reached (h : TurnReached s i j) {k : Nat} (hk : k < i) (r : Byte) :
    RaisesOnly [e] (interpAdd s s.nsamp.toNat k r) := by
  obtain ⟨hturns, hys⟩ := h
  obtain ⟨y, hy⟩ := hys k hk
  exact interpAdd_raises_of_turns (fun l hl hne b =>
    interpTerm_raises_of_passes b (opa_eq_zext32 hopa) (hturns k l (.inl ⟨hk, hl⟩) hne)) hy r

/-- So do the turns of the inner loop. -/
theorem interpTerm_raises_of_reached (h : TurnReached s i j) {k : Nat} (hk : k < j) (hne : k ≠ i) (b : Byte) :
    RaisesOnly [e] (interpTerm s i k b) := by
  obtain ⟨hturns, -⟩ := h
  exact interpTerm_raises_of_passes b (opa_eq_zext32 hopa) (hturns i k (.inr ⟨rfl, hk⟩) hne)

variable (hfv : s.fv = true) (hn : s.nsamp.toNat ≤ 256) (hi : i < s.nsamp.toNat)
include hfv hn hi

/-- The error of a turn that is reached is the one reported (R144). -/
theorem exec_interp_error_at_turn (hj : j < s.nsamp.toNat) (hji : j ≠ i) (h : TurnReached s i j)
    (herr : ∀ b, interpTerm s i j b = .error e) : exec .interp s = .next (raiseError e s) :=
  exec_interp_error hfv hn hi (fun _ hk => interpAdd_raises_of_reached hopa h hk)
    fun r => interpAdd_error (interpBasis_error hj hji (fun _ hl hne => interpTerm_raises_of_reached hopa h hl hne) herr) r

/-- SY[i] is checked at the end of the inner loop of i (R144). -/
theorem exec_interp_error_at_y {v : Word} (h : TurnReached s i s.nsamp.toNat) (hv : 255 < v.toNat)
    (hy : Cells.get i s.mem.sy = some v) : exec .interp s = .next (raiseError .outOfRange s) := by
  refine exec_interp_error hfv hn hi (fun _ hk => interpAdd_raises_of_reached hopa h hk) fun r => ?_
  have hraises := interpBasis_raises_of_turns (e := .outOfRange)
    fun _ hl hne => interpTerm_raises_of_reached hopa h hl hne
  cases hbasis : interpBasis s s.nsamp.toNat i with
  | ok basis => exact interpAdd_outOfRange hbasis hy hv r
  | error e => rw [interpAdd_error hbasis, List.mem_singleton.1 (hraises e hbasis)]

end Reached

/-- Settles O53: no turn before the failing one raises anything; with x out of range the turn (0, 1) is the first. -/
theorem interpReportsTheFirstError : Obligations.InterpReportsTheFirstError := by
  refine ⟨fun s hfv hpos hn hopa => ?_, fun s x hfv hpos hn hopa hx0 hx1 => ?_, fun s hfv hpos hn hopa =>
    ⟨fun i j hi hj hji h => ⟨fun v hv hxj => ?_, fun v xj hv hxi hxj => ?_, fun x hxi hxj => ?_⟩,
      fun i v hi h hv hy => exec_interp_error_at_y hopa hfv hn hi h hv hy⟩⟩
  · exact exec_interp_error (e := .outOfRange) hfv hn (i := 0) (by omega) (fun k hk => absurd hk k.not_lt_zero)
      fun r => interpAdd_error (interpBasis_error (j := 1) (by omega) (by decide)
        (fun k hk hne => absurd (Nat.lt_one_iff.1 hk) hne) fun b => interpTerm_x_outOfRange b hopa) r
  · exact exec_interp_error_at_turn hopa hfv hn (by omega) (by omega) (by decide) (Tests.turnReached_first s)
      fun b => interpTerm_equal b (opa_eq_zext32 hopa) hx0 hx1
  · exact exec_interp_error_at_turn hopa hfv hn hi hj hji h fun b => interpTerm_xj_outOfRange b hv hxj
  · exact exec_interp_error_at_turn hopa hfv hn hi hj hji h
      fun b => interpTerm_xi_outOfRange b (opa_eq_zext32 hopa) hv hxi hxj
  · exact exec_interp_error_at_turn hopa hfv hn hi hj hji h
      fun b => interpTerm_equal b (opa_eq_zext32 hopa) hxi hxj

/-! #### What INTERP reads (R149) -/

section SameTables

variable {s u : State} (h : FieldBuilt s) (hexp : u.mem.exp = s.mem.exp) (hlog : u.mem.log = s.mem.log)
include h

include hexp in
theorem readExp_eq_of_tables {i : Nat} (hi : i ≤ 510) : readExp u i = readExp s i := by
  rw [readExp_of_get (hexp ▸ get_exp h hi), readExp_of_get (get_exp h hi)]

include hlog in
theorem readLog_eq_of_tables {a : Byte} (ha : a ≠ 0#8) : readLog u a.toNat = readLog s a.toNat := by
  obtain ⟨k, hk, rfl⟩ := exists_fieldPow h.1 ha
  rw [readLog, readLog, hlog, get_log h hk, Option.getD_some, Option.getD_some]

include hexp hlog

/-- MUL in a built field reads specified entries only. -/
theorem mulBody_eq_of_tables (a b : Byte) : mulBody u a b = mulBody s a b := by
  by_cases hzero : a = 0#8 ∨ b = 0#8
  · rw [mulBody_of_zero hzero, mulBody_of_zero hzero]
  · obtain ⟨ha, hb⟩ := not_or.1 hzero
    obtain ⟨hla, -⟩ := readLog_spec h ha
    obtain ⟨hlb, -⟩ := readLog_spec h hb
    rw [mulBody_of_ne_zero ha hb, mulBody_of_ne_zero ha hb, readLog_eq_of_tables h hlog ha, readLog_eq_of_tables h hlog hb,
      readExp_eq_of_tables h hexp (by omega)]

/-- So does DIV. -/
theorem divBody_eq_of_tables (a b : Byte) : divBody u a b = divBody s a b := by
  by_cases hb : b = 0#8
  · rw [hb, divBody_by_zero, divBody_by_zero]
  by_cases ha : a = 0#8
  · rw [ha, zero_divBody hb, zero_divBody hb]
  · obtain ⟨hla, -⟩ := readLog_spec h ha
    obtain ⟨hlb, -⟩ := readLog_spec h hb
    have hindex := (divIndex_spec hla hlb).1
    rw [divBody_of_ne_zero ha hb, divBody_of_ne_zero ha hb, readLog_eq_of_tables h hlog ha,
      readLog_eq_of_tables h hlog hb, readExp_eq_of_tables h hexp (by omega)]

theorem fmul_eq_of_tables (a b : Word) : fmul u a b = fmul s a b := by
  simp only [fmul_eq, mulBody_eq_of_tables h hexp hlog]

theorem fdiv_eq_of_tables (a b : Word) : fdiv u a b = fdiv s a b := by
  simp only [fdiv_eq, funext₂ (divBody_eq_of_tables h hexp hlog)]

end SameTables

/-- The first n cells of an array are written, and alike in the two states. -/
def SameWritten (n : Nat) (cs ds : Cells Word) : Prop :=
  ∀ i < n, (Cells.get i cs).isSome ∧ Cells.get i ds = Cells.get i cs

theorem exists_of_sameWritten {n i : Nat} {cs ds : Cells Word} (h : SameWritten n cs ds) (hi : i < n) :
    ∃ v, Cells.get i cs = some v ∧ Cells.get i ds = some v := by
  obtain ⟨hsome, heq⟩ := h i hi
  obtain ⟨v, hv⟩ := Option.isSome_iff_exists.1 hsome
  exact ⟨v, hv, heq.trans hv⟩

theorem foldlM_range_congr {α : Type} {f g : α → Nat → Except CmdError α} {n : Nat} (h : ∀ m < n, ∀ b, f b m = g b m)
    (a : α) : (List.range n).foldlM f a = (List.range n).foldlM g a := by
  induction n with
  | zero => rfl
  | succ n ih =>
    rw [List.range_succ, List.foldlM_append, List.foldlM_append, ih fun m hm => h m (hm.trans n.lt_succ_self)]
    simp only [List.foldlM_cons, List.foldlM_nil, h n n.lt_succ_self]

section SameSamples

variable {s u : State} {n : Nat} (h : FieldBuilt s) (hopa : u.opa = s.opa) (hexp : u.mem.exp = s.mem.exp)
  (hlog : u.mem.log = s.mem.log) (hsx : SameWritten n s.mem.sx u.mem.sx) (hsy : SameWritten n s.mem.sy u.mem.sy)
include h hopa hexp hlog hsx

theorem interpTerm_eq_of_samples {i j : Nat} (hi : i < n) (hj : j < n) (basis : Byte) :
    interpTerm u i j basis = interpTerm s i j basis := by
  obtain ⟨vi, hsi, hui⟩ := exists_of_sameWritten hsx hi
  obtain ⟨vj, hsj, huj⟩ := exists_of_sameWritten hsx hj
  simp only [interpTerm_eq_bind, hopa, readSx_of_get hsi, readSx_of_get hui, readSx_of_get hsj, readSx_of_get huj,
    fdiv_eq_of_tables h hexp hlog, fmul_eq_of_tables h hexp hlog]

theorem interpBasis_eq_of_samples {i : Nat} (hi : i < n) : interpBasis u n i = interpBasis s n i := by
  refine foldlM_range_congr (fun j hj basis => ?_) 1#8
  rw [interpTerm_eq_of_samples h hopa hexp hlog hsx hi hj]

include hsy

theorem interpAdd_eq_of_samples {i : Nat} (hi : i < n) (result : Byte) : interpAdd u n i result = interpAdd s n i result := by
  obtain ⟨v, hs, hu⟩ := exists_of_sameWritten hsy hi
  simp only [interpAdd_eq_bind, readSy_of_get hs, readSy_of_get hu, interpBasis_eq_of_samples h hopa hexp hlog hsx hi,
    fmul_eq_of_tables h hexp hlog]

theorem interpSum_eq_of_samples : interpSum u n = interpSum s n :=
  foldlM_range_congr (fun _ hi result => interpAdd_eq_of_samples h hopa hexp hlog hsx hsy hi result) 0#8

end SameSamples

/-- With the same count and the same sum INTERP has the same value. -/
theorem interpValue_congr {s u : State} (hn : u.nsamp = s.nsamp)
    (hsum : interpSum u s.nsamp.toNat = interpSum s s.nsamp.toNat) : interpValue u = interpValue s := by
  rw [interpValue, interpValue, operandCount, operandCount, hn, hsum]

/-- A field command's completion is determined by FV and its value: ERR, and RESULT unless an error is taken. -/
theorem complete_fieldCommand_congr {s u : State} {value value' : Except CmdError Byte} (hfv : u.fv = s.fv)
    (hvalue : s.fv = true → value' = value) :
    (complete (fieldCommand s value) s).err = (complete (fieldCommand u value') u).err ∧
      ((complete (fieldCommand s value) s).err = 0#4 →
        (complete (fieldCommand s value) s).result = (complete (fieldCommand u value') u).result) := by
  cases hs : s.fv with
  | false =>
    rw [fieldCommand_eq_bind, fieldCommand_eq_bind, Laws.Commands.requireField_error hs,
      Laws.Commands.requireField_error (hfv.trans hs)]
    exact ⟨rfl, fun herr => absurd herr (Laws.Commands.code_ne_zero .noField)⟩
  | true =>
    rw [fieldCommand_eq_bind, fieldCommand_eq_bind, Laws.Commands.requireField_ok hs,
      Laws.Commands.requireField_ok (hfv.trans hs), hvalue hs]
    cases value with
    | ok v => exact ⟨rfl, fun _ => rfl⟩
    | error e => exact ⟨rfl, fun herr => absurd herr (Laws.Commands.code_ne_zero e)⟩

/-- Settles O56: every cell that the loops read is specified alike in both states, so nothing is drawn. -/
theorem interpReadsOnlyItsSamples : Obligations.InterpReadsOnlyItsSamples := by
  intro s u hfv hopa hn hexp hlog hsamples hinv _
  have hsx : SameWritten s.nsamp.toNat s.mem.sx u.mem.sx := fun i hi => by
    obtain ⟨hwritten, -, heq, -⟩ := hsamples i hi
    exact ⟨hwritten, heq⟩
  have hsy : SameWritten s.nsamp.toNat s.mem.sy u.mem.sy := fun i hi => by
    obtain ⟨-, hwritten, -, heq⟩ := hsamples i hi
    exact ⟨hwritten, heq⟩
  have hvalue (hs : s.fv = true) : interpValue u = interpValue s :=
    interpValue_congr hn (interpSum_eq_of_samples (hinv.field hs) hopa hexp hlog hsx hsy)
  obtain ⟨herr, hresult⟩ := complete_fieldCommand_congr hfv hvalue
  exact ⟨_, _, exec_interp s, exec_interp u, herr, hresult⟩

end InterpErrors
end Proofs
end Sys2Proof

/-! ### A host's commands on an idle block, wherever the completion falls among its accesses (spec/30_encoding.md R83 to R87,
spec/20_memory.md R69, R71) -/

namespace Sys2Proof
namespace Proofs
namespace HostCommands

-- One proof of this part at a time: beside the tests, whose evaluations hold a thread each, the check's memory has no room
-- for the threads of several.
set_option deprecated.oldSectionVars true

open Sys2Proof.Machine HostAccess CommandEncoding

/-! #### The block at another moment -/

/-- t is s at another moment: only the port, the last response and the model's counter may differ. -/
def SameBlock (s t : State) : Prop := ∃ q r k, t = { s with port := q, resp := r, tick := k }

theorem SameBlock.refl (s : State) : SameBlock s s := ⟨s.port, s.resp, s.tick, rfl⟩

theorem SameBlock.trans {s t u : State} (hst : SameBlock s t) (htu : SameBlock t u) : SameBlock s u := by
  obtain ⟨q, r, k, rfl⟩ := hst
  obtain ⟨q', r', k', rfl⟩ := htu
  exact ⟨q', r', k', rfl⟩

theorem SameBlock.inv {s t : State} (h : SameBlock s t) (hinv : Inv s) : Inv t := by
  obtain ⟨q, r, k, rfl⟩ := h
  exact ⟨hinv.memory, hinv.code, hinv.empty, hinv.field⟩

theorem poly_of_sameBlock {s t : State} (h : SameBlock s t) : t.poly = s.poly := by
  obtain ⟨q, r, k, rfl⟩ := h
  rfl

/-- While idle, STATUS shows no draw. -/
theorem statusRead_eq_of_sameBlock {s t : State} (h : SameBlock s t) (hb : s.busy = false) :
    statusRead t = statusRead s := by
  obtain ⟨q, r, k, rfl⟩ := h
  simp only [statusRead, errRead, fvRead, pendingBuild, hb, Bool.false_and, Bool.false_eq_true, if_false]

/-- Nothing is pending and nothing waits at the port. -/
def Idle (s : State) : Prop := s.busy = false ∧ s.port = []

theorem Idle.busy {s : State} (h : Idle s) : s.busy = false := h.1

theorem Idle.port {s : State} (h : Idle s) : s.port = [] := h.2

/-! #### Accesses of an idle block -/

section IdleBlock

variable (lat : Nat → Nat) {h : HostRun} (hidle : Idle h.block) {target : Target} (hwf : target.wf = true)
include hidle hwf

theorem hostWrite_idle {v : Word} {stored : State}
    (ht : writeTarget h.block target v = some (unlessBusy h.block stored)) :
    (hostWrite lat target v h).block = respond .okay stored := by
  rw [hostWrite, Laws.HostSide.hostAccess_first lat _ hidle.port (.inl hidle.busy),
    Laws.Bus.accessBus_write v (Laws.Bus.legalAccess_offset hwf), Laws.Bus.targetAt_offset hwf, ht,
    unlessBusy_idle hidle.busy]

theorem hostRead_idle {d : Word} (hd : readTarget h.block target = some d) :
    (hostRead lat target h).1 = some d ∧ (hostRead lat target h).2.block = respond (.data d) h.block := by
  have hread : (hostRead lat target h).2.block = respond (.data d) h.block := by
    rw [hostRead, Laws.HostSide.hostAccess_first lat _ hidle.port (.inl hidle.busy),
      Laws.Bus.accessBus_read (Laws.Bus.legalAccess_offset hwf), Laws.Bus.targetAt_offset hwf, hd]
  exact ⟨congrArg responseData hread, hread⟩

end IdleBlock

/-! #### The polling loop (R86) -/

theorem sameBlock_respond (r : Response) (s : State) : SameBlock s (respond r s) := ⟨s.port, some r, s.tick + 1, rfl⟩

section Poll

variable (lat : Nat → Nat) {c : State} (hc : c.busy = false)
include hc

/-- A poll that the completion comes before shows the completed block's STATUS. -/
theorem hostRead_status_completed {h : HostRun} (hp : h.block.port = []) (hb : h.block.busy = true) (hw : h.wait = 0)
    (hcompletes : ∀ s, SameBlock h.block s → ∃ t, completePending s = .next t ∧ SameBlock c t) :
    (hostRead lat .status h).1 = some (statusRead c) ∧ SameBlock c (hostRead lat .status h).2.block := by
  obtain ⟨t, ht, -, haccess⟩ := Laws.HostSide.hostAccess_completes lat (.read (Target.offset .status) 4) hp hb hw
  obtain ⟨t', ht', hsame⟩ := hcompletes _ ⟨_, h.block.resp, h.block.tick, rfl⟩
  obtain rfl : t' = t := Host.Outcome.next.inj (ht'.symm.trans ht)
  have hempty : SameBlock c { t' with port := [] } := hsame.trans ⟨[], t'.resp, t'.tick, rfl⟩
  rw [Laws.HostSide.accessBus_status, statusRead_eq_of_sameBlock hempty hc] at haccess
  have hread : (hostRead lat .status h).2.block = respond (.data (statusRead c)) { t' with port := [] } :=
    congrArg HostRun.block haccess
  exact ⟨congrArg responseData hread, hread ▸ hempty.trans (sameBlock_respond _ _)⟩

/-- The loop answers the completed block's STATUS: until then every poll finds BUSY = 1 and changes nothing. -/
theorem pollLoop_completed (k : Nat) {h : HostRun} (hp : h.block.port = []) (hb : h.block.busy = true) (hk : h.wait ≤ k)
    (hcompletes : ∀ s, SameBlock h.block s → ∃ t, completePending s = .next t ∧ SameBlock c t) :
    (pollLoop lat k h).1 = statusRead c ∧ SameBlock c (pollLoop lat k h).2.block := by
  induction k generalizing h with
  | zero =>
    obtain ⟨hd, hsame⟩ := hostRead_status_completed lat hc hp hb (Nat.le_zero.1 hk) hcompletes
    exact ⟨congrArg (Option.getD · 0#32) hd, hsame⟩
  | succ k ih =>
    have hloop : pollLoop lat (k + 1) h = if ((hostRead lat .status h).1.getD 0#32).getLsbD 0
        then pollLoop lat k (hostRead lat .status h).2
        else ((hostRead lat .status h).1.getD 0#32, (hostRead lat .status h).2) := rfl
    by_cases hw : h.wait = 0
    · obtain ⟨hd, hsame⟩ := hostRead_status_completed lat hc hp hb hw hcompletes
      rw [hloop, hd, Option.getD_some, Laws.HostSide.statusRead_busy, hc, if_neg Bool.false_ne_true]
      exact ⟨rfl, hsame⟩
    · rw [hloop, Laws.HostSide.hostRead_status_first lat hp (.inr hw), Option.getD_some, Laws.HostSide.statusRead_busy, hb,
        if_pos rfl]
      exact ih hp hb (Nat.sub_le_of_le_add hk) fun s hs => hcompletes s ((sameBlock_respond _ _).trans hs)

end Poll

/-! #### EXEC (R86) -/

/-- err of a STATUS word is its ERR field. -/
theorem errOfStatus_packStatus (err : BitVec 4) (coll fv busy : BitVec 1) :
    errOfStatus (packStatus err coll fv busy) = err := by
  have hcoll := coll.isLt
  have hfv := fv.isLt
  have hbusy := busy.isLt
  apply BitVec.eq_of_toNat_eq
  rw [errOfStatus, BitVec.extractLsb'_toNat, Registers.packStatus_toNat, Nat.shiftRight_eq_div_pow]
  omega

theorem errOfStatus_statusRead {s : State} (hb : s.busy = false) : errOfStatus (statusRead s) = s.err := by
  rw [statusRead, errOfStatus_packStatus, errRead, hb, if_neg Bool.false_ne_true]

/-- The block after a command i that wrote v to RESULT. -/
def withResult (i : Instr) (v : Byte) (s : State) : State :=
  { s with pend := encode i, result := v, err := 0#4, busy := false }

/-- Command i, pending in the block s, writes v to RESULT, whenever its completion comes. -/
def Yields (i : Instr) (s : State) (v : Byte) : Prop :=
  ∀ t, SameBlock (acceptCommand (encode i) s) t →
    exec i t = .next { t with result := v, err := 0#4, busy := false, tick := t.tick + 1 }

theorem completePending_of_yields {i : Instr} {s : State} {v : Byte} (hyields : Yields i s v) {t : State}
    (ht : SameBlock (acceptCommand (encode i) s) t) :
    ∃ u, completePending t = .next u ∧ SameBlock (withResult i v s) u := by
  obtain ⟨-, -, hdecode⟩ := encode_spec i
  have hexec := hyields t ht
  obtain ⟨q, r, k, rfl⟩ := ht
  exact ⟨_, by rw [completePending, acceptCommand_pend, hdecode]; exact hexec, q, r, k + 1, rfl⟩

section Exec

variable (lat : Nat → Nat) {h : HostRun} (hidle : Idle h.block) {i : Instr} {v : Byte}
include hidle

/-- EXEC of a command that yields v leaves err = 0 and RESULT = v. -/
theorem hostExec_yields (hyields : Yields i h.block v) :
    (hostExec lat (encode i) h).1 = 0#4 ∧ SameBlock (withResult i v h.block) (hostExec lat (encode i) h).2.block ∧
      Idle (hostExec lat (encode i) h).2.block := by
  have hwrite : (hostWrite lat .cmd (encode i) h).block = respond .okay (acceptCommand (encode i) h.block) :=
    hostWrite_idle lat hidle rfl rfl
  have hport : (hostWrite lat .cmd (encode i) h).block.port = [] := by
    rw [hwrite]
    exact hidle.port
  obtain ⟨-, hbusy, hempty⟩ := Laws.HostSide.pollStatus_ends lat _ hport
  obtain ⟨hstatus, hsame⟩ := pollLoop_completed lat (c := withResult i v h.block) rfl _ hport (by rw [hwrite]; rfl) le_rfl
    fun s hs => completePending_of_yields hyields ((sameBlock_respond _ _).trans (hwrite ▸ hs))
  exact ⟨(congrArg errOfStatus hstatus).trans (errOfStatus_statusRead rfl), hsame, hbusy, hempty⟩

end Exec

/-! #### A two-operand pseudo-instruction (R87) -/

/-- What a command does depends neither on the port nor on the counter. -/
theorem Yields.sameBlock {i : Instr} {s t : State} {v : Byte} (hyields : Yields i s v) (hst : SameBlock s t) :
    Yields i t v := by
  obtain ⟨q, r, k, rfl⟩ := hst
  exact fun u hu => hyields u (SameBlock.trans ⟨q, r, k, rfl⟩ hu)

theorem SameBlock.withResult {s t : State} (hst : SameBlock s t) (i : Instr) (v : Byte) :
    SameBlock (withResult i v s) (withResult i v t) := by
  obtain ⟨q, r, k, rfl⟩ := hst
  exact ⟨q, r, k, rfl⟩

theorem result_of_withResult {i : Instr} {v : Byte} {s t : State} (h : SameBlock (withResult i v s) t) : t.result = v := by
  obtain ⟨q, r, k, rfl⟩ := h
  rfl

/-- Reading RESULT of an idle block answers it, zero-extended, and changes nothing. -/
theorem hostRead_result_idle (lat : Nat → Nat) {h : HostRun} (hidle : Idle h.block) :
    (hostRead lat .result h).1 = some (zext32 h.block.result) ∧ SameBlock h.block (hostRead lat .result h).2.block ∧
      Idle (hostRead lat .result h).2.block := by
  obtain ⟨hdata, hblock⟩ := hostRead_idle lat hidle (target := .result) rfl (d := zext32 h.block.result)
    (by rw [readTarget, resultRead, hidle.busy, if_neg Bool.false_ne_true])
  rw [hblock]
  exact ⟨hdata, sameBlock_respond _ _, hidle.busy, hidle.port⟩

/-- The pseudo-instruction of a command that yields v answers v, zero-extended. -/
theorem hostBinary_yields (lat : Nat → Nat) {h : HostRun} (hidle : Idle h.block) {i : Instr} {a b : Word} {v : Byte}
    (hyields : Yields i { h.block with opa := a, opb := b } v) :
    ∃ h', hostBinary lat i a b h = (.ok (zext32 v), h') ∧
      SameBlock (withResult i v { h.block with opa := a, opb := b }) h'.block ∧ Idle h'.block := by
  have hopa : (hostWrite lat .opa a h).block = respond .okay { h.block with opa := a } := hostWrite_idle lat hidle rfl rfl
  have hidleA : Idle (hostWrite lat .opa a h).block := by rw [hopa]; exact ⟨hidle.busy, hidle.port⟩
  have hopb : (hostWrite lat .opb b (hostWrite lat .opa a h)).block =
      respond .okay { (hostWrite lat .opa a h).block with opb := b } := hostWrite_idle lat hidleA rfl rfl
  have hidleB : Idle (hostWrite lat .opb b (hostWrite lat .opa a h)).block := by
    rw [hopb]
    exact ⟨hidleA.busy, hidleA.port⟩
  have hoperands : SameBlock { h.block with opa := a, opb := b } (hostWrite lat .opb b (hostWrite lat .opa a h)).block :=
    ⟨h.block.port, some .okay, h.block.tick + 1 + 1, by rw [hopb, hopa]; rfl⟩
  obtain ⟨herr, hsame, hidleC⟩ := hostExec_yields lat hidleB (hyields.sameBlock hoperands)
  obtain ⟨hdata, hread, hidleD⟩ := hostRead_result_idle lat hidleC
  have hcompleted := (hoperands.withResult i v).trans hsame
  refine ⟨_, ?_, hcompleted.trans hread, hidleD⟩
  simp only [hostBinary, if_pos herr, hdata, Option.getD_some, result_of_withResult hsame]

end HostCommands
end Proofs
end Sys2Proof

/-! ### The host procedures (spec/41_generator_validator.md R102, R103; spec/44_polynomial_host.md R135 to R140;
spec/46_random_polynomial_host.md R151) -/

namespace Sys2Proof
namespace Proofs
namespace HostProcedures

-- One proof of this part at a time: beside the tests, whose evaluations hold a thread each, the check's memory has no room
-- for the threads of several.
set_option deprecated.oldSectionVars true

open Sys2Proof.Machine HostAccess HostCommands Multiplier BuiltField FieldArithmetic ResidueField Polynomial

/-! #### makePolynomial (R151) -/

/-- Settles O60: the degree is checked first, then the intercept; the coefficients are the drawn bytes. -/
theorem makePolynomialDrawsItsCoefficients : Obligations.MakePolynomialDrawsItsCoefficients := by
  refine fun call intercept degree => ⟨fun hnegative => if_pos hnegative, fun hdegree hintercept => ?_,
    fun hdegree hintercept => ⟨?_, ?_⟩⟩
  · exact (if_neg (Int.not_lt.2 hdegree)).trans (if_pos hintercept)
  · rw [randomBytes, List.length_map, List.length_range]
  · exact (if_neg (Int.not_lt.2 hdegree)).trans (if_neg (Nat.not_lt.2 hintercept))

/-! #### ADD and MUL under a built field -/

/-- An idle block whose field context is a built one with reduction polynomial p. -/
def Ready (p : Half) (s : State) : Prop := Idle s ∧ Inv s ∧ s.fv = true ∧ s.fpoly = p

theorem Ready.of_withResult {p : Half} {s t : State} (hready : Ready p s) {i : Instr} {a b : Word} {v : Byte}
    (ht : SameBlock (withResult i v { s with opa := a, opb := b }) t) (hidle : Idle t) : Ready p t := by
  obtain ⟨-, hinv, hfv, hp⟩ := hready
  have hcompleted : Inv (withResult i v { s with opa := a, opb := b }) :=
    ⟨hinv.memory, Nat.zero_le 7, hinv.empty, hinv.field⟩
  refine ⟨hidle, ht.inv hcompleted, ?_, ?_⟩ <;> obtain ⟨q, r, k, rfl⟩ := ht
  · exact hfv
  · exact hp

theorem yields_mul {s : State} (hinv : Inv s) (hfv : s.fv = true) (a b : Byte) :
    Yields .mul { s with opa := zext32 a, opb := zext32 b } (mulbytes a b s.fpoly) := by
  rintro t ⟨q, r, k, rfl⟩
  refine exec_result (exec_mul _) hfv
    ((Laws.Commands.fmul_zext32 _ a b).trans (congrArg Except.ok (mulBody_eq_mulbytes ?_ a b)))
  exact hinv.field hfv

theorem yields_add {s : State} (hfv : s.fv = true) (a b : Byte) :
    Yields .add { s with opa := zext32 a, opb := zext32 b } (a ^^^ b) := by
  rintro t ⟨q, r, k, rfl⟩
  exact exec_result (exec_add _) hfv (Laws.Commands.fadd_zext32 a b)

section Field

variable (lat : Nat → Nat) {p : Half} {h : HostRun} (hready : Ready p h.block)
include hready

theorem hostBinary_mul (a b : Byte) :
    ∃ h', hostBinary lat .mul (zext32 a) (zext32 b) h = (.ok (zext32 (mulbytes a b p)), h') ∧ Ready p h'.block := by
  have ⟨hidle, hinv, hfv, hp⟩ := hready
  obtain ⟨h', heq, hsame, hidle'⟩ := hostBinary_yields lat hidle (yields_mul hinv hfv a b)
  exact ⟨h', by rw [heq, hp], hready.of_withResult hsame hidle'⟩

theorem hostBinary_add (a b : Byte) :
    ∃ h', hostBinary lat .add (zext32 a) (zext32 b) h = (.ok (zext32 (a ^^^ b)), h') ∧ Ready p h'.block := by
  have ⟨hidle, _, hfv, _⟩ := hready
  obtain ⟨h', heq, hsame, hidle'⟩ := hostBinary_yields lat hidle (yields_add hfv a b)
  exact ⟨h', heq, hready.of_withResult hsame hidle'⟩

end Field

/-! #### evaluate (R135, R136) -/

/-- One turn of Horner's loop: the next lower coefficient c. -/
def hornerTurn (p : Half) (x acc c : Byte) : Byte := mulbytes acc x p ^^^ c

theorem polyEval_eq_foldl (p : Half) (x : Byte) (cs : List Byte) :
    polyEval p x cs = cs.reverse.foldl (hornerTurn p x) 0#8 := by
  rw [List.foldl_reverse]
  induction cs with
  | nil => rfl
  | cons c cs ih => rw [polyEval_cons, List.foldr_cons, ← ih, hornerTurn, BitVec.xor_comm]

theorem hornerLoop_ready (lat : Nat → Nat) {p : Half} (x : Byte) (cs : List Byte) (acc : Byte) {h : HostRun}
    (hready : Ready p h.block) :
    (hornerLoop lat (zext32 x) (cs.map zext32) (zext32 acc) h).1 = .ok (zext32 (cs.foldl (hornerTurn p x) acc)) := by
  induction cs generalizing acc h with
  | nil => rfl
  | cons c cs ih =>
    obtain ⟨h1, hmul, hready1⟩ := hostBinary_mul lat hready acc x
    obtain ⟨h2, hadd, hready2⟩ := hostBinary_add lat hready1 (mulbytes acc x p) c
    rw [List.map_cons, hornerLoop, hmul]
    simp only [hadd]
    exact ih _ hready2

/-- The checks of evaluate: the coefficients first, then x. -/
theorem evaluate_cons (lat : Nat → Nat) {c : List Word} {top : Word} {rest : List Word} (hc : c.reverse = top :: rest)
    (x : Word) (h : HostRun) : evaluate lat c x h =
      if x = 0#32 then (.error .invalidEvaluationPoint, h) else hornerLoop lat x rest top h := by
  rw [evaluate, hc]

/-- Settles O57: after the checks, Horner's loop from the highest coefficient down. -/
theorem evaluateIsHorner : Obligations.EvaluateIsHorner := by
  refine ⟨fun lat x h => rfl, fun lat c h hc => ?_, fun lat c x h hx => ?_,
    fun lat c x h hinv hfv hbusy hport hc hx => ?_⟩
  · obtain ⟨top, rest, hcons⟩ := List.exists_cons_of_ne_nil (List.reverse_ne_nil_iff.2 hc)
    rw [evaluate_cons lat hcons, if_pos rfl]
  · rw [evaluate_cons lat List.reverse_singleton, if_neg hx]
    rfl
  · obtain ⟨top, rest, hcons⟩ := List.exists_cons_of_ne_nil (List.reverse_ne_nil_iff.2 hc)
    have hwords : (c.map zext32).reverse = zext32 top :: rest.map zext32 := by
      rw [← List.map_reverse, hcons, List.map_cons]
    have htop : hornerTurn h.block.fpoly x 0#8 top = top := by rw [hornerTurn, zero_mulbytes, BitVec.zero_xor]
    have hword : zext32 x ≠ 0#32 := Interpolator.zext32_byte_injective.ne hx
    rw [evaluate_cons lat hwords, if_neg hword,
      hornerLoop_ready lat x rest top ⟨⟨hbusy, hport⟩, hinv, hfv, rfl⟩, polyEval_eq_foldl, hcons, List.foldl_cons, htop]

/-! #### addPolynomials (R137) -/

theorem getD_map_zext32 (cs : List Byte) (k : Nat) : (cs.map zext32).getD k 0#32 = zext32 (cs.getD k 0#8) :=
  List.getD_map cs 0#8 zext32

theorem addLoop_ready (lat : Nat → Nat) {p : Half} (ps : List (Byte × Byte)) (r : List Byte) {h : HostRun}
    (hready : Ready p h.block) :
    (addLoop lat (ps.map fun q => (zext32 q.1, zext32 q.2)) (r.map zext32) h).1 =
      .ok ((r ++ ps.map fun q => q.1 ^^^ q.2).map zext32) := by
  induction ps generalizing r h with
  | nil => exact congrArg (fun cs : List Byte => Except.ok (cs.map zext32)) (List.append_nil r).symm
  | cons q ps ih =>
    obtain ⟨h1, hadd, hready1⟩ := hostBinary_add lat hready q.1 q.2
    have hr : r.map zext32 ++ [zext32 (q.1 ^^^ q.2)] = (r ++ [q.1 ^^^ q.2]).map zext32 := by simp
    rw [List.map_cons, addLoop, hadd]
    simp only [hr]
    rw [ih _ hready1, List.append_assoc]
    rfl

/-- The coefficients of the sum, missing terms 0. -/
def sumCoeffs (a b : List Byte) : List Byte :=
  (List.range (max a.length b.length)).map fun k => a.getD k 0#8 ^^^ b.getD k 0#8

theorem length_sumCoeffs (a b : List Byte) : (sumCoeffs a b).length = max a.length b.length := by
  rw [sumCoeffs, List.length_map, List.length_range]

theorem getD_sumCoeffs (a b : List Byte) (k : Nat) : (sumCoeffs a b).getD k 0#8 = a.getD k 0#8 ^^^ b.getD k 0#8 := by
  rcases Nat.lt_or_ge k (max a.length b.length) with hk | hk
  · simp [sumCoeffs, hk]
  · obtain ⟨ha, hb⟩ := max_le_iff.1 hk
    rw [List.getD_eq_default _ _ ((length_sumCoeffs a b).trans_le hk), List.getD_eq_default _ _ ha,
      List.getD_eq_default _ _ hb, BitVec.xor_self]

theorem addPolynomials_ready (lat : Nat → Nat) {p : Half} (a b : List Byte) {h : HostRun} (hready : Ready p h.block) :
    (addPolynomials lat (a.map zext32) (b.map zext32) h).1 = .ok ((sumCoeffs a b).map zext32) := by
  have hloop := addLoop_ready lat ((List.range (max a.length b.length)).map fun k => (a.getD k 0#8, b.getD k 0#8)) []
    hready
  simp only [List.map_map, Function.comp_def, ← getD_map_zext32] at hloop
  rw [addPolynomials, List.length_map, List.length_map]
  exact hloop

theorem polyEval_eq_of_eval {p : Half} {x v : Byte} {cs : List Byte}
    (h : (coeffPoly (p.setWidth 8) cs).eval (residue (p.setWidth 8) x) = residue (p.setWidth 8) v) : polyEval p x cs = v :=
  residue_injective _ ((eval_coeffPoly p x cs).symm.trans h)

theorem polyEval_sumCoeffs (p : Half) (x : Byte) (a b : List Byte) :
    polyEval p x (sumCoeffs a b) = polyEval p x a ^^^ polyEval p x b := by
  have hsum : coeffPoly (p.setWidth 8) (sumCoeffs a b) = coeffPoly (p.setWidth 8) a + coeffPoly (p.setWidth 8) b := by
    ext k
    rw [coeff_add, coeff_coeffPoly, coeff_coeffPoly, coeff_coeffPoly, getD_sumCoeffs, residue_xor]
  apply polyEval_eq_of_eval
  rw [hsum, eval_add, eval_coeffPoly, eval_coeffPoly, residue_xor]

/-! #### mulPolynomials (R138) -/

/-- The xor into coefficient k adds v·X^k. -/
theorem coeffPoly_set_xor (r : Byte) {cs : List Byte} {k : Nat} (hk : k < cs.length) (v : Byte) :
    coeffPoly r (cs.set k (cs.getD k 0#8 ^^^ v)) = coeffPoly r cs + C (residue r v) * X ^ k := by
  ext i
  rw [coeff_add, coeff_C_mul_X_pow, coeff_coeffPoly, coeff_coeffPoly]
  by_cases hik : i = k
  · subst hik
    rw [if_pos rfl, ← residue_xor]
    simp [hk]
  · rw [if_neg hik, add_zero, List.getD_eq_getElem?_getD, List.getElem?_set_ne (Ne.symm hik), List.getD_eq_getElem?_getD]

theorem coeffPoly_replicate (r : Byte) (n : Nat) : coeffPoly r (List.replicate n 0#8) = 0 := by
  induction n with
  | zero => rfl
  | succ n ih => rw [List.replicate_succ, coeffPoly_cons, ih, residue_zero, map_zero, mul_zero, add_zero]

/-- The term of coefficient k. -/
noncomputable def coeffTerm (r : Byte) (cs : List Byte) (k : Nat) : (AdjoinRoot (modulus r))[X] :=
  C (residue r (cs.getD k 0#8)) * X ^ k

theorem coeffPoly_eq_sum_coeffTerm (r : Byte) (cs : List Byte) :
    coeffPoly r cs = ((List.range cs.length).map (coeffTerm r cs)).sum := by
  induction cs with
  | nil => rfl
  | cons c cs ih =>
    have hzero : coeffTerm r (c :: cs) 0 = C (residue r c) := (congrArg _ (pow_zero X)).trans (mul_one _)
    have hsucc : coeffTerm r (c :: cs) ∘ Nat.succ = fun k => X * coeffTerm r cs k := funext fun k => by
      simp only [Function.comp_apply, coeffTerm, List.getD_cons_succ, Nat.succ_eq_add_one, pow_succ]
      ring
    rw [coeffPoly_cons, ih, List.length_cons, List.range_succ_eq_map, List.map_cons, List.sum_cons, List.map_map, hzero,
      hsucc, List.sum_map_mul_left]

theorem coeffTerm_mul_coeffTerm (p : Half) (a b : List Byte) (i j : Nat) :
    coeffTerm (p.setWidth 8) a i * coeffTerm (p.setWidth 8) b j =
      C (residue (p.setWidth 8) (mulbytes (a.getD i 0#8) (b.getD j 0#8) p)) * X ^ (i + j) := by
  rw [coeffTerm, coeffTerm, residue_mulbytes, C_mul, pow_add]
  ring

/-- The coefficient pairs of mulPolynomials's loops. -/
def coeffPairs (a b : List Byte) : List (Nat × Nat) :=
  (List.range a.length).flatMap fun i => (List.range b.length).map fun j => (i, j)

theorem sum_coeffPairs (r : Byte) (a b : List Byte) :
    ((coeffPairs a b).map fun q => coeffTerm r a q.1 * coeffTerm r b q.2).sum = coeffPoly r a * coeffPoly r b := by
  rw [coeffPoly_eq_sum_coeffTerm r a, coeffPoly_eq_sum_coeffTerm r b, ← List.sum_map_mul_right, coeffPairs,
    List.map_flatMap, List.flatMap_def, List.sum_flatten, List.map_map]
  simp only [Function.comp_def, List.map_map, List.sum_map_mul_left]

/-- The loop adds the products of the pairs to the polynomial r. -/
theorem mulPolyLoop_ready (lat : Nat → Nat) {p : Half} (a b : List Byte) (ps : List (Nat × Nat)) (r : List Byte)
    (hps : ∀ q ∈ ps, q.1 + q.2 < r.length) {h : HostRun} (hready : Ready p h.block) :
    ∃ r' : List Byte, (mulPolyLoop lat (a.map zext32) (b.map zext32) ps (r.map zext32) h).1 = .ok (r'.map zext32) ∧
      r'.length = r.length ∧ coeffPoly (p.setWidth 8) r' = coeffPoly (p.setWidth 8) r +
        (ps.map fun q => coeffTerm (p.setWidth 8) a q.1 * coeffTerm (p.setWidth 8) b q.2).sum := by
  induction ps generalizing r h with
  | nil => exact ⟨r, rfl, rfl, by rw [List.map_nil, List.sum_nil, add_zero]⟩
  | cons q ps ih =>
    obtain ⟨i, j⟩ := q
    obtain ⟨hq, htail⟩ := List.forall_mem_cons.1 hps
    obtain ⟨h1, hmul, hready1⟩ := hostBinary_mul lat hready (a.getD i 0#8) (b.getD j 0#8)
    obtain ⟨h2, hadd, hready2⟩ := hostBinary_add lat hready1 (r.getD (i + j) 0#8) (mulbytes (a.getD i 0#8) (b.getD j 0#8) p)
    obtain ⟨r', hloop, hlength, hpoly⟩ := ih
      (r.set (i + j) (r.getD (i + j) 0#8 ^^^ mulbytes (a.getD i 0#8) (b.getD j 0#8) p)) (by simpa using htail) hready2
    refine ⟨r', ?_, hlength.trans List.length_set, ?_⟩
    · rw [mulPolyLoop, getD_map_zext32, getD_map_zext32, hmul]
      simp only [getD_map_zext32, hadd, ← List.map_set]
      exact hloop
    · rw [hpoly, coeffPoly_set_xor _ hq, List.map_cons, List.sum_cons, coeffTerm_mul_coeffTerm, add_assoc]

theorem mulPolynomials_ready (lat : Nat → Nat) {p : Half} {a b : List Byte} (ha : a ≠ []) (hb : b ≠ []) {h : HostRun}
    (hready : Ready p h.block) :
    ∃ r : List Byte, (mulPolynomials lat (a.map zext32) (b.map zext32) h).1 = .ok (r.map zext32) ∧
      r.length = a.length + b.length - 1 ∧
      coeffPoly (p.setWidth 8) r = coeffPoly (p.setWidth 8) a * coeffPoly (p.setWidth 8) b := by
  have hpairs : ∀ q ∈ coeffPairs a b, q.1 + q.2 < (List.replicate (a.length + b.length - 1) 0#8).length := by
    simp only [coeffPairs, List.mem_flatMap, List.mem_map, List.mem_range, List.length_replicate]
    rintro _ ⟨i, hi, j, hj, rfl⟩
    omega
  obtain ⟨r, hloop, hlength, hpoly⟩ := mulPolyLoop_ready lat a b (coeffPairs a b) _ hpairs hready
  refine ⟨r, ?_, hlength.trans List.length_replicate, ?_⟩
  · have hnonempty : ((a.map zext32).isEmpty || (b.map zext32).isEmpty) = false := by simp [ha, hb]
    rw [mulPolynomials, hnonempty, if_neg Bool.false_ne_true, List.length_map, List.length_map, ← hloop, List.map_replicate]
    rfl
  · rw [hpoly, coeffPoly_replicate, zero_add, sum_coeffPairs]

theorem residue_foldl_xor (r : Byte) (f : Nat → Byte) (n : Nat) :
    residue r (((List.range n).map f).foldl (fun u v => u ^^^ v) 0#8) = ∑ i ∈ Finset.range n, residue r (f i) := by
  induction n with
  | zero => exact residue_zero r
  | succ n ih =>
    rw [List.range_succ, List.map_append, List.foldl_append, Finset.sum_range_succ, ← ih]
    exact residue_xor r _ _

/-- A coefficient of the product is the convolution's. -/
theorem getD_of_coeffPoly_mul {p : Half} {a b r : List Byte}
    (h : coeffPoly (p.setWidth 8) r = coeffPoly (p.setWidth 8) a * coeffPoly (p.setWidth 8) b) (k : Nat) :
    r.getD k 0#8 = ((List.range (k + 1)).map fun i => mulbytes (a.getD i 0#8) (b.getD (k - i) 0#8) p).foldl
      (fun u v => u ^^^ v) 0#8 := by
  apply residue_injective (p.setWidth 8)
  rw [residue_foldl_xor, ← coeff_coeffPoly, h, coeff_mul, Finset.Nat.sum_antidiagonal_eq_sum_range_succ_mk]
  simp only [coeff_coeffPoly, residue_mulbytes]

theorem polyEval_of_coeffPoly_mul {p : Half} {a b r : List Byte}
    (h : coeffPoly (p.setWidth 8) r = coeffPoly (p.setWidth 8) a * coeffPoly (p.setWidth 8) b) (x : Byte) :
    polyEval p x r = mulbytes (polyEval p x a) (polyEval p x b) p := by
  apply polyEval_eq_of_eval
  rw [h, eval_mul, eval_coeffPoly, eval_coeffPoly, residue_mulbytes]

/-- Settles O58: over the residues the procedures add and multiply polynomials. -/
theorem polynomialProceduresAddAndMultiply : Obligations.PolynomialProceduresAddAndMultiply := by
  intro lat a b h hinv hfv hbusy hport
  have hready : Ready h.block.fpoly h.block := ⟨⟨hbusy, hport⟩, hinv, hfv, rfl⟩
  refine ⟨⟨sumCoeffs a b, addPolynomials_ready lat a b hready, length_sumCoeffs a b, fun k _ => getD_sumCoeffs a b k,
    fun x => polyEval_sumCoeffs _ x a b⟩, fun ha hb => ?_, rfl, ?_⟩
  · obtain ⟨r, hr, hlength, hpoly⟩ := mulPolynomials_ready lat ha hb hready
    exact ⟨r, hr, hlength, fun k _ => getD_of_coeffPoly_mul hpoly k, fun x => polyEval_of_coeffPoly_mul hpoly x⟩
  · exact if_pos (Bool.or_true _)

/-! #### findAllGenerators (R102, R103) -/

/-- ISGEN's RESULT for the candidate c. -/
def verdict (p : Word) (c : Nat) : Byte := if isgen (p.setWidth 16) (BitVec.ofNat 8 c) then 1#8 else 0#8

theorem yields_isgen {s : State} (hp : s.poly.toNat ≤ 0xFFFF) {c : Nat} (hc : c ≤ 255) :
    Yields .isgen { s with gen := BitVec.ofNat 32 c } (verdict s.poly c) := by
  rintro t ⟨q, r, k, rfl⟩
  obtain ⟨-, hexec, -⟩ := CommandCompletion.isgenAnswersTheGeneratorTest
  have hgen : (BitVec.ofNat 32 c).toNat ≤ 255 := (Nat.mod_le _ _).trans hc
  have hbyte : (BitVec.ofNat 32 c).setWidth 8 = BitVec.ofNat 8 c := BitVec.setWidth_ofNat_of_le (by decide) c
  rw [verdict, ← hbyte]
  exact hexec _ hp hgen

/-- An idle block with p in POLY. -/
def Scanning (p : Word) (s : State) : Prop := Idle s ∧ s.poly = p

/-- A turn of the loop for the candidate c keeps c exactly if it passes the generator test. -/
theorem generatorLoop_cons (lat : Nat → Nat) {p : Word} (hp : p.toNat ≤ 0xFFFF) {c : Nat} (hc : c ≤ 255) (cs : List Nat)
    (out : List Word) {h : HostRun} (hscan : Scanning p h.block) :
    ∃ h', Scanning p h'.block ∧ generatorLoop lat (c :: cs) out h =
      generatorLoop lat cs (if verdict p c = 1#8 then out ++ [BitVec.ofNat 32 c] else out) h' := by
  obtain ⟨hidle, rfl⟩ := hscan
  have hwrite : (hostWrite lat .gen (BitVec.ofNat 32 c) h).block =
      respond .okay { h.block with gen := BitVec.ofNat 32 c } := hostWrite_idle lat hidle rfl rfl
  have hidleG : Idle (hostWrite lat .gen (BitVec.ofNat 32 c) h).block := by
    rw [hwrite]
    exact ⟨hidle.busy, hidle.port⟩
  have hyields : Yields .isgen (hostWrite lat .gen (BitVec.ofNat 32 c) h).block (verdict h.block.poly c) := by
    rw [hwrite]
    exact (yields_isgen hp hc).sameBlock (sameBlock_respond _ _)
  have hpoly : (hostWrite lat .gen (BitVec.ofNat 32 c) h).block.poly = h.block.poly := by
    rw [hwrite]
    rfl
  obtain ⟨herr, hsame, hidleE⟩ := hostExec_yields lat hidleG hyields
  obtain ⟨hdata, hread, hidleR⟩ := hostRead_result_idle lat hidleE
  have hone : zext32 (verdict h.block.poly c) = 1#32 ↔ verdict h.block.poly c = 1#8 :=
    Interpolator.zext32_byte_injective.eq_iff (b := 1#8)
  refine ⟨_, ⟨hidleR, (poly_of_sameBlock (hsame.trans hread)).trans hpoly⟩, ?_⟩
  simp only [generatorLoop, if_pos herr, hdata, Option.getD_some, result_of_withResult hsame, hone]

theorem generatorLoop_scans (lat : Nat → Nat) {p : Word} (hp : p.toNat ≤ 0xFFFF) {cs : List Nat} (hcs : ∀ c ∈ cs, c ≤ 255)
    (out : List Word) {h : HostRun} (hscan : Scanning p h.block) :
    (generatorLoop lat cs out h).1 =
      .ok (out ++ (cs.filter fun c => isgen (p.setWidth 16) (BitVec.ofNat 8 c)).map (BitVec.ofNat 32)) := by
  induction cs generalizing out h with
  | nil => rw [List.filter_nil, List.map_nil, List.append_nil]; rfl
  | cons c cs ih =>
    obtain ⟨hc, htail⟩ := List.forall_mem_cons.1 hcs
    obtain ⟨h', hscan', hloop⟩ := generatorLoop_cons lat hp hc cs out hscan
    rw [hloop, ih htail _ hscan', List.filter_cons, verdict]
    cases isgen (p.setWidth 16) (BitVec.ofNat 8 c) <;> simp

/-- Settles O59: the loop keeps the candidates that pass, in their order. -/
theorem findAllGeneratorsScans2To254 : Obligations.FindAllGeneratorsScans2To254 := by
  intro lat p h hp hbusy hport
  have hpoly : (hostWrite lat .poly p h).block = respond .okay { h.block with poly := p } :=
    hostWrite_idle lat ⟨hbusy, hport⟩ rfl rfl
  have hscan : Scanning p (hostWrite lat .poly p h).block := by rw [hpoly]; exact ⟨⟨hbusy, hport⟩, rfl⟩
  have hcandidates : ∀ c ∈ List.range' 2 253, c ≤ 255 := fun c hc => by
    obtain ⟨-, hlt⟩ := List.mem_range'_1.1 hc
    omega
  rw [findAllGenerators, generatorLoop_scans lat hp hcandidates [] hscan, List.nil_append]

end HostProcedures
end Proofs
end Sys2Proof
